-- ==== Sys2Proof/Word.lean ====
section
/-! DEFINITION. The machine's word types (00_scope.md rules R6, R10, R11). -/

namespace Sys2Proof

/-- A byte: the cell of IBUF and OBUF (20_memory.md R60). -/
abbrev Byte := BitVec 8

/-- XLEN = 32: an operand register, a CSR, a command word, a chunk cell (00_scope.md R6). -/
abbrev Word := BitVec 32

/-- W_COST = 64: the accumulated cost numerator of a tree node (00_scope.md R6). -/
abbrev CostWord := BitVec 64

/-- W_RNG = 48: a generator state (00_scope.md R6, 42_rng.md R131). -/
abbrev RngWord := BitVec 48

/-- A natural number reduced mod 2^32 into a word. -/
abbrev word (n : Nat) : Word := BitVec.ofNat 32 n

end Sys2Proof
end

