-- ==== Sys2Proof/Config.lean ====
section
/-! DEFINITION. What an implementation fixes, and the values the spec leaves free:
the fixed parameters of 00_scope.md R6, the capacities of R8, the choice of HASH32 of R9,
the unspecified contents of the memories after hardware reset (10_state.md R50), and the output of a
generator for bit counts that have no scope (42_rng.md R136). -/

namespace Sys2Proof.Config

/-- The null handle `NONE = 0xFFFF_FFFF` (00_scope.md R6). -/
def noneHandle : Word := 0xFFFFFFFF

/-- NODE_WORDS = 8: 32-bit words per node in the ARENA read window (00_scope.md R6). -/
def nodeWords : Nat := 8

/-- IMPID reads the constant 0x5350_4331 (10_state.md R35). -/
def impid : Word := 0x53504331

/-- Which HASH32 the machine is built with (00_scope.md R9): the default, the one-at-a-time hash of
43_spinechain.md R146, or any other function, which is uninterpreted. -/
inductive HashPrimitive where
  /-- the default of this hardware -/
  | oneAtATime
  /-- some other 32-bit hash; nothing is known of its values -/
  | custom (id : Nat)
  deriving DecidableEq, Repr

/-- The values of a HASH32 other than the default: free (00_scope.md R9, 93_implementation_defined.md U1). -/
opaque customHash32 : Nat → List Byte → Word

/-- Contents of a byte cell (launch number, space number, index) that nothing has written since the
last hardware reset: free (10_state.md R50, 93_implementation_defined.md U3, U4; log 4). -/
opaque launchByte : Nat → Nat → Nat → Byte

/-- Contents of a 32-bit cell (launch number, space number, index) that nothing has written since the
last hardware reset: free (10_state.md R50, 93_implementation_defined.md U3, U4; log 4). -/
opaque launchWord : Nat → Nat → Nat → Word

/-- What `rng_out` of a generator state would be for a bit count of 32 or more: free, of no known scope
(42_rng.md R136; log 18). -/
opaque rngOutWide : RngWord → Nat → Nat

/-- The named parameters of a build: the capacities of 00_scope.md R8 and HASH32 of R9. -/
structure Params where
  /-- BUF_CAP, bytes of IBUF and of OBUF, each -/
  bufCap : Nat
  /-- CHUNK_CAP, cells of CHUNK and of RX, each -/
  chunkCap : Nat
  /-- ARENA_CAP, nodes of the tree arena -/
  arenaCap : Nat
  /-- BEAM_CAP, entries of BEAM -/
  beamCap : Nat
  /-- CAND_CAP, candidates held during one pruning step -/
  candCap : Nat
  /-- HASH32 -/
  hash : HashPrimitive
  deriving DecidableEq, Repr

/-- The default column of 00_scope.md R8, and the default HASH32 of R9. -/
def defaultParams : Params :=
  { bufCap := 65536, chunkCap := 524288, arenaCap := 16777216, beamCap := 65536,
    candCap := 1048576, hash := .oneAtATime }

/-- The bounds 00_scope.md R8 puts on the capacities. -/
abbrev Params.Legal (p : Params) : Prop :=
  1 ≤ p.bufCap ∧ p.bufCap ≤ 2 ^ 32 - 1 ∧
  1 ≤ p.chunkCap ∧ p.chunkCap ≤ 2 ^ 32 - 1 ∧
  1 ≤ p.arenaCap ∧ p.arenaCap ≤ 2 ^ 32 - 2 ∧
  1 ≤ p.beamCap ∧ p.beamCap ≤ 2 ^ 32 - 1 ∧
  p.candCap ≤ 2 ^ 32 - 1

end Sys2Proof.Config
end

