-- ==== Sys2Proof/Syntax.lean ====
section
/-! DEFINITION. The command set (30_encoding.md R95, opcode_table.json): one constructor per row. -/

namespace Sys2Proof

/-- An operand register number; every value is legal (10_state.md R21, 30_encoding.md R94). -/
abbrev Reg := Fin 16

/-- An RNG context number, G0 or G1 (10_state.md R40). -/
abbrev CtxNum := Fin 2

/-- The 24 commands. `csr` is a 12-bit address, `space` a 4-bit number and `off12` a 12-bit offset,
all unsigned (30_encoding.md R94); WellFormed bounds them. -/
inductive Instr where
  /-- NOP -/
  | nop
  /-- LI rd, imm16 -/
  | li (rd : Reg) (imm16 : BitVec 16)
  /-- LUI rd, imm16 -/
  | lui (rd : Reg) (imm16 : BitVec 16)
  /-- CSRR rd, csr -/
  | csrr (rd : Reg) (csr : Nat)
  /-- CSRW csr, rs -/
  | csrw (rs : Reg) (csr : Nat)
  /-- LDB rd, space[rs1 + off12] -/
  | ldb (rd rs1 : Reg) (space off12 : Nat)
  /-- STB rs2, space[rs1 + off12] -/
  | stb (rs2 rs1 : Reg) (space off12 : Nat)
  /-- LDW rd, space[rs1 + off12] -/
  | ldw (rd rs1 : Reg) (space off12 : Nat)
  /-- STW rs2, space[rs1 + off12] -/
  | stw (rs2 rs1 : Reg) (space off12 : Nat)
  /-- BMOV -/
  | bmov
  /-- BP.DIV rs -/
  | bpDiv (rs : Reg)
  /-- BP.PACK rs -/
  | bpPack (rs : Reg)
  /-- RSEED g, rs1 (seed), rs2 (c) -/
  | rseed (g : CtxNum) (rs1 rs2 : Reg)
  /-- RNEXT rd, g -/
  | rnext (rd : Reg) (g : CtxNum)
  /-- HASH rd, rs1, rs2 -/
  | hash (rd rs1 rs2 : Reg)
  /-- SPINE rd, rs1, rs2 -/
  | spine (rd rs1 rs2 : Reg)
  /-- CONSTRUCT -/
  | construct
  /-- ENCODE -/
  | encode
  /-- DEC.INIT -/
  | decInit
  /-- DEC.STEP -/
  | decStep
  /-- DEC.TERM -/
  | decTerm
  /-- DEC.ABORT -/
  | decAbort
  /-- DECODE -/
  | decode
  /-- SRST -/
  | srst
  deriving DecidableEq, Repr

end Sys2Proof
end

