-- ==== Sys2Proof/WellFormed.lean ====
section
/-! DEFINITION. Which commands have an encoding: the fields that are numbers fit their bits
(30_encoding.md R90, R91, R94). Register and context numbers and imm16 fit by their types. -/

namespace Sys2Proof

/-- A CSR address has 12 bits (30_encoding.md R91). -/
abbrev csrFits (csr : Nat) : Prop := csr < 2 ^ 12

/-- A space number has 4 bits; 6..15 are reserved but legal in the word (30_encoding.md R90). -/
abbrev spaceFits (space : Nat) : Prop := space < 2 ^ 4

/-- A memory offset has 12 bits (30_encoding.md R90). -/
abbrev offsetFits (off12 : Nat) : Prop := off12 < 2 ^ 12

/-- The command has an encoding. -/
def Instr.WellFormed : Instr → Bool
  | .csrr _ csr => csrFits csr
  | .csrw _ csr => csrFits csr
  | .ldb _ _ space off12 => spaceFits space && offsetFits off12
  | .stb _ _ space off12 => spaceFits space && offsetFits off12
  | .ldw _ _ space off12 => spaceFits space && offsetFits off12
  | .stw _ _ space off12 => spaceFits space && offsetFits off12
  | .nop | .li _ _ | .lui _ _ | .bmov | .bpDiv _ | .bpPack _ | .rseed _ _ _ | .rnext _ _
  | .hash _ _ _ | .spine _ _ _ | .construct | .encode | .decInit | .decStep | .decTerm
  | .decAbort | .decode | .srst => true

end Sys2Proof
end

