-- ==== Sys2Proof/Decode.lean ====
section
/-! DEFINITION. Decoding of command words (30_encoding.md R85 to R97), total on 32-bit words, and
after it the encoder, both written from the formats of R86 to R92 and the table of R95. -/

namespace Sys2Proof

/-- `w[hi:lo]`, the slice of bits hi down to lo as an unsigned number (00_scope.md R11). -/
def slice (w : Word) (hi lo : Nat) : Nat := w.toNat / 2 ^ lo % 2 ^ (hi - lo + 1)

theorem slice_lt (w : Word) (hi lo : Nat) : slice w hi lo < 2 ^ (hi - lo + 1) :=
  Nat.mod_lt _ (Nat.two_pow_pos _)

/-- A 4-bit register field whose lowest bit is `lo` (30_encoding.md R94). -/
def regField (w : Word) (lo : Nat) : Reg :=
  ⟨slice w (lo + 3) lo, by have := slice_lt w (lo + 3) lo; simpa using this⟩

/-- cmd[23:20]: rd, rs or rt of the formats I, R3, R1, M, C, G. -/
def fieldA (w : Word) : Reg := regField w 20

/-- cmd[19:16]: rs1 of the formats R3, M, G. -/
def fieldB (w : Word) : Reg := regField w 16

/-- cmd[15:12]: rs2 of the formats R3, G. -/
def fieldC (w : Word) : Reg := regField w 12

/-- cmd[15:0]: imm16 of format I. -/
def fieldImm16 (w : Word) : BitVec 16 := BitVec.ofNat 16 (slice w 15 0)

/-- cmd[15:12]: the space number of format M. -/
def fieldSpace (w : Word) : Nat := slice w 15 12

/-- cmd[11:0]: off12 of format M, csr of format C. -/
def fieldLow12 (w : Word) : Nat := slice w 11 0

/-- cmd[0]: the context number of format G. -/
def fieldG (w : Word) : CtxNum :=
  ⟨slice w 0 0, by have := slice_lt w 0 0; simpa using this⟩

/-- A row of the opcode map (30_encoding.md R95): its opcode, its mask, and the command its operand
fields make. The match value is `opcode << 24`. -/
structure OpcodeRow where
  opcode : Nat
  mask : Word
  build : Word → Instr

/-- The opcode map, all 24 commands (30_encoding.md R95). -/
def opcodeMap : List OpcodeRow :=
  [ ⟨0x00, 0xFFFFFFFF, fun _ => .nop⟩,
    ⟨0x01, 0xFF0F0000, fun w => .li (fieldA w) (fieldImm16 w)⟩,
    ⟨0x02, 0xFF0F0000, fun w => .lui (fieldA w) (fieldImm16 w)⟩,
    ⟨0x08, 0xFF0FF000, fun w => .csrr (fieldA w) (fieldLow12 w)⟩,
    ⟨0x09, 0xFF0FF000, fun w => .csrw (fieldA w) (fieldLow12 w)⟩,
    ⟨0x10, 0xFF000000, fun w => .ldb (fieldA w) (fieldB w) (fieldSpace w) (fieldLow12 w)⟩,
    ⟨0x11, 0xFF000000, fun w => .stb (fieldA w) (fieldB w) (fieldSpace w) (fieldLow12 w)⟩,
    ⟨0x12, 0xFF000000, fun w => .ldw (fieldA w) (fieldB w) (fieldSpace w) (fieldLow12 w)⟩,
    ⟨0x13, 0xFF000000, fun w => .stw (fieldA w) (fieldB w) (fieldSpace w) (fieldLow12 w)⟩,
    ⟨0x14, 0xFFFFFFFF, fun _ => .bmov⟩,
    ⟨0x20, 0xFF0FFFFF, fun w => .bpDiv (fieldA w)⟩,
    ⟨0x21, 0xFF0FFFFF, fun w => .bpPack (fieldA w)⟩,
    ⟨0x28, 0xFFF00FFE, fun w => .rseed (fieldG w) (fieldB w) (fieldC w)⟩,
    ⟨0x29, 0xFF0FFFFE, fun w => .rnext (fieldA w) (fieldG w)⟩,
    ⟨0x30, 0xFF000FFF, fun w => .hash (fieldA w) (fieldB w) (fieldC w)⟩,
    ⟨0x31, 0xFF000FFF, fun w => .spine (fieldA w) (fieldB w) (fieldC w)⟩,
    ⟨0x38, 0xFFFFFFFF, fun _ => .construct⟩,
    ⟨0x40, 0xFFFFFFFF, fun _ => .encode⟩,
    ⟨0x48, 0xFFFFFFFF, fun _ => .decInit⟩,
    ⟨0x49, 0xFFFFFFFF, fun _ => .decStep⟩,
    ⟨0x4A, 0xFFFFFFFF, fun _ => .decTerm⟩,
    ⟨0x4B, 0xFFFFFFFF, fun _ => .decAbort⟩,
    ⟨0x4C, 0xFFFFFFFF, fun _ => .decode⟩,
    ⟨0xFF, 0xFFFFFFFF, fun _ => .srst⟩ ]

/-- `opcode << 24` (30_encoding.md R93, R95). -/
def matchValue (opcode : Nat) : Word := word (opcode * 2 ^ 24)

/-- Decoding (30_encoding.md R93): the opcode alone selects the row; the word is that row's command if
and only if `cmd & mask = opcode << 24`; every other word is illegal (`none`). -/
def decode (w : Word) : Option Instr :=
  match opcodeMap.find? (fun r => r.opcode == slice w 31 24) with
  | none => none
  | some r => if w &&& r.mask = matchValue r.opcode then some (r.build w) else none

/-- Format Z (30_encoding.md R86): every operand bit is zero. -/
def wordZ (opcode : Nat) : Word := word (opcode * 2 ^ 24)

/-- Formats I and C (30_encoding.md R87, R91): a register in 23:20 and a low field. -/
def wordAL (opcode : Nat) (a : Reg) (low : Nat) : Word :=
  word (opcode * 2 ^ 24 + a.val * 2 ^ 20 + low)

/-- Format M (30_encoding.md R90). -/
def wordM (opcode : Nat) (rt rs1 : Reg) (space off12 : Nat) : Word :=
  word (opcode * 2 ^ 24 + rt.val * 2 ^ 20 + rs1.val * 2 ^ 16 + space * 2 ^ 12 + off12)

/-- Formats R3, R1 and G (30_encoding.md R88, R89, R92): three register fields and bit 0. -/
def wordR (opcode : Nat) (a b c : Reg) (g : CtxNum) : Word :=
  word (opcode * 2 ^ 24 + a.val * 2 ^ 20 + b.val * 2 ^ 16 + c.val * 2 ^ 12 + g.val)

/-- The word of a well-formed command (30_encoding.md R86 to R95). -/
def encode : Instr → Word
  | .nop => wordZ 0x00
  | .li rd imm16 => wordAL 0x01 rd imm16.toNat
  | .lui rd imm16 => wordAL 0x02 rd imm16.toNat
  | .csrr rd csr => wordAL 0x08 rd csr
  | .csrw rs csr => wordAL 0x09 rs csr
  | .ldb rd rs1 space off12 => wordM 0x10 rd rs1 space off12
  | .stb rs2 rs1 space off12 => wordM 0x11 rs2 rs1 space off12
  | .ldw rd rs1 space off12 => wordM 0x12 rd rs1 space off12
  | .stw rs2 rs1 space off12 => wordM 0x13 rs2 rs1 space off12
  | .bmov => wordZ 0x14
  | .bpDiv rs => wordR 0x20 rs 0 0 0
  | .bpPack rs => wordR 0x21 rs 0 0 0
  | .rseed g rs1 rs2 => wordR 0x28 0 rs1 rs2 g
  | .rnext rd g => wordR 0x29 rd 0 0 g
  | .hash rd rs1 rs2 => wordR 0x30 rd rs1 rs2 0
  | .spine rd rs1 rs2 => wordR 0x31 rd rs1 rs2 0
  | .construct => wordZ 0x38
  | .encode => wordZ 0x40
  | .decInit => wordZ 0x48
  | .decStep => wordZ 0x49
  | .decTerm => wordZ 0x4A
  | .decAbort => wordZ 0x4B
  | .decode => wordZ 0x4C
  | .srst => wordZ 0xFF

/-- The command the decoder reads from a table word: `w` is one 32-bit command word whose bits above
`nbits` are zero. There is no byte order to lay out (20_memory.md R64, R80). -/
def decodeTableWord (nbits w : Nat) : Option Instr := decode (word (w % 2 ^ nbits))

end Sys2Proof
end

