-- ==== Sys2Proof/Machine/State.lean ====
section
/-! DEFINITION. The machine's state as plain data: the tuple of 10_state.md R20, the parameters of R48,
and the host's events not yet taken. The faults and refusals, and the state after hardware reset. -/

namespace Sys2Proof.Machine

/-- PHASE (10_state.md R27): three values; the fourth code never occurs. -/
inductive Phase where
  /-- 0: no decode session is open -/
  | idle
  /-- 1: a decode session is open -/
  | dec
  /-- 2: an error was raised; every command but SRST is ignored -/
  | halt
  deriving DecidableEq, Repr

/-- The seven configuration CSRs (10_state.md R25). -/
structure Conf where
  k : Word
  v : Word
  c : Word
  l : Word
  b : Word
  d : Word
  seed : Word
  deriving DecidableEq, Repr

/-- The error record ERR, EINFO, ECMD (10_state.md R29). -/
structure ErrorRecord where
  err : Word
  einfo : Word
  ecmd : Word
  deriving DecidableEq, Repr

/-- The session CSRs (10_state.md R32, R33). -/
structure Session where
  rxlen : Word
  nchunk : Word
  nsteps : Word
  step : Word
  beamlen : Word
  arenalen : Word
  deriving DecidableEq, Repr

/-- One RNG context (10_state.md R40). -/
structure RngContext where
  valid : Bool
  c : BitVec 5
  state : RngWord
  deriving DecidableEq, Repr

/-- A node record of ARENA (10_state.md R44). Word 7 is reserved, reads 0 and is not stored (log 12). -/
structure Node where
  msg : Word
  spine : Word
  cost : CostWord
  parent : Word
  cbase : Word
  depth : Word
  deriving DecidableEq, Repr

/-- Cells of one space, as (index, cell) pairs. In the canonical form (`Canonical`,
Machine/Memory.lean) the indices rise strictly; an index that is not listed has not been written since
the last hardware reset and reads as the free launch content (log 4). -/
abbrev CellMap (α : Type) := List (Nat × α)

/-- The six memories (10_state.md R41 to R46, 20_memory.md R60). -/
structure Memory where
  /-- IBUF, bytes -/
  ibuf : List Host.Cell
  /-- OBUF, bytes -/
  obuf : List Host.Cell
  /-- CHUNK, 32-bit cells -/
  chunk : CellMap Word
  /-- RX, 32-bit cells -/
  rx : CellMap Word
  /-- ARENA, node records by handle -/
  arena : CellMap Node
  /-- BEAM, 32-bit cells holding handles -/
  beam : CellMap Word
  deriving DecidableEq, Repr

/-- What the host sends the engine (00_scope.md R2, R5; 70_reset_and_hazards.md R230). -/
inductive HostEvent where
  /-- issue one command word -/
  | command (w : Word)
  /-- assert hardware reset -/
  | hardwareReset
  deriving DecidableEq, Repr

/-- The state of one SPINAL-CORE instance (10_state.md R20), with the parameters of R48 (`params`) and
the model's own fields `launch` and `pending`. -/
structure State where
  /-- X0..X15 (R21) -/
  x : Vector Word 16
  /-- K, V, C, L, B, D, SEED (R25) -/
  conf : Conf
  /-- READY (R28) -/
  ready : Bool
  /-- PHASE (R27) -/
  phase : Phase
  /-- ERR, EINFO, ECMD (R29) -/
  error : ErrorRecord
  /-- ILEN (R31) -/
  ilen : Word
  /-- OLEN (R31) -/
  olen : Word
  /-- CLEN (R31) -/
  clen : Word
  /-- PADCNT (R30) -/
  padcnt : Word
  /-- RXLEN, NCHUNK, NSTEPS, STEP, BEAMLEN, ARENALEN (R32, R33) -/
  sess : Session
  /-- BCOST (R34) -/
  bcost : CostWord
  /-- G0, G1 (R40) -/
  g : Vector RngContext 2
  /-- IBUF, OBUF, CHUNK, RX, ARENA, BEAM (R41 to R46) -/
  mem : Memory
  /-- the build's parameters (R48); no command changes them (log 2) -/
  params : Config.Params
  /-- the model's own: how many hardware resets have happened, the argument of the free launch
  contents (log 4) -/
  launch : Nat
  /-- the model's own: the host's events not yet taken, the next one first (log 1) -/
  pending : List HostEvent
  deriving DecidableEq, Repr

/-- The ways a step could stop with a fault: none. Every error of 60_exceptions.md R206 is a next state
in PHASE HALT, and every command word in every state has exactly one result
(93_implementation_defined.md, introduction; log 15). -/
inductive Fault where
  deriving DecidableEq, Repr

/-- The ways a step could be refused. -/
inductive Refusal where
  /-- Raised only by an arm of exec whose command has no meaning yet; no arm raises it. Safe: the
  machine stops where the hardware goes on. -/
  | notModelled (mnemonic : String)
  deriving DecidableEq, Repr

/-- The configuration CSRs after reset (10_state.md R50). -/
def Conf.reset : Conf := { k := 0, v := 0, c := 0, l := 0, b := 0, d := 0, seed := 0 }

/-- No error recorded (10_state.md R29, R50). -/
def ErrorRecord.none : ErrorRecord := { err := 0, einfo := 0, ecmd := 0 }

/-- The session CSRs outside a session: all 0 (10_state.md R32, R33). -/
def Session.closed : Session :=
  { rxlen := 0, nchunk := 0, nsteps := 0, step := 0, beamlen := 0, arenalen := 0 }

/-- An RNG context that has not been seeded since reset (10_state.md R40, R50). -/
def RngContext.unseeded : RngContext := { valid := false, c := 0, state := 0 }

/-- Memories of which no cell has been written since hardware reset (10_state.md R50). -/
def Memory.unwritten : Memory :=
  { ibuf := [], obuf := [], chunk := [], rx := [], arena := [], beam := [] }

/-- The state right after hardware reset (10_state.md R50, 70_reset_and_hazards.md R230), for the build
with the default parameters (log 2), before the host has issued anything (log 1). -/
def State.reset : State :=
  { x := Vector.replicate 16 0
    conf := Conf.reset
    ready := false
    phase := .idle
    error := ErrorRecord.none
    ilen := 0
    olen := 0
    clen := 0
    padcnt := 0
    sess := Session.closed
    bcost := 0
    g := Vector.replicate 2 RngContext.unseeded
    mem := Memory.unwritten
    params := Config.defaultParams
    launch := 0
    pending := [] }

end Sys2Proof.Machine
end

