-- ==== Sys2Proof/Machine/Flags.lean ====
section
/-! DEFINITION. The status bits. There are no condition codes and no command computes a flag
(10_state.md R23); the only status bits are READY and PHASE, shown in the view STATUS (R26). -/

namespace Sys2Proof.Machine

/-- The 2-bit code of PHASE (10_state.md R27). -/
def phaseCode : Phase → Nat
  | .idle => 0
  | .dec => 1
  | .halt => 2

/-- STATUS = zext_32(PHASE ++ READY): bit 0 READY, bits 2:1 PHASE, bits 31:3 zero (10_state.md R26). -/
def statusWord (s : State) : Word := word (2 * phaseCode s.phase + s.ready.toNat)

end Sys2Proof.Machine
end

