-- ==== Sys2Proof/Machine/Memory.lean ====
section
/-! DEFINITION. The cells of a space as plain data: reading, writing and writing a run of cells
(00_scope.md R12 `MemRead`, `MemWrite`), and the canonical form every write keeps. -/

namespace Sys2Proof.Machine

/-- The cell listed at an index, or none when nothing has written it since hardware reset. -/
def cellAt? {α : Type} : CellMap α → Nat → Option α
  | [], _ => none
  | (b, u) :: m, a => if a = b then some u else cellAt? m a

/-- `MemWrite(S:a, 1, v)` on the cells of one space. -/
def putCell {α : Type} : CellMap α → Nat → α → CellMap α
  | [], a, v => [(a, v)]
  | (b, u) :: m, a, v =>
    if a < b then (a, v) :: (b, u) :: m
    else if a = b then (a, v) :: m
    else (b, u) :: putCell m a v

/-- Writes a run of cells at a, a + 1, ... in that order. -/
def putCells {α : Type} : CellMap α → Nat → List α → CellMap α
  | m, _, [] => m
  | m, a, v :: vs => putCells (putCell m a v) (a + 1) vs

/-- The canonical form: indices strictly rising (so no index is listed twice). -/
abbrev Canonical {α : Type} (m : CellMap α) : Prop := m.Pairwise (fun p q => p.1 < q.1)

/-- All six memories are in canonical form. -/
abbrev Memory.wf (m : Memory) : Prop :=
  Canonical m.ibuf ∧ Canonical m.obuf ∧ Canonical m.chunk ∧ Canonical m.rx ∧
  Canonical m.arena ∧ Canonical m.beam

/-- Every listed index is below `bound`. -/
abbrev Bounded {α : Type} (m : CellMap α) (bound : Nat) : Prop := ∀ p ∈ m, p.1 < bound

end Sys2Proof.Machine
end

