-- ==== Sys2Proof/Machine/Ops.lean ====
section
/-! DEFINITION. The named operations over registers, contexts and cells (00_scope.md R12), error entry
(60_exceptions.md R210), hardware reset and the host's observation port. -/

namespace Sys2Proof.Machine

/-! ## Registers and contexts -/

/-- `X[i]` (00_scope.md R12; none is hardwired, 10_state.md R21). -/
def State.getX (s : State) (i : Reg) : Word := s.x.get i

/-- `X[i] <- v`. -/
def State.setX (s : State) (i : Reg) (v : Word) : State := { s with x := s.x.set i.val v i.isLt }

/-- `G[g]`. -/
def State.getG (s : State) (g : CtxNum) : RngContext := s.g.get g

/-- `G[g] <- ctx`. -/
def State.setG (s : State) (g : CtxNum) (ctx : RngContext) : State :=
  { s with g := s.g.set g.val ctx g.isLt }

/-! ## Cells. A cell not written since hardware reset reads as the free launch content
(10_state.md R50; log 4). -/

/-- `MemRead(IBUF:a, 1)`. -/
def State.ibufByte (s : State) (a : Nat) : Byte :=
  (cellAt? s.mem.ibuf a).getD (Config.launchByte s.launch 0 a)

/-- `MemRead(OBUF:a, 1)`. -/
def State.obufByte (s : State) (a : Nat) : Byte :=
  (cellAt? s.mem.obuf a).getD (Config.launchByte s.launch 1 a)

/-- `MemRead(CHUNK:a, 1)`. -/
def State.chunkWord (s : State) (a : Nat) : Word :=
  (cellAt? s.mem.chunk a).getD (Config.launchWord s.launch 2 a)

/-- `MemRead(RX:a, 1)`. -/
def State.rxWord (s : State) (a : Nat) : Word :=
  (cellAt? s.mem.rx a).getD (Config.launchWord s.launch 3 a)

/-- The node record nothing has written: its words are the free launch contents of its cells. -/
def launchNode (launch h : Nat) : Node :=
  let w := fun i => Config.launchWord launch 4 (Config.nodeWords * h + i)
  { msg := w 0, spine := w 1, cost := w 3 ++ w 2, parent := w 4, cbase := w 5, depth := w 6 }

/-- `ARENA[h]`: the node with handle h. -/
def State.node (s : State) (h : Nat) : Node :=
  (cellAt? s.mem.arena h).getD (launchNode s.launch h)

/-- `MemRead(BEAM:a, 1)`. -/
def State.beamWord (s : State) (a : Nat) : Word :=
  (cellAt? s.mem.beam a).getD (Config.launchWord s.launch 5 a)

/-- Word w of a node record (10_state.md R44): the ARENA read window; word 7 reads 0. -/
def Node.word (n : Node) : Nat → Word
  | 0 => n.msg
  | 1 => n.spine
  | 2 => n.cost.setWidth 32
  | 3 => (n.cost >>> 32).setWidth 32
  | 4 => n.parent
  | 5 => n.cbase
  | 6 => n.depth
  | _ => 0

/-- `MemRead(ARENA:a, 1)`: word `a mod 8` of node `a div 8` (20_memory.md R66). -/
def State.arenaWord (s : State) (a : Nat) : Word :=
  (s.node (a / Config.nodeWords)).word (a % Config.nodeWords)

/-- The byte sequence IBUF[0..n). -/
def State.ibufBytes (s : State) (n : Nat) : List Byte := (List.range n).map s.ibufByte

/-- The byte sequence OBUF[0..n). -/
def State.obufBytes (s : State) (n : Nat) : List Byte := (List.range n).map s.obufByte

/-- Writes a run of bytes into IBUF from index a. -/
def State.putIbuf (s : State) (a : Nat) (bs : List Byte) : State :=
  { s with mem := { s.mem with ibuf := putCells s.mem.ibuf a bs } }

/-- Writes a run of bytes into OBUF from index a. -/
def State.putObuf (s : State) (a : Nat) (bs : List Byte) : State :=
  { s with mem := { s.mem with obuf := putCells s.mem.obuf a bs } }

/-- Writes a run of cells into CHUNK from index a. -/
def State.putChunk (s : State) (a : Nat) (ws : List Word) : State :=
  { s with mem := { s.mem with chunk := putCells s.mem.chunk a ws } }

/-- Writes a run of cells into RX from index a. -/
def State.putRx (s : State) (a : Nat) (ws : List Word) : State :=
  { s with mem := { s.mem with rx := putCells s.mem.rx a ws } }

/-- Writes a run of node records into ARENA from handle h. -/
def State.putNodes (s : State) (h : Nat) (ns : List Node) : State :=
  { s with mem := { s.mem with arena := putCells s.mem.arena h ns } }

/-- Writes a run of cells into BEAM from index a. -/
def State.putBeam (s : State) (a : Nat) (ws : List Word) : State :=
  { s with mem := { s.mem with beam := putCells s.mem.beam a ws } }

/-! ## Error entry (60_exceptions.md R205 to R210) -/

/-- The causes of 60_exceptions.md R206, each with what its info word is made from. -/
inductive Err where
  /-- E_ILLCMD: the word is illegal -/
  | illCmd
  /-- E_CSR: unimplemented address, or a write to a read-only CSR -/
  | csr (addr : Nat)
  /-- E_CSRVAL: ILEN or CLEN above its capacity -/
  | csrVal (v : Nat)
  /-- E_ADDR: the access is not admitted -/
  | addr (ea : Nat)
  /-- E_SEQ: issued in a state in which it has no meaning; STATUS as the command began -/
  | seq (status : Nat)
  /-- E_WIDTH: the width refused -/
  | width (w : Nat)
  /-- E_VALUE: index of the first bad entry -/
  | value (j : Nat)
  /-- E_CFG_K -/
  | cfgK (k : Nat)
  /-- E_CFG_V -/
  | cfgV (v : Nat)
  /-- E_CFG_C -/
  | cfgC (c : Nat)
  /-- E_CFG_L -/
  | cfgL (l : Nat)
  /-- E_CFG_B -/
  | cfgB (b : Nat)
  /-- E_CFG_D -/
  | cfgD (d : Nat)
  /-- E_CFG_DRANGE: the number of chunks of the stream -/
  | cfgDRange (n : Nat)
  /-- E_ALIGN_IN: ILEN -/
  | alignIn (ilen : Nat)
  /-- E_ALIGN_OUT: the count of units -/
  | alignOut (count : Nat)
  /-- E_CAPACITY: the resource number of 60_exceptions.md R207 -/
  | capacity (resource : Nat)
  deriving DecidableEq, Repr

/-- The code written to ERR (60_exceptions.md R206). -/
def Err.code : Err → Nat
  | .illCmd => 0x01
  | .csr _ => 0x02
  | .csrVal _ => 0x03
  | .addr _ => 0x04
  | .seq _ => 0x05
  | .width _ => 0x06
  | .value _ => 0x07
  | .cfgK _ => 0x10
  | .cfgV _ => 0x11
  | .cfgC _ => 0x12
  | .cfgL _ => 0x13
  | .cfgB _ => 0x14
  | .cfgD _ => 0x15
  | .cfgDRange _ => 0x16
  | .alignIn _ => 0x20
  | .alignOut _ => 0x21
  | .capacity _ => 0x30

/-- The info of the raise, before its reduction mod 2^32 (60_exceptions.md R206). -/
def Err.info : Err → Nat
  | .illCmd => 0
  | .csr a => a
  | .csrVal v => v
  | .addr ea => ea
  | .seq status => status
  | .width w => w
  | .value j => j
  | .cfgK k => k
  | .cfgV v => v
  | .cfgC c => c
  | .cfgL l => l
  | .cfgB b => b
  | .cfgD d => d
  | .cfgDRange n => n
  | .alignIn ilen => ilen
  | .alignOut count => count
  | .capacity resource => resource

/-- Error entry, `raise E(info)` in the command whose word is `cmd` (60_exceptions.md R210): the record
and PHASE are written and nothing else changes. There is no return from it (R215); SRST and hardware
reset are the exits from HALT (R211). -/
def errorEntry (e : Err) (cmd : Word) (s : State) : State :=
  { s with
    error := { err := word e.code, einfo := word e.info, ecmd := cmd }
    phase := .halt }

/-- The `E_SEQ` of a command that finds the engine in the wrong state: its info is STATUS before. -/
def seqErr (s : State) : Err := .seq (statusWord s).toNat

/-- Ends a command: its new state, or error entry from the state in which it began, so that a command
that raises keeps no other effect (60_exceptions.md R210). ECMD is the command's word (log 7). -/
def commit (i : Instr) (s : State) : Except Err State → Host.Outcome State Fault Refusal
  | .ok t => .next t
  | .error e => .next (errorEntry e (encode i) s)

/-! ## The session, hardware reset -/

/-- Ends the session: the six session lengths go to 0 and PHASE to IDLE (45_decoder.md R185, R186). -/
def closeSession (s : State) : State := { s with sess := Session.closed, phase := .idle }

/-- Hardware reset (70_reset_and_hazards.md R230): every item of 10_state.md R20 at its reset value, the
cells of all six memories unspecified anew (log 5). -/
def hardwareReset (s : State) : State :=
  { State.reset with params := s.params, launch := s.launch + 1, pending := s.pending }

end Sys2Proof.Machine
end

