-- ==== Sys2Proof/Machine/Operands.lean ====
section
/-! DEFINITION. Operand forms: the CSR map (10_state.md R24), effective addresses and the admission of a
memory access (20_memory.md R60 to R63, 40_scalar_csr_memory.md R110), and the observation port
(10_state.md R57). -/

namespace Sys2Proof.Machine

/-! ## Control and status registers -/

/-- The CSRs of 10_state.md R24. -/
inductive Csr where
  | K | V | C | L | B | D | SEED
  | STATUS | ERR | EINFO | ECMD
  | ILEN | OLEN | CLEN | PADCNT
  | RXLEN | NCHUNK | NSTEPS | STEP | BEAMLEN | ARENALEN | BCOSTL | BCOSTH
  | IMPID
  deriving DecidableEq, Repr

/-- Every CSR, in the order of the map. -/
def allCsrs : List Csr :=
  [.K, .V, .C, .L, .B, .D, .SEED, .STATUS, .ERR, .EINFO, .ECMD, .ILEN, .OLEN, .CLEN, .PADCNT,
   .RXLEN, .NCHUNK, .NSTEPS, .STEP, .BEAMLEN, .ARENALEN, .BCOSTL, .BCOSTH, .IMPID]

/-- The CSR address map (10_state.md R24). -/
def csrAddr : Csr → Nat
  | .K => 0x000
  | .V => 0x001
  | .C => 0x002
  | .L => 0x003
  | .B => 0x004
  | .D => 0x005
  | .SEED => 0x006
  | .STATUS => 0x010
  | .ERR => 0x011
  | .EINFO => 0x012
  | .ECMD => 0x013
  | .ILEN => 0x020
  | .OLEN => 0x021
  | .CLEN => 0x022
  | .PADCNT => 0x023
  | .RXLEN => 0x030
  | .NCHUNK => 0x031
  | .NSTEPS => 0x032
  | .STEP => 0x033
  | .BEAMLEN => 0x034
  | .ARENALEN => 0x035
  | .BCOSTL => 0x036
  | .BCOSTH => 0x037
  | .IMPID => 0xF00

/-- The CSR at an address, or none where the address is unimplemented (10_state.md R24). -/
def csrOfAddr (a : Nat) : Option Csr := allCsrs.find? (fun c => csrAddr c == a)

/-- K, V, C, L, B, D, SEED (10_state.md R25). -/
def isConfigCsr : Csr → Bool
  | .K | .V | .C | .L | .B | .D | .SEED => true
  | _ => false

/-- Access RW in 10_state.md R24: the seven configuration CSRs, ILEN and CLEN; every other is RO. -/
def isWritableCsr (c : Csr) : Bool := isConfigCsr c || c == .ILEN || c == .CLEN

/-- `CSR[c]`: what a read of the CSR gives (10_state.md R24); reading has no side effect. -/
def readCsr (s : State) : Csr → Word
  | .K => s.conf.k
  | .V => s.conf.v
  | .C => s.conf.c
  | .L => s.conf.l
  | .B => s.conf.b
  | .D => s.conf.d
  | .SEED => s.conf.seed
  | .STATUS => statusWord s
  | .ERR => s.error.err
  | .EINFO => s.error.einfo
  | .ECMD => s.error.ecmd
  | .ILEN => s.ilen
  | .OLEN => s.olen
  | .CLEN => s.clen
  | .PADCNT => s.padcnt
  | .RXLEN => s.sess.rxlen
  | .NCHUNK => s.sess.nchunk
  | .NSTEPS => s.sess.nsteps
  | .STEP => s.sess.step
  | .BEAMLEN => s.sess.beamlen
  | .ARENALEN => s.sess.arenalen
  | .BCOSTL => s.bcost.setWidth 32
  | .BCOSTH => (s.bcost >>> 32).setWidth 32
  | .IMPID => Config.impid

/-- The configuration CSRs with one of them written (10_state.md R25). -/
def writeConf (conf : Conf) (c : Csr) (v : Word) : Conf :=
  match c with
  | .K => { conf with k := v }
  | .V => { conf with v := v }
  | .C => { conf with c := v }
  | .L => { conf with l := v }
  | .B => { conf with b := v }
  | .D => { conf with d := v }
  | .SEED => { conf with seed := v }
  | _ => conf

/-- A write of a writable CSR by CSRW: a configuration CSR also clears READY (10_state.md R28, R31). -/
def writeCsr (s : State) (c : Csr) (v : Word) : State :=
  match c with
  | .ILEN => { s with ilen := v }
  | .CLEN => { s with clen := v }
  | _ => if isConfigCsr c then { s with conf := writeConf s.conf c v, ready := false } else s

/-! ## The observation port -/

/-- What the host can read between any two commands (10_state.md R57): every X register and every CSR,
in every phase, and nothing else. -/
structure Observation where
  x : Vector Word 16
  csrs : List (Csr × Word)
  deriving DecidableEq, Repr

/-- The observation port (10_state.md R57). -/
def observe (s : State) : Observation :=
  { x := s.x, csrs := allCsrs.map fun c => (c, readCsr s c) }

/-! ## Memory operands -/

/-- The address spaces of 20_memory.md R60. -/
inductive Space where
  | ibuf | obuf | chunk | rx | arena | beam
  deriving DecidableEq, Repr

/-- The space a space number names; 6..15 are reserved (20_memory.md R60). -/
def spaceOfNum : Nat → Option Space
  | 0 => some .ibuf
  | 1 => some .obuf
  | 2 => some .chunk
  | 3 => some .rx
  | 4 => some .arena
  | 5 => some .beam
  | _ => none

/-- Whether the cell of the space is a byte (20_memory.md R60, column Cell). -/
def isByteSpace : Space → Bool
  | .ibuf | .obuf => true
  | .chunk | .rx | .arena | .beam => false

/-- The valid indices for a load are those below this bound (20_memory.md R60, R63).
DESIGN CHOICE (log 17): 40_scalar_csr_memory.md R110 adds that an EA of 2^32 or more is never valid, but
the bound 8 * ARENALEN of R60 and R113 passes 2^32 once ARENALEN is above 2^29; the model follows R60. -/
def loadBound (s : State) : Space → Nat
  | .ibuf => s.params.bufCap
  | .obuf => s.olen.toNat
  | .chunk => s.params.chunkCap
  | .rx => s.sess.rxlen.toNat
  | .arena => Config.nodeWords * s.sess.arenalen.toNat
  | .beam => s.sess.beamlen.toNat

/-- The valid indices for a store are those below this bound; a read-only space has none
(20_memory.md R60). -/
def storeBound (s : State) : Space → Nat
  | .ibuf => s.params.bufCap
  | .chunk => s.params.chunkCap
  | .obuf | .rx | .arena | .beam => 0

/-- The kinds of access of 40_scalar_csr_memory.md R110. -/
inductive AccessKind where
  | loadB | storeB | loadW | storeW
  deriving DecidableEq, Repr

/-- A byte command. -/
def AccessKind.isByte : AccessKind → Bool
  | .loadB | .storeB => true
  | .loadW | .storeW => false

/-- The bound of the kind's direction. -/
def accessBound (s : State) (kind : AccessKind) (sp : Space) : Nat :=
  match kind with
  | .loadB | .loadW => loadBound s sp
  | .storeB | .storeW => storeBound s sp

/-- `memcheck(kind, space, EA)` (40_scalar_csr_memory.md R110): the space when the access is admitted,
else `E_ADDR(EA)`. -/
def memcheck (s : State) (kind : AccessKind) (space ea : Nat) : Except Err Space :=
  match spaceOfNum space with
  | none => .error (.addr ea)
  | some sp =>
    if kind.isByte = isByteSpace sp ∧ ea < accessBound s kind sp then .ok sp
    else .error (.addr ea)

/-- `EA = X[rs1] + zext(off12)` on naturals, with no wrap (20_memory.md R61). -/
def effectiveAddress (s : State) (rs1 : Reg) (off12 : Nat) : Nat := (s.getX rs1).toNat + off12

/-- `MemRead(space:a, 1)`, zero-extended to 32 bits (00_scope.md R12, 20_memory.md R68). -/
def memRead (s : State) (sp : Space) (a : Nat) : Word :=
  match sp with
  | .ibuf => (s.ibufByte a).setWidth 32
  | .obuf => (s.obufByte a).setWidth 32
  | .chunk => s.chunkWord a
  | .rx => s.rxWord a
  | .arena => s.arenaWord a
  | .beam => s.beamWord a

end Sys2Proof.Machine
end

