-- ==== Sys2Proof/Machine/BitPacker.lean ====
section
/-! DEFINITION. BitPacker: the functions `divide` and `pack` and the commands BP.DIV and BP.PACK
(41_bitpacker.md R120 to R123). -/

namespace Sys2Proof.Machine

/-- The number a list of bits spells, the first bit the most significant. -/
def bitsToNat (bs : List Bool) : Nat := bs.foldl (fun acc b => 2 * acc + b.toNat) 0

/-- Stream bit t of a byte buffer: bit `7 - (t mod 8)` of byte `t div 8` (41_bitpacker.md R120). -/
def streamBit (bytes : List Byte) (t : Nat) : Bool :=
  (bytes.getD (t / 8) 0).getLsbD (7 - t % 8)

/-- `divide(bytes, w)`: the MSB-first bitstream cut into integers of w bits (41_bitpacker.md R120),
for w in 1..32 that divides the number of bits.
DESIGN CHOICE (log 9): for other arguments, where R120 leaves it undefined, the bits left over are dropped,
and w = 0 gives no integer; BP.DIV checks its arguments (R122). -/
def divide (bytes : List Byte) (w : Nat) : List Nat :=
  (List.range (8 * bytes.length / w)).map fun j =>
    bitsToNat ((List.range w).map fun i => streamBit bytes (j * w + i))

/-- Stream bit t of an integer sequence: bit `w - 1 - (t mod w)` of entry `t div w`
(41_bitpacker.md R121). -/
def packedBit (ints : List Nat) (w t : Nat) : Bool :=
  (ints.getD (t / w) 0).testBit (w - 1 - t % w)

/-- `pack(ints, w)`: the bytes of the MSB-first bitstream of the w-bit integers (41_bitpacker.md R121),
for w in 1..32, entries below 2^w and a whole number of bytes.
DESIGN CHOICE (log 9): for other arguments, where R121 leaves it undefined, the bits left over are dropped
and each entry is cut to its low w bits; BP.PACK checks its arguments (R123). -/
def pack (ints : List Nat) (w : Nat) : List Byte :=
  (List.range (ints.length * w / 8)).map fun i =>
    BitVec.ofNat 8 (bitsToNat ((List.range 8).map fun b => packedBit ints w (8 * i + b)))

/-- BP.DIV (41_bitpacker.md R122): the checks in their order, then `divide` of IBUF into CHUNK. -/
def execBpDiv (rs : Reg) (s : State) : Host.Outcome State Fault Refusal :=
  commit (.bpDiv rs) s <|
    let w := (s.getX rs).toNat
    let ilen := s.ilen.toNat
    let cnt := 8 * ilen / w
    if w < 1 ∨ w > 32 then .error (.width w)
    else if 8 * ilen % w ≠ 0 then .error (.alignIn ilen)
    else if cnt > s.params.chunkCap then .error (.capacity 2)
    else
      .ok { s.putChunk 0 ((divide (s.ibufBytes ilen) w).map word) with clen := word cnt }

/-- The integers CHUNK[0..n). -/
def chunkInts (s : State) (n : Nat) : List Nat := (List.range n).map fun j => (s.chunkWord j).toNat

/-- BP.PACK (41_bitpacker.md R123): the checks in their order, then `pack` of CHUNK into OBUF. -/
def execBpPack (rs : Reg) (s : State) : Host.Outcome State Fault Refusal :=
  commit (.bpPack rs) s <|
    let w := (s.getX rs).toNat
    let clen := s.clen.toNat
    let olen := clen * w / 8
    if w < 1 ∨ w > 32 then .error (.width w)
    else if clen * w % 8 ≠ 0 then .error (.alignOut clen)
    else if olen > s.params.bufCap then .error (.capacity 1)
    else
      match (List.range clen).find? fun j => decide ((s.chunkWord j).toNat ≥ 2 ^ w) with
      | some j => .error (.value j)
      | none => .ok { s.putObuf 0 (pack (chunkInts s clen) w) with olen := word olen }

end Sys2Proof.Machine
end

