-- ==== Sys2Proof/Machine/Rng.lean ====
section
/-! DEFINITION. DeterministicRNG: the generator and the commands RSEED and RNEXT
(42_rng.md R130 to R139). -/

namespace Sys2Proof.Machine

/-- RNG_MULT (42_rng.md R131). -/
def rngMult : Nat := 0x5DEECE66D

/-- RNG_ADD (42_rng.md R131). -/
def rngAdd : Nat := 0xB

/-- `rng_init(seed)`: the zero-extended seed xor RNG_MULT (42_rng.md R132). -/
def rngInit (seed : Word) : RngWord := seed.setWidth 48 ^^^ BitVec.ofNat 48 rngMult

/-- `rng_step(s) = (s * RNG_MULT + RNG_ADD) mod 2^48`, the product on naturals (42_rng.md R133). -/
def rngStep (s : RngWord) : RngWord := BitVec.ofNat 48 (s.toNat * rngMult + rngAdd)

/-- `rng_out(s, c) = s >> (48 - c)` for c up to 31: the top c bits of the state (42_rng.md R134). For c of
32 or more, to which R136 forbids a scope, the value is free (log 18). -/
def rngOut (s : RngWord) (c : Nat) : Nat :=
  if c ≤ 31 then s.toNat >>> (48 - c) else Config.rngOutWide s c

/-- The state `s_p` of the generator built from a seed (42_rng.md R135). -/
def rngState (seed : Word) : Nat → RngWord
  | 0 => rngInit seed
  | p + 1 => rngStep (rngState seed p)

/-- `draw(seed, c, p)`: the p-th output, from 0, of the generator built from (seed, c)
(42_rng.md R135). -/
def draw (seed : Word) (c p : Nat) : Nat := rngOut (rngState seed (p + 1)) c

/-- RSEED (42_rng.md R137): constructs the generator of context g; `E_WIDTH` for c of 32 or more. -/
def execRseed (g : CtxNum) (rs1 rs2 : Reg) (s : State) : Host.Outcome State Fault Refusal :=
  commit (.rseed g rs1 rs2) s <|
    let c := (s.getX rs2).toNat
    if c ≥ 32 then .error (.width c)
    else .ok (s.setG g { valid := true, c := BitVec.ofNat 5 c, state := rngInit (s.getX rs1) })

/-- RNEXT (42_rng.md R138): `next()` on context g; `E_SEQ` on a context never seeded. -/
def execRnext (rd : Reg) (g : CtxNum) (s : State) : Host.Outcome State Fault Refusal :=
  commit (.rnext rd g) s <|
    let ctx := s.getG g
    let st := rngStep ctx.state
    if ctx.valid = false then .error (seqErr s)
    else .ok ((s.setG g { ctx with state := st }).setX rd (word (rngOut st ctx.c.toNat)))

end Sys2Proof.Machine
end

