-- ==== Sys2Proof/Machine/SpineChain.lean ====
section
/-! DEFINITION. SpineChain: the hash of two integers, the spine step and the commands HASH and SPINE
(43_spinechain.md R145 to R150). -/

namespace Sys2Proof.Machine

/-- `le32(x)`: four bytes, least significant first (43_spinechain.md R145). -/
def le32 (x : Word) : List Byte :=
  [x.setWidth 8, (x >>> 8).setWidth 8, (x >>> 16).setWidth 8, (x >>> 24).setWidth 8]

/-- One pass of the loop of the one-at-a-time hash (43_spinechain.md R146). -/
def oneAtATimeMix (h : Word) (b : Byte) : Word :=
  let h1 := h + b.setWidth 32
  let h2 := h1 + (h1 <<< 10)
  h2 ^^^ (h2 >>> 6)

/-- The end of the one-at-a-time hash (43_spinechain.md R146). -/
def oneAtATimeFinish (h : Word) : Word :=
  let h1 := h + (h <<< 3)
  let h2 := h1 ^^^ (h1 >>> 11)
  h2 + (h2 <<< 15)

/-- The one-at-a-time hash (43_spinechain.md R146). -/
def oneAtATime (bs : List Byte) : Word := oneAtATimeFinish (bs.foldl oneAtATimeMix 0)

/-- HASH32, a parameter of the build (00_scope.md R9, 43_spinechain.md R146; log 3). -/
def hash32 : Config.HashPrimitive → List Byte → Word
  | .oneAtATime, bs => oneAtATime bs
  | .custom id, bs => Config.customHash32 id bs

/-- `H(a, b) = HASH32(le32(a) ++ le32(b))` (43_spinechain.md R147). -/
def hashPair (hp : Config.HashPrimitive) (a b : Word) : Word := hash32 hp (le32 a ++ le32 b)

/-- `mask(n) = 2^n - 1` for n up to 32 (00_scope.md R11).
DESIGN CHOICE (log 9): for n above 32, where R11 gives no mask, all 32 bits are 1. -/
def maskWord (n : Nat) : Word := word (2 ^ n - 1)

/-- `spine_next(prev, m, v) = H(prev, m) & mask(v)` (43_spinechain.md R148), for v in 1..32.
DESIGN CHOICE (log 9): for other v, where R148 gives no value, the same formula; only a state with READY = 1
and an illegal V, which no run reaches, comes to it. -/
def spineNext (hp : Config.HashPrimitive) (prev m : Word) (v : Nat) : Word :=
  hashPair hp prev m &&& maskWord v

/-- The spine chain of a chunk sequence from a root seed (43_spinechain.md R148). -/
def spineChain (hp : Config.HashPrimitive) (v : Nat) : Word → List Nat → List Word
  | _, [] => []
  | prev, m :: ms =>
    let sp := spineNext hp prev (word m) v
    sp :: spineChain hp v sp ms

/-- HASH: `X[rd] <- H(X[rs1], X[rs2])` (43_spinechain.md R149). -/
def execHash (rd rs1 rs2 : Reg) (s : State) : Host.Outcome State Fault Refusal :=
  commit (.hash rd rs1 rs2) s
    (.ok (s.setX rd (hashPair s.params.hash (s.getX rs1) (s.getX rs2))))

/-- SPINE: `X[rd] <- spine_next(X[rs1], X[rs2], V)`, `E_CFG_V` unless V is 1..32
(43_spinechain.md R150). -/
def execSpine (rd rs1 rs2 : Reg) (s : State) : Host.Outcome State Fault Refusal :=
  commit (.spine rd rs1 rs2) s <|
    let v := s.conf.v.toNat
    if v < 1 ∨ v > 32 then .error (.cfgV v)
    else .ok (s.setX rd (spineNext s.params.hash (s.getX rs1) (s.getX rs2) v))

end Sys2Proof.Machine
end

