-- ==== Sys2Proof/Machine/Encoder.lean ====
section
/-! DEFINITION. CONSTRUCT, the Encoder as a function, and ENCODE (44_encoder.md R156 to R160). -/

namespace Sys2Proof.Machine

/-- CONSTRUCT (44_encoder.md R156): the checks in their order, then `READY <- 1`. -/
def execConstruct (s : State) : Host.Outcome State Fault Refusal :=
  commit .construct s <|
    let k := s.conf.k.toNat
    let v := s.conf.v.toNat
    let c := s.conf.c.toNat
    let l := s.conf.l.toNat
    let b := s.conf.b.toNat
    let d := s.conf.d.toNat
    if s.phase ≠ .idle then .error (seqErr s)
    else if k < 1 ∨ k > 31 then .error (.cfgK k)
    else if v < 1 ∨ v > 32 then .error (.cfgV v)
    else if c < 1 ∨ c > 31 then .error (.cfgC c)
    else if l < 1 then .error (.cfgL l)
    else if b < 1 then .error (.cfgB b)
    else if d < 1 then .error (.cfgD d)
    else .ok { s with ready := true }

/-- `padcount(mlen, k)` in the closed form of 44_encoder.md R158, for k in 1..31.
DESIGN CHOICE (log 9): for other k, where R158 gives no value, the same formula. -/
def padcount (mlen k : Nat) : Nat :=
  let k' := k / Nat.gcd 8 k
  (k' - mlen % k') % k'

/-- The padded message: zero bytes appended (44_encoder.md R159). -/
def padded (msg : List Byte) (k : Nat) : List Byte :=
  msg ++ List.replicate (padcount msg.length k) 0

/-- The symbol array, pass-major: symbol p of chunk j is draw p of the generator seeded with spine j
(44_encoder.md R159, 20_memory.md R64, 42_rng.md R139). -/
def symbols (spines : List Word) (c l : Nat) : List Nat :=
  (List.range l).flatMap fun p => spines.map fun sp => draw sp c p

/-- The symbol array the Encoder makes from a message (44_encoder.md R159, before `pack`). -/
def messageSymbols (hp : Config.HashPrimitive) (msg : List Byte) (k v c l : Nat) (seed : Word) :
    List Nat :=
  symbols (spineChain hp v seed (divide (padded msg k) k)) c l

/-- The output of `encode_fn(msg, K, V, C, L, SEED)` (44_encoder.md R159); its other component is
`padcount msg.length k`. -/
def encodeFn (hp : Config.HashPrimitive) (msg : List Byte) (k v c l : Nat) (seed : Word) :
    List Byte :=
  pack (messageSymbols hp msg k v c l seed) c

/-- ENCODE (44_encoder.md R160): the checks in their order, then the packed symbol stream in OBUF. -/
def execEncode (s : State) : Host.Outcome State Fault Refusal :=
  commit .encode s <|
    let k := s.conf.k.toNat
    let v := s.conf.v.toNat
    let c := s.conf.c.toNat
    let l := s.conf.l.toNat
    let ilen := s.ilen.toNat
    let pad := padcount ilen k
    let n := 8 * (ilen + pad) / k
    let olen := l * n * c / 8
    if s.phase ≠ .idle ∨ s.ready = false then .error (seqErr s)
    else if l * n * c % 8 ≠ 0 then .error (.alignOut n)
    else if l * n > s.params.chunkCap then .error (.capacity 2)
    else if olen > s.params.bufCap then .error (.capacity 1)
    else
      .ok { s.putObuf 0 (encodeFn s.params.hash (s.ibufBytes ilen) k v c l s.conf.seed) with
            olen := word olen, padcnt := word pad }

end Sys2Proof.Machine
end

