-- ==== Sys2Proof/Machine/Decoder.lean ====
section
/-! DEFINITION. CandidateTree and BeamSearchDecoder: DEC.INIT, DEC.STEP, DEC.TERM, DEC.ABORT, DECODE
(45_decoder.md R170 to R187). -/

namespace Sys2Proof.Machine

/-! ## Tree functions -/

/-- `sqdiff(a, b) = (max(a,b) - min(a,b))^2` (00_scope.md R15). -/
def sqdiff (a b : Nat) : Nat := (max a b - min a b) ^ 2

/-- `sse(s, pos)`: the sum over the passes of the squared errors of a spine value hypothesised at chunk
position pos against the received symbols (45_decoder.md R170). -/
def sse (s : State) (sp : Word) (pos : Nat) : Nat :=
  ((List.range s.conf.l.toNat).map fun p =>
    sqdiff (s.rxWord (p * s.sess.nchunk.toNat + pos)).toNat (draw sp s.conf.c.toNat p)).sum

/-- 2^K, the fan-out of the tree. -/
def fanout (s : State) : Nat := 2 ^ s.conf.k.toNat

/-- `children(h)`: the handles `CBASE + m`, m = 0 .. 2^K - 1 (45_decoder.md R171). -/
def children (s : State) (h : Nat) : List Nat :=
  (List.range (fanout s)).map fun m => (s.node h).cbase.toNat + m

/-- `frontier(h, j)`: the depth-j descendants of h, left to right (45_decoder.md R172). -/
def frontier (s : State) : Nat → Nat → List Nat
  | h, 0 => [h]
  | h, j + 1 => (children s h).flatMap fun c => frontier s c j

/-- The record of child m of node f (45_decoder.md R173). -/
def childNode (s : State) (f m : Nat) : Node :=
  let nd := s.node f
  let pos := nd.depth.toNat
  let sp := spineNext s.params.hash nd.spine (word m) s.conf.v.toNat
  { msg := word m
    spine := sp
    cost := nd.cost + BitVec.ofNat 64 (sse s sp pos)
    parent := word f
    cbase := Config.noneHandle
    depth := word (pos + 1) }

/-- `ARENA[f].CBASE <- base` (45_decoder.md R173). -/
def setCbase (s : State) (f : Nat) (base : Word) : State :=
  s.putNodes f [{ s.node f with cbase := base }]

/-- `ARENALEN <- n`. -/
def setArenaLen (s : State) (n : Nat) : State :=
  { s with sess := { s.sess with arenalen := word n } }

/-- `expand(f)`: creates all 2^K children of f at the handles from ARENALEN on, in increasing chunk
value (45_decoder.md R173). -/
def expand (s : State) (f : Nat) : State :=
  let base := s.sess.arenalen.toNat
  let s1 := s.putNodes base ((List.range (fanout s)).map (childNode s f))
  setArenaLen (setCbase s1 f (word base)) (base + fanout s)

/-- Expands the nodes of a list in order; gives the children in that order (45_decoder.md R180, R181). -/
def expandAll : State → List Nat → State × List Nat
  | s, [] => (s, [])
  | s, f :: fs =>
    let s1 := expand s f
    let r := expandAll s1 fs
    (r.1, children s1 f ++ r.2)

/-- `repeat D times`: expands level after level, breadth first (45_decoder.md R180). -/
def growLevels : Nat → State → List Nat → State × List Nat
  | 0, s, fs => (s, fs)
  | d + 1, s, fs =>
    let r := expandAll s fs
    growLevels d r.1 r.2

/-- `S(j) = sum over t in 1 .. j of 2^(K * t)`: the nodes below the top of a complete subtree of depth j
(45_decoder.md R174). -/
def subtreeSize (k : Nat) : Nat → Nat
  | 0 => 0
  | j + 1 => subtreeSize k j + 2 ^ (k * (j + 1))

/-! ## DEC.INIT (45_decoder.md R180) -/

/-- The virtual root (45_decoder.md R180, 10_state.md R45). -/
def rootNode (seed : Word) : Node :=
  { msg := 0, spine := seed, cost := 0, parent := Config.noneHandle,
    cbase := Config.noneHandle, depth := 0 }

/-- The effect of DEC.INIT once its checks have passed: RX is the received symbols, the tree is the root
expanded to depth D, the beam is the root (45_decoder.md R180). -/
def openSession (s : State) (ntot nch n : Nat) : State :=
  let rx := (divide (s.ibufBytes s.ilen.toNat) s.conf.c.toNat).map word
  let s1 := { s.putRx 0 rx with
              sess := { s.sess with rxlen := word ntot, nchunk := word nch, nsteps := word n, step := 0 } }
  let s2 := setArenaLen (s1.putNodes 0 [rootNode s.conf.seed]) 1
  let s3 := (growLevels s.conf.d.toNat s2 [0]).1
  let s4 := s3.putBeam 0 [0]
  { s4 with sess := { s4.sess with beamlen := 1 }, phase := .dec }

/-- DEC.INIT on the state: the checks in their order, then the session (45_decoder.md R180). -/
def decInitState (s : State) : Except Err State :=
  let k := s.conf.k.toNat
  let c := s.conf.c.toNat
  let l := s.conf.l.toNat
  let d := s.conf.d.toNat
  let slen := s.ilen.toNat
  let ntot := 8 * slen / c
  let nch := ntot / l
  if s.phase ≠ .idle ∨ s.ready = false then .error (seqErr s)
  else if 8 * slen % c ≠ 0 then .error (.alignIn slen)
  else if ntot % l ≠ 0 then .error (.alignIn slen)
  else if ntot > s.params.chunkCap then .error (.capacity 2)
  else if 2 * d > nch + 1 then .error (.cfgDRange nch)
  else if nch * k % 8 ≠ 0 then .error (.alignOut nch)
  else if nch * k / 8 > s.params.bufCap then .error (.capacity 1)
  else if ntot * (2 ^ c - 1) ^ 2 ≥ 2 ^ 64 then .error (.capacity 5)
  else if 1 + subtreeSize k d > s.params.arenaCap then .error (.capacity 3)
  else .ok (openSession s ntot nch (nch - d + 1))

/-! ## DEC.STEP (45_decoder.md R181 to R184) -/

/-- The handles BEAM[0..BEAMLEN), in order (10_state.md R46). -/
def beamHandles (s : State) : List Nat :=
  (List.range s.sess.beamlen.toNat).map fun t => (s.beamWord t).toNat

/-- The least cost_num of a list of nodes (45_decoder.md R183); the list is never empty. -/
def minCost (s : State) : List Nat → Nat
  | [] => 0
  | x :: xs => xs.foldl (fun m y => min m (s.node y).cost.toNat) (s.node x).cost.toNat

/-- EXPAND and SCORE of one candidate subtree root T' (45_decoder.md R182, R183): its depth-(D-1)
frontier is expanded one level more; the candidate is (T', least cost of the new leaves). -/
def scoreChild (s : State) (t' : Nat) : State × (Nat × Nat) :=
  let r := expandAll s (frontier s t' (s.conf.d.toNat - 1))
  (r.1, (t', minCost r.1 r.2))

/-- The inner loop: the children of one beam member, in child order (45_decoder.md R181). -/
def scoreChildren : State → List Nat → State × List (Nat × Nat)
  | s, [] => (s, [])
  | s, t' :: ts =>
    let r := scoreChild s t'
    let r' := scoreChildren r.1 ts
    (r'.1, r.2 :: r'.2)

/-- The outer loop: the beam members in beam order (45_decoder.md R181). -/
def scoreBeam : State → List Nat → State × List (Nat × Nat)
  | s, [] => (s, [])
  | s, t :: ts =>
    let r := scoreChildren s (children s t)
    let r' := scoreBeam r.1 ts
    (r'.1, r.2 ++ r'.2)

/-- `stable_sort_by(score, xs)`: ascending scores, equal scores in the order of discovery
(00_scope.md R13, 45_decoder.md R184). -/
def stableSortByScore (cands : List (Nat × Nat)) : List (Nat × Nat) :=
  cands.insertionSort fun a b => a.2 ≤ b.2

/-- PRUNE: the first `min(B, count)` of the sorted candidates become the beam (45_decoder.md R184). -/
def prune (s : State) (cands : List (Nat × Nat)) : State :=
  let keep := min s.conf.b.toNat cands.length
  let kept := ((stableSortByScore cands).take keep).map fun cand => word cand.1
  let s1 := s.putBeam 0 kept
  { s1 with sess := { s1.sess with beamlen := word keep, step := s1.sess.step + 1 } }

/-- DEC.STEP on the state: the checks in their order, then EXPAND, SCORE and PRUNE
(45_decoder.md R181). `STEP >= NSTEPS - 1` is written without subtraction (log 11). -/
def decStepState (s : State) : Except Err State :=
  let k := s.conf.k.toNat
  let d := s.conf.d.toNat
  let b := s.sess.beamlen.toNat
  let count := b * 2 ^ k
  if s.phase ≠ .dec then .error (seqErr s)
  else if s.sess.step.toNat + 1 ≥ s.sess.nsteps.toNat then .error (seqErr s)
  else if s.sess.arenalen.toNat + b * 2 ^ (k * (d + 1)) > s.params.arenaCap then .error (.capacity 3)
  else if count > s.params.candCap then .error (.capacity 4)
  else if min s.conf.b.toNat count > s.params.beamCap then .error (.capacity 4)
  else
    let r := scoreBeam s (beamHandles s)
    .ok (prune r.1 r.2)

/-! ## DEC.TERM (45_decoder.md R185) -/

/-- All depth-D leaves of the beam, in scan order (45_decoder.md R185). -/
def beamLeaves (s : State) : List Nat :=
  (beamHandles s).flatMap fun t => frontier s t s.conf.d.toNat

/-- The first node of a list whose cost_num is least (45_decoder.md R185); the list is never empty. -/
def bestLeaf (s : State) : List Nat → Nat
  | [] => 0
  | x :: xs =>
    xs.foldl (fun best y => if (s.node y).cost.toNat < (s.node best).cost.toNat then y else best) x

/-- The MSG values from a node back to the root (45_decoder.md R185). The path of a leaf has exactly
NCHUNK entries, which bounds the loop (log 9). -/
def backtrack (s : State) : Nat → Nat → List Nat
  | 0, _ => []
  | fuel + 1, h =>
    if (s.node h).parent = Config.noneHandle then []
    else (s.node h).msg.toNat :: backtrack s fuel (s.node h).parent.toNat

/-- The chunks of the path from the root to a leaf, in chronological order (45_decoder.md R185). -/
def pathChunks (s : State) (leaf : Nat) : List Nat :=
  (backtrack s s.sess.nchunk.toNat leaf).reverse

/-- DEC.TERM on the state: the checks, then the best leaf's message in OBUF and the session closed
(45_decoder.md R185). `STEP != NSTEPS - 1` is written without subtraction (log 11). -/
def decTermState (s : State) : Except Err State :=
  let k := s.conf.k.toNat
  if s.phase ≠ .dec then .error (seqErr s)
  else if s.sess.step.toNat + 1 ≠ s.sess.nsteps.toNat then .error (seqErr s)
  else
    let best := bestLeaf s (beamLeaves s)
    .ok (closeSession
      { s.putObuf 0 (pack (pathChunks s best) k) with
        olen := word (s.sess.nchunk.toNat * k / 8)
        bcost := (s.node best).cost })

/-! ## DECODE (45_decoder.md R187) -/

/-- `repeat n times: do DEC.STEP`, ending at the first that raises. -/
def decSteps : Nat → State → Except Err State
  | 0, s => .ok s
  | n + 1, s =>
    match decStepState s with
    | .error e => .error e
    | .ok t => decSteps n t

/-- DECODE on the state: DEC.INIT, NSTEPS - 1 times DEC.STEP, DEC.TERM; if a part raises, the whole
raises its error (45_decoder.md R187). -/
def decodeState (s : State) : Except Err State :=
  match decInitState s with
  | .error e => .error e
  | .ok s1 =>
    match decSteps (s1.sess.nsteps.toNat - 1) s1 with
    | .error e => .error e
    | .ok s2 => decTermState s2

/-! ## The commands -/

/-- DEC.INIT (45_decoder.md R180). -/
def execDecInit (s : State) : Host.Outcome State Fault Refusal :=
  commit .decInit s (decInitState s)

/-- DEC.STEP (45_decoder.md R181). -/
def execDecStep (s : State) : Host.Outcome State Fault Refusal :=
  commit .decStep s (decStepState s)

/-- DEC.TERM (45_decoder.md R185). -/
def execDecTerm (s : State) : Host.Outcome State Fault Refusal :=
  commit .decTerm s (decTermState s)

/-- DEC.ABORT (45_decoder.md R186): ends a session without a result. -/
def execDecAbort (s : State) : Host.Outcome State Fault Refusal :=
  commit .decAbort s <|
    if s.phase ≠ .dec then .error (seqErr s) else .ok (closeSession s)

/-- DECODE (45_decoder.md R187): one atomic command; an error keeps nothing of it but the error entry,
with ECMD the word of DECODE. -/
def execDecode (s : State) : Host.Outcome State Fault Refusal :=
  commit .decode s (decodeState s)

end Sys2Proof.Machine
end

