-- ==== Sys2Proof/Machine/LoadStore.lean ====
section
/-! DEFINITION. LDB, STB, LDW, STW, BMOV (40_scalar_csr_memory.md R110 to R115). -/

namespace Sys2Proof.Machine

/-- LDB: `X[rd] <- zext_32(MemRead(space:EA, 1))` (40_scalar_csr_memory.md R111). -/
def execLdb (rd rs1 : Reg) (space off12 : Nat) (s : State) : Host.Outcome State Fault Refusal :=
  commit (.ldb rd rs1 space off12) s <|
    let ea := effectiveAddress s rs1 off12
    match memcheck s .loadB space ea with
    | .error e => .error e
    | .ok sp => .ok (s.setX rd (memRead s sp ea))

/-- STB: `MemWrite(IBUF:EA, 1, X[rs2][7:0])` (40_scalar_csr_memory.md R112). -/
def execStb (rs2 rs1 : Reg) (space off12 : Nat) (s : State) : Host.Outcome State Fault Refusal :=
  commit (.stb rs2 rs1 space off12) s <|
    let ea := effectiveAddress s rs1 off12
    match memcheck s .storeB space ea with
    | .error e => .error e
    | .ok _ => .ok (s.putIbuf ea [(s.getX rs2).setWidth 8])

/-- LDW: `X[rd] <- MemRead(space:EA, 1)` (40_scalar_csr_memory.md R113). -/
def execLdw (rd rs1 : Reg) (space off12 : Nat) (s : State) : Host.Outcome State Fault Refusal :=
  commit (.ldw rd rs1 space off12) s <|
    let ea := effectiveAddress s rs1 off12
    match memcheck s .loadW space ea with
    | .error e => .error e
    | .ok sp => .ok (s.setX rd (memRead s sp ea))

/-- STW: `MemWrite(CHUNK:EA, 1, X[rs2])` (40_scalar_csr_memory.md R114). -/
def execStw (rs2 rs1 : Reg) (space off12 : Nat) (s : State) : Host.Outcome State Fault Refusal :=
  commit (.stw rs2 rs1 space off12) s <|
    let ea := effectiveAddress s rs1 off12
    match memcheck s .storeW space ea with
    | .error e => .error e
    | .ok _ => .ok (s.putChunk ea [s.getX rs2])

/-- BMOV: `IBUF[0..OLEN) <- OBUF[0..OLEN)`, `ILEN <- OLEN` (40_scalar_csr_memory.md R115). -/
def execBmov (s : State) : Host.Outcome State Fault Refusal :=
  commit .bmov s (.ok { s.putIbuf 0 (s.obufBytes s.olen.toNat) with ilen := s.olen })

end Sys2Proof.Machine
end

