-- ==== Sys2Proof/Machine/Scalar.lean ====
section
/-! DEFINITION. NOP, LI, LUI, CSRR, CSRW (40_scalar_csr_memory.md R105 to R109). -/

namespace Sys2Proof.Machine

/-- NOP does nothing (40_scalar_csr_memory.md R105). -/
def execNop (s : State) : Host.Outcome State Fault Refusal :=
  commit .nop s (.ok s)

/-- LI: `X[rd] <- zext_32(imm16)` (40_scalar_csr_memory.md R106). -/
def execLi (rd : Reg) (imm16 : BitVec 16) (s : State) : Host.Outcome State Fault Refusal :=
  commit (.li rd imm16) s (.ok (s.setX rd (imm16.setWidth 32)))

/-- LUI: `X[rd] <- (imm16 << 16) | (X[rd] & 0x0000_FFFF)` (40_scalar_csr_memory.md R107). -/
def execLui (rd : Reg) (imm16 : BitVec 16) (s : State) : Host.Outcome State Fault Refusal :=
  commit (.lui rd imm16) s
    (.ok (s.setX rd ((imm16.setWidth 32 <<< 16) ||| (s.getX rd &&& 0x0000FFFF))))

/-- CSRR: `X[rd] <- CSR[csr]`, `E_CSR` on an unimplemented address (40_scalar_csr_memory.md R108). -/
def execCsrr (rd : Reg) (csr : Nat) (s : State) : Host.Outcome State Fault Refusal :=
  commit (.csrr rd csr) s <|
    match csrOfAddr csr with
    | none => .error (.csr csr)
    | some c => .ok (s.setX rd (readCsr s c))

/-- CSRW: the checks of 40_scalar_csr_memory.md R109 in their order, then `CSR[csr] <- X[rs]`. -/
def execCsrw (rs : Reg) (csr : Nat) (s : State) : Host.Outcome State Fault Refusal :=
  commit (.csrw rs csr) s <|
    let v := s.getX rs
    match csrOfAddr csr with
    | none => .error (.csr csr)
    | some c =>
      if isWritableCsr c = false then .error (.csr csr)
      else if isConfigCsr c = true ∧ s.phase = .dec then .error (seqErr s)
      else if c = .ILEN ∧ v.toNat > s.params.bufCap then .error (.csrVal v.toNat)
      else if c = .CLEN ∧ v.toNat > s.params.chunkCap then .error (.csrVal v.toNat)
      else .ok (writeCsr s c v)

end Sys2Proof.Machine
end

