-- ==== Sys2Proof/Machine/System.lean ====
section
/-! DEFINITION. SRST, the software reset (46_system.md R200). -/

namespace Sys2Proof.Machine

/-- SRST: the reset values of 10_state.md R50 in every register, CSR and context; no cell of a memory is
written, so IBUF and CHUNK keep their contents and OBUF, RX, ARENA and BEAM become unreachable
(46_system.md R200, 10_state.md R51; log 6). -/
def softwareReset (s : State) : State :=
  { s with
    x := Vector.replicate 16 0
    conf := Conf.reset
    ready := false
    phase := .idle
    error := ErrorRecord.none
    ilen := 0
    olen := 0
    clen := 0
    padcnt := 0
    sess := Session.closed
    bcost := 0
    g := Vector.replicate 2 RngContext.unseeded }

/-- SRST is taken in every phase and cannot fail (46_system.md R200). -/
def execSrst (s : State) : Host.Outcome State Fault Refusal :=
  commit .srst s (.ok (softwareReset s))

end Sys2Proof.Machine
end

