-- ==== Sys2Proof/Machine/Dispatch.lean ====
section
/-! DEFINITION. The meaning of every command: one arm per constructor. -/

namespace Sys2Proof.Machine

/-- The meaning of a command that is taken (40_scalar_csr_memory.md, the template of every command
rule): whether it is taken is decided in Machine/Fetch.lean. -/
def exec (i : Instr) (s : State) : Host.Outcome State Fault Refusal :=
  match i with
  | .nop => Sys2Proof.Machine.execNop s
  | .li rd imm16 => Sys2Proof.Machine.execLi rd imm16 s
  | .lui rd imm16 => Sys2Proof.Machine.execLui rd imm16 s
  | .csrr rd csr => Sys2Proof.Machine.execCsrr rd csr s
  | .csrw rs csr => Sys2Proof.Machine.execCsrw rs csr s
  | .ldb rd rs1 space off12 => Sys2Proof.Machine.execLdb rd rs1 space off12 s
  | .stb rs2 rs1 space off12 => Sys2Proof.Machine.execStb rs2 rs1 space off12 s
  | .ldw rd rs1 space off12 => Sys2Proof.Machine.execLdw rd rs1 space off12 s
  | .stw rs2 rs1 space off12 => Sys2Proof.Machine.execStw rs2 rs1 space off12 s
  | .bmov => Sys2Proof.Machine.execBmov s
  | .bpDiv rs => Sys2Proof.Machine.execBpDiv rs s
  | .bpPack rs => Sys2Proof.Machine.execBpPack rs s
  | .rseed g rs1 rs2 => Sys2Proof.Machine.execRseed g rs1 rs2 s
  | .rnext rd g => Sys2Proof.Machine.execRnext rd g s
  | .hash rd rs1 rs2 => Sys2Proof.Machine.execHash rd rs1 rs2 s
  | .spine rd rs1 rs2 => Sys2Proof.Machine.execSpine rd rs1 rs2 s
  | .construct => Sys2Proof.Machine.execConstruct s
  | .encode => Sys2Proof.Machine.execEncode s
  | .decInit => Sys2Proof.Machine.execDecInit s
  | .decStep => Sys2Proof.Machine.execDecStep s
  | .decTerm => Sys2Proof.Machine.execDecTerm s
  | .decAbort => Sys2Proof.Machine.execDecAbort s
  | .decode => Sys2Proof.Machine.execDecode s
  | .srst => Sys2Proof.Machine.execSrst s

end Sys2Proof.Machine
end

