-- ==== Sys2Proof/Machine/Fetch.lean ====
section
/-! DEFINITION. How the engine takes the host's next event: there is no program counter and no fetch
from memory (10_state.md R22); the host issues command words one at a time (00_scope.md R2, R16). -/

namespace Sys2Proof.Machine

/-- The exact word of SRST, the only word taken in HALT (60_exceptions.md R211). -/
def srstWord : Word := 0xFF000000

/-- What the engine does next; the state is the one after the event has been taken. -/
inductive Taken where
  /-- the host has issued nothing: the engine waits -/
  | waiting (s : State)
  /-- the host asserts hardware reset -/
  | reset (s : State)
  /-- PHASE = HALT: the word is ignored -/
  | ignored (s : State)
  /-- the word is illegal -/
  | illegal (w : Word) (s : State)
  /-- the word is this command -/
  | run (i : Instr) (s : State)

/-- A command word: HALT is looked at first, then the word is decoded (60_exceptions.md R209, R211,
R212). -/
def takeCommand (w : Word) (s : State) : Taken :=
  if s.phase = .halt ∧ w ≠ srstWord then .ignored s
  else
    match decode w with
    | none => .illegal w s
    | some i => .run i s

/-- The next event of the host (log 1). -/
def takeEvent (s : State) : Taken :=
  match s.pending with
  | [] => .waiting s
  | .hardwareReset :: es => .reset { s with pending := es }
  | .command w :: es => takeCommand w { s with pending := es }

/-- The host issues a word next: it stands before the events not yet taken (log 1). -/
def issueWord (w : Word) (s : State) : State := { s with pending := .command w :: s.pending }

/-- An illegal word raises `E_ILLCMD(0)` with ECMD the word (60_exceptions.md R212). -/
def illegalWord (w : Word) (s : State) : State := errorEntry .illCmd w s

end Sys2Proof.Machine
end

