-- ==== Sys2Proof/Machine/Step.lean ====
section
/-! DEFINITION. One step: the engine takes the host's next event and does what it asks. -/

namespace Sys2Proof.Machine

/-- One step (00_scope.md R16): the next event of the host is taken and executed to completion. With no
event the engine waits and holds its state (60_exceptions.md R225). -/
def step (s : State) : Host.Outcome State Fault Refusal :=
  match takeEvent s with
  | .waiting t => .next t
  | .reset t => .next (hardwareReset t)
  | .ignored t => .next t
  | .illegal w t => .next (illegalWord w t)
  | .run i t => exec i t

/-- The state in which the host issues the command word made of the low `nbits` bits of `w` next. -/
def State.withFetchWord (s : State) (nbits w : Nat) : State := issueWord (word (w % 2 ^ nbits)) s

end Sys2Proof.Machine
end

