-- ==== Sys2Proof/Laws/Memory.lean ====
section
/-! SUPPORT. Reading after writing, and the canonical form every write keeps. -/

namespace Sys2Proof.Machine

variable {α : Type}

@[simp] theorem cellAt?_nil (a : Nat) : cellAt? ([] : CellMap α) a = none := rfl

theorem cellAt?_putCell (m : CellMap α) (a : Nat) (v : α) (c : Nat) :
    cellAt? (putCell m a v) c = if c = a then some v else cellAt? m c := by
  induction m with
  | nil => simp [putCell, cellAt?]
  | cons p m ih =>
    obtain ⟨b, u⟩ := p
    simp only [putCell]
    split
    · simp [cellAt?]
    · split
      next h => subst h; simp only [cellAt?]; split <;> rfl
      next h =>
        simp only [cellAt?, ih]
        split
        next hc => subst hc; rw [if_neg fun e => h e.symm]
        next => rfl

@[simp] theorem cellAt?_putCell_same (m : CellMap α) (a : Nat) (v : α) :
    cellAt? (putCell m a v) a = some v := by simp [cellAt?_putCell]

theorem cellAt?_putCell_ne (m : CellMap α) {a c : Nat} (v : α) (h : c ≠ a) :
    cellAt? (putCell m a v) c = cellAt? m c := by simp [cellAt?_putCell, h]

/-- A run of cells written at a: inside the run the new cells, outside it the old. -/
theorem cellAt?_putCells (m : CellMap α) (a : Nat) (vs : List α) (c : Nat) :
    cellAt? (putCells m a vs) c =
      if a ≤ c ∧ c < a + vs.length then vs[c - a]? else cellAt? m c := by
  induction vs generalizing m a with
  | nil => simp only [putCells, List.length_nil]; rw [if_neg (by omega)]
  | cons v vs ih =>
    rw [putCells, ih]
    simp only [List.length_cons, cellAt?_putCell]
    by_cases h1 : a + 1 ≤ c ∧ c < a + 1 + vs.length
    · rw [if_pos h1, if_pos (by omega), show c - a = (c - (a + 1)) + 1 by omega,
        List.getElem?_cons_succ]
    · rw [if_neg h1]
      by_cases h2 : c = a
      · subst h2; simp
      · rw [if_neg h2, if_neg (by omega)]

theorem cellAt?_putCells_in (m : CellMap α) (a : Nat) (vs : List α) {i : Nat} (h : i < vs.length) :
    cellAt? (putCells m a vs) (a + i) = some vs[i] := by
  rw [cellAt?_putCells, if_pos (by omega)]; simp [h]

theorem cellAt?_putCells_out (m : CellMap α) (a : Nat) (vs : List α) {c : Nat}
    (h : c < a ∨ a + vs.length ≤ c) : cellAt? (putCells m a vs) c = cellAt? m c := by
  rw [cellAt?_putCells, if_neg (by omega)]

theorem mem_putCell {m : CellMap α} {a : Nat} {v : α} {p : Nat × α} (h : p ∈ putCell m a v) :
    p = (a, v) ∨ p ∈ m := by
  induction m with
  | nil => simpa [putCell] using h
  | cons q m ih =>
    obtain ⟨b, u⟩ := q
    simp only [putCell] at h
    split at h
    · simpa using h
    · split at h
      · rcases List.mem_cons.1 h with h | h
        · exact .inl h
        · exact .inr (List.mem_cons_of_mem _ h)
      · rcases List.mem_cons.1 h with h | h
        · exact .inr (h ▸ List.mem_cons_self)
        · rcases ih h with h | h
          · exact .inl h
          · exact .inr (List.mem_cons_of_mem _ h)

/-- A write keeps the canonical form. -/
theorem canonical_putCell {m : CellMap α} (h : Canonical m) (a : Nat) (v : α) :
    Canonical (putCell m a v) := by
  induction m with
  | nil => simp [putCell, Canonical]
  | cons q m ih =>
    obtain ⟨b, u⟩ := q
    obtain ⟨hb, hm⟩ := List.pairwise_cons.1 h
    simp only [putCell]
    split
    next hlt =>
      refine List.pairwise_cons.2 ⟨fun p hp => ?_, h⟩
      rcases List.mem_cons.1 hp with rfl | hp
      · exact hlt
      · exact Nat.lt_trans hlt (hb p hp)
    next hlt =>
      split
      next heq => subst heq; exact List.pairwise_cons.2 ⟨hb, hm⟩
      next hne =>
        refine List.pairwise_cons.2 ⟨fun p hp => ?_, ih hm⟩
        rcases mem_putCell hp with rfl | hp
        · show b < a; omega
        · exact hb p hp

/-- A run of writes keeps the canonical form. -/
theorem canonical_putCells {m : CellMap α} (h : Canonical m) (a : Nat) (vs : List α) :
    Canonical (putCells m a vs) := by
  induction vs generalizing m a with
  | nil => exact h
  | cons v vs ih => exact ih (canonical_putCell h a v) (a + 1)

theorem bounded_putCell {m : CellMap α} {n : Nat} (h : Bounded m n) {a : Nat} (ha : a < n) (v : α) :
    Bounded (putCell m a v) n := fun p hp => by
  rcases mem_putCell hp with rfl | hp
  · exact ha
  · exact h p hp

/-- A run of writes below a bound keeps every listed index below it. -/
theorem bounded_putCells {m : CellMap α} {n : Nat} (h : Bounded m n) {a : Nat} {vs : List α}
    (ha : a + vs.length ≤ n) : Bounded (putCells m a vs) n := by
  induction vs generalizing m a with
  | nil => exact h
  | cons v vs ih =>
    simp only [List.length_cons] at ha
    exact ih (bounded_putCell h (by omega) v) (by omega)

/-- The memories after hardware reset are in canonical form. -/
theorem unwritten_wf : Memory.unwritten.wf := by decide

/-- The reset state's memories are in canonical form. -/
theorem reset_mem_wf : State.reset.mem.wf := unwritten_wf

end Sys2Proof.Machine
end

