-- ==== Sys2Proof/Laws/State.lean ====
section
/-! SUPPORT. One lemma per field per named update of the state, true by rfl. -/

namespace Sys2Proof.Machine

/-! ### State.setX -/

@[simp] theorem State.setX_conf (s : State) (r : Reg) (v : Word) :
    (s.setX r v).conf = s.conf := rfl
@[simp] theorem State.setX_ready (s : State) (r : Reg) (v : Word) :
    (s.setX r v).ready = s.ready := rfl
@[simp] theorem State.setX_phase (s : State) (r : Reg) (v : Word) :
    (s.setX r v).phase = s.phase := rfl
@[simp] theorem State.setX_error (s : State) (r : Reg) (v : Word) :
    (s.setX r v).error = s.error := rfl
@[simp] theorem State.setX_ilen (s : State) (r : Reg) (v : Word) :
    (s.setX r v).ilen = s.ilen := rfl
@[simp] theorem State.setX_olen (s : State) (r : Reg) (v : Word) :
    (s.setX r v).olen = s.olen := rfl
@[simp] theorem State.setX_clen (s : State) (r : Reg) (v : Word) :
    (s.setX r v).clen = s.clen := rfl
@[simp] theorem State.setX_padcnt (s : State) (r : Reg) (v : Word) :
    (s.setX r v).padcnt = s.padcnt := rfl
@[simp] theorem State.setX_sess (s : State) (r : Reg) (v : Word) :
    (s.setX r v).sess = s.sess := rfl
@[simp] theorem State.setX_bcost (s : State) (r : Reg) (v : Word) :
    (s.setX r v).bcost = s.bcost := rfl
@[simp] theorem State.setX_g (s : State) (r : Reg) (v : Word) :
    (s.setX r v).g = s.g := rfl
@[simp] theorem State.setX_mem (s : State) (r : Reg) (v : Word) :
    (s.setX r v).mem = s.mem := rfl
@[simp] theorem State.setX_params (s : State) (r : Reg) (v : Word) :
    (s.setX r v).params = s.params := rfl
@[simp] theorem State.setX_launch (s : State) (r : Reg) (v : Word) :
    (s.setX r v).launch = s.launch := rfl
@[simp] theorem State.setX_pending (s : State) (r : Reg) (v : Word) :
    (s.setX r v).pending = s.pending := rfl

/-! ### State.setG -/

@[simp] theorem State.setG_x (s : State) (g : CtxNum) (ctx : RngContext) :
    (s.setG g ctx).x = s.x := rfl
@[simp] theorem State.setG_conf (s : State) (g : CtxNum) (ctx : RngContext) :
    (s.setG g ctx).conf = s.conf := rfl
@[simp] theorem State.setG_ready (s : State) (g : CtxNum) (ctx : RngContext) :
    (s.setG g ctx).ready = s.ready := rfl
@[simp] theorem State.setG_phase (s : State) (g : CtxNum) (ctx : RngContext) :
    (s.setG g ctx).phase = s.phase := rfl
@[simp] theorem State.setG_error (s : State) (g : CtxNum) (ctx : RngContext) :
    (s.setG g ctx).error = s.error := rfl
@[simp] theorem State.setG_ilen (s : State) (g : CtxNum) (ctx : RngContext) :
    (s.setG g ctx).ilen = s.ilen := rfl
@[simp] theorem State.setG_olen (s : State) (g : CtxNum) (ctx : RngContext) :
    (s.setG g ctx).olen = s.olen := rfl
@[simp] theorem State.setG_clen (s : State) (g : CtxNum) (ctx : RngContext) :
    (s.setG g ctx).clen = s.clen := rfl
@[simp] theorem State.setG_padcnt (s : State) (g : CtxNum) (ctx : RngContext) :
    (s.setG g ctx).padcnt = s.padcnt := rfl
@[simp] theorem State.setG_sess (s : State) (g : CtxNum) (ctx : RngContext) :
    (s.setG g ctx).sess = s.sess := rfl
@[simp] theorem State.setG_bcost (s : State) (g : CtxNum) (ctx : RngContext) :
    (s.setG g ctx).bcost = s.bcost := rfl
@[simp] theorem State.setG_mem (s : State) (g : CtxNum) (ctx : RngContext) :
    (s.setG g ctx).mem = s.mem := rfl
@[simp] theorem State.setG_params (s : State) (g : CtxNum) (ctx : RngContext) :
    (s.setG g ctx).params = s.params := rfl
@[simp] theorem State.setG_launch (s : State) (g : CtxNum) (ctx : RngContext) :
    (s.setG g ctx).launch = s.launch := rfl
@[simp] theorem State.setG_pending (s : State) (g : CtxNum) (ctx : RngContext) :
    (s.setG g ctx).pending = s.pending := rfl

/-! ### State.putIbuf -/

@[simp] theorem State.putIbuf_x (s : State) (a : Nat) (bs : List Byte) :
    (s.putIbuf a bs).x = s.x := rfl
@[simp] theorem State.putIbuf_conf (s : State) (a : Nat) (bs : List Byte) :
    (s.putIbuf a bs).conf = s.conf := rfl
@[simp] theorem State.putIbuf_ready (s : State) (a : Nat) (bs : List Byte) :
    (s.putIbuf a bs).ready = s.ready := rfl
@[simp] theorem State.putIbuf_phase (s : State) (a : Nat) (bs : List Byte) :
    (s.putIbuf a bs).phase = s.phase := rfl
@[simp] theorem State.putIbuf_error (s : State) (a : Nat) (bs : List Byte) :
    (s.putIbuf a bs).error = s.error := rfl
@[simp] theorem State.putIbuf_ilen (s : State) (a : Nat) (bs : List Byte) :
    (s.putIbuf a bs).ilen = s.ilen := rfl
@[simp] theorem State.putIbuf_olen (s : State) (a : Nat) (bs : List Byte) :
    (s.putIbuf a bs).olen = s.olen := rfl
@[simp] theorem State.putIbuf_clen (s : State) (a : Nat) (bs : List Byte) :
    (s.putIbuf a bs).clen = s.clen := rfl
@[simp] theorem State.putIbuf_padcnt (s : State) (a : Nat) (bs : List Byte) :
    (s.putIbuf a bs).padcnt = s.padcnt := rfl
@[simp] theorem State.putIbuf_sess (s : State) (a : Nat) (bs : List Byte) :
    (s.putIbuf a bs).sess = s.sess := rfl
@[simp] theorem State.putIbuf_bcost (s : State) (a : Nat) (bs : List Byte) :
    (s.putIbuf a bs).bcost = s.bcost := rfl
@[simp] theorem State.putIbuf_g (s : State) (a : Nat) (bs : List Byte) :
    (s.putIbuf a bs).g = s.g := rfl
@[simp] theorem State.putIbuf_params (s : State) (a : Nat) (bs : List Byte) :
    (s.putIbuf a bs).params = s.params := rfl
@[simp] theorem State.putIbuf_launch (s : State) (a : Nat) (bs : List Byte) :
    (s.putIbuf a bs).launch = s.launch := rfl
@[simp] theorem State.putIbuf_pending (s : State) (a : Nat) (bs : List Byte) :
    (s.putIbuf a bs).pending = s.pending := rfl
@[simp] theorem State.putIbuf_mem_ibuf (s : State) (a : Nat) (bs : List Byte) :
    (s.putIbuf a bs).mem.ibuf = putCells s.mem.ibuf a bs := rfl
@[simp] theorem State.putIbuf_mem_obuf (s : State) (a : Nat) (bs : List Byte) :
    (s.putIbuf a bs).mem.obuf = s.mem.obuf := rfl
@[simp] theorem State.putIbuf_mem_chunk (s : State) (a : Nat) (bs : List Byte) :
    (s.putIbuf a bs).mem.chunk = s.mem.chunk := rfl
@[simp] theorem State.putIbuf_mem_rx (s : State) (a : Nat) (bs : List Byte) :
    (s.putIbuf a bs).mem.rx = s.mem.rx := rfl
@[simp] theorem State.putIbuf_mem_arena (s : State) (a : Nat) (bs : List Byte) :
    (s.putIbuf a bs).mem.arena = s.mem.arena := rfl
@[simp] theorem State.putIbuf_mem_beam (s : State) (a : Nat) (bs : List Byte) :
    (s.putIbuf a bs).mem.beam = s.mem.beam := rfl

/-! ### State.putObuf -/

@[simp] theorem State.putObuf_x (s : State) (a : Nat) (bs : List Byte) :
    (s.putObuf a bs).x = s.x := rfl
@[simp] theorem State.putObuf_conf (s : State) (a : Nat) (bs : List Byte) :
    (s.putObuf a bs).conf = s.conf := rfl
@[simp] theorem State.putObuf_ready (s : State) (a : Nat) (bs : List Byte) :
    (s.putObuf a bs).ready = s.ready := rfl
@[simp] theorem State.putObuf_phase (s : State) (a : Nat) (bs : List Byte) :
    (s.putObuf a bs).phase = s.phase := rfl
@[simp] theorem State.putObuf_error (s : State) (a : Nat) (bs : List Byte) :
    (s.putObuf a bs).error = s.error := rfl
@[simp] theorem State.putObuf_ilen (s : State) (a : Nat) (bs : List Byte) :
    (s.putObuf a bs).ilen = s.ilen := rfl
@[simp] theorem State.putObuf_olen (s : State) (a : Nat) (bs : List Byte) :
    (s.putObuf a bs).olen = s.olen := rfl
@[simp] theorem State.putObuf_clen (s : State) (a : Nat) (bs : List Byte) :
    (s.putObuf a bs).clen = s.clen := rfl
@[simp] theorem State.putObuf_padcnt (s : State) (a : Nat) (bs : List Byte) :
    (s.putObuf a bs).padcnt = s.padcnt := rfl
@[simp] theorem State.putObuf_sess (s : State) (a : Nat) (bs : List Byte) :
    (s.putObuf a bs).sess = s.sess := rfl
@[simp] theorem State.putObuf_bcost (s : State) (a : Nat) (bs : List Byte) :
    (s.putObuf a bs).bcost = s.bcost := rfl
@[simp] theorem State.putObuf_g (s : State) (a : Nat) (bs : List Byte) :
    (s.putObuf a bs).g = s.g := rfl
@[simp] theorem State.putObuf_params (s : State) (a : Nat) (bs : List Byte) :
    (s.putObuf a bs).params = s.params := rfl
@[simp] theorem State.putObuf_launch (s : State) (a : Nat) (bs : List Byte) :
    (s.putObuf a bs).launch = s.launch := rfl
@[simp] theorem State.putObuf_pending (s : State) (a : Nat) (bs : List Byte) :
    (s.putObuf a bs).pending = s.pending := rfl
@[simp] theorem State.putObuf_mem_ibuf (s : State) (a : Nat) (bs : List Byte) :
    (s.putObuf a bs).mem.ibuf = s.mem.ibuf := rfl
@[simp] theorem State.putObuf_mem_obuf (s : State) (a : Nat) (bs : List Byte) :
    (s.putObuf a bs).mem.obuf = putCells s.mem.obuf a bs := rfl
@[simp] theorem State.putObuf_mem_chunk (s : State) (a : Nat) (bs : List Byte) :
    (s.putObuf a bs).mem.chunk = s.mem.chunk := rfl
@[simp] theorem State.putObuf_mem_rx (s : State) (a : Nat) (bs : List Byte) :
    (s.putObuf a bs).mem.rx = s.mem.rx := rfl
@[simp] theorem State.putObuf_mem_arena (s : State) (a : Nat) (bs : List Byte) :
    (s.putObuf a bs).mem.arena = s.mem.arena := rfl
@[simp] theorem State.putObuf_mem_beam (s : State) (a : Nat) (bs : List Byte) :
    (s.putObuf a bs).mem.beam = s.mem.beam := rfl

/-! ### State.putChunk -/

@[simp] theorem State.putChunk_x (s : State) (a : Nat) (ws : List Word) :
    (s.putChunk a ws).x = s.x := rfl
@[simp] theorem State.putChunk_conf (s : State) (a : Nat) (ws : List Word) :
    (s.putChunk a ws).conf = s.conf := rfl
@[simp] theorem State.putChunk_ready (s : State) (a : Nat) (ws : List Word) :
    (s.putChunk a ws).ready = s.ready := rfl
@[simp] theorem State.putChunk_phase (s : State) (a : Nat) (ws : List Word) :
    (s.putChunk a ws).phase = s.phase := rfl
@[simp] theorem State.putChunk_error (s : State) (a : Nat) (ws : List Word) :
    (s.putChunk a ws).error = s.error := rfl
@[simp] theorem State.putChunk_ilen (s : State) (a : Nat) (ws : List Word) :
    (s.putChunk a ws).ilen = s.ilen := rfl
@[simp] theorem State.putChunk_olen (s : State) (a : Nat) (ws : List Word) :
    (s.putChunk a ws).olen = s.olen := rfl
@[simp] theorem State.putChunk_clen (s : State) (a : Nat) (ws : List Word) :
    (s.putChunk a ws).clen = s.clen := rfl
@[simp] theorem State.putChunk_padcnt (s : State) (a : Nat) (ws : List Word) :
    (s.putChunk a ws).padcnt = s.padcnt := rfl
@[simp] theorem State.putChunk_sess (s : State) (a : Nat) (ws : List Word) :
    (s.putChunk a ws).sess = s.sess := rfl
@[simp] theorem State.putChunk_bcost (s : State) (a : Nat) (ws : List Word) :
    (s.putChunk a ws).bcost = s.bcost := rfl
@[simp] theorem State.putChunk_g (s : State) (a : Nat) (ws : List Word) :
    (s.putChunk a ws).g = s.g := rfl
@[simp] theorem State.putChunk_params (s : State) (a : Nat) (ws : List Word) :
    (s.putChunk a ws).params = s.params := rfl
@[simp] theorem State.putChunk_launch (s : State) (a : Nat) (ws : List Word) :
    (s.putChunk a ws).launch = s.launch := rfl
@[simp] theorem State.putChunk_pending (s : State) (a : Nat) (ws : List Word) :
    (s.putChunk a ws).pending = s.pending := rfl
@[simp] theorem State.putChunk_mem_ibuf (s : State) (a : Nat) (ws : List Word) :
    (s.putChunk a ws).mem.ibuf = s.mem.ibuf := rfl
@[simp] theorem State.putChunk_mem_obuf (s : State) (a : Nat) (ws : List Word) :
    (s.putChunk a ws).mem.obuf = s.mem.obuf := rfl
@[simp] theorem State.putChunk_mem_chunk (s : State) (a : Nat) (ws : List Word) :
    (s.putChunk a ws).mem.chunk = putCells s.mem.chunk a ws := rfl
@[simp] theorem State.putChunk_mem_rx (s : State) (a : Nat) (ws : List Word) :
    (s.putChunk a ws).mem.rx = s.mem.rx := rfl
@[simp] theorem State.putChunk_mem_arena (s : State) (a : Nat) (ws : List Word) :
    (s.putChunk a ws).mem.arena = s.mem.arena := rfl
@[simp] theorem State.putChunk_mem_beam (s : State) (a : Nat) (ws : List Word) :
    (s.putChunk a ws).mem.beam = s.mem.beam := rfl

/-! ### State.putRx -/

@[simp] theorem State.putRx_x (s : State) (a : Nat) (ws : List Word) :
    (s.putRx a ws).x = s.x := rfl
@[simp] theorem State.putRx_conf (s : State) (a : Nat) (ws : List Word) :
    (s.putRx a ws).conf = s.conf := rfl
@[simp] theorem State.putRx_ready (s : State) (a : Nat) (ws : List Word) :
    (s.putRx a ws).ready = s.ready := rfl
@[simp] theorem State.putRx_phase (s : State) (a : Nat) (ws : List Word) :
    (s.putRx a ws).phase = s.phase := rfl
@[simp] theorem State.putRx_error (s : State) (a : Nat) (ws : List Word) :
    (s.putRx a ws).error = s.error := rfl
@[simp] theorem State.putRx_ilen (s : State) (a : Nat) (ws : List Word) :
    (s.putRx a ws).ilen = s.ilen := rfl
@[simp] theorem State.putRx_olen (s : State) (a : Nat) (ws : List Word) :
    (s.putRx a ws).olen = s.olen := rfl
@[simp] theorem State.putRx_clen (s : State) (a : Nat) (ws : List Word) :
    (s.putRx a ws).clen = s.clen := rfl
@[simp] theorem State.putRx_padcnt (s : State) (a : Nat) (ws : List Word) :
    (s.putRx a ws).padcnt = s.padcnt := rfl
@[simp] theorem State.putRx_sess (s : State) (a : Nat) (ws : List Word) :
    (s.putRx a ws).sess = s.sess := rfl
@[simp] theorem State.putRx_bcost (s : State) (a : Nat) (ws : List Word) :
    (s.putRx a ws).bcost = s.bcost := rfl
@[simp] theorem State.putRx_g (s : State) (a : Nat) (ws : List Word) :
    (s.putRx a ws).g = s.g := rfl
@[simp] theorem State.putRx_params (s : State) (a : Nat) (ws : List Word) :
    (s.putRx a ws).params = s.params := rfl
@[simp] theorem State.putRx_launch (s : State) (a : Nat) (ws : List Word) :
    (s.putRx a ws).launch = s.launch := rfl
@[simp] theorem State.putRx_pending (s : State) (a : Nat) (ws : List Word) :
    (s.putRx a ws).pending = s.pending := rfl
@[simp] theorem State.putRx_mem_ibuf (s : State) (a : Nat) (ws : List Word) :
    (s.putRx a ws).mem.ibuf = s.mem.ibuf := rfl
@[simp] theorem State.putRx_mem_obuf (s : State) (a : Nat) (ws : List Word) :
    (s.putRx a ws).mem.obuf = s.mem.obuf := rfl
@[simp] theorem State.putRx_mem_chunk (s : State) (a : Nat) (ws : List Word) :
    (s.putRx a ws).mem.chunk = s.mem.chunk := rfl
@[simp] theorem State.putRx_mem_rx (s : State) (a : Nat) (ws : List Word) :
    (s.putRx a ws).mem.rx = putCells s.mem.rx a ws := rfl
@[simp] theorem State.putRx_mem_arena (s : State) (a : Nat) (ws : List Word) :
    (s.putRx a ws).mem.arena = s.mem.arena := rfl
@[simp] theorem State.putRx_mem_beam (s : State) (a : Nat) (ws : List Word) :
    (s.putRx a ws).mem.beam = s.mem.beam := rfl

/-! ### State.putNodes -/

@[simp] theorem State.putNodes_x (s : State) (h : Nat) (ns : List Node) :
    (s.putNodes h ns).x = s.x := rfl
@[simp] theorem State.putNodes_conf (s : State) (h : Nat) (ns : List Node) :
    (s.putNodes h ns).conf = s.conf := rfl
@[simp] theorem State.putNodes_ready (s : State) (h : Nat) (ns : List Node) :
    (s.putNodes h ns).ready = s.ready := rfl
@[simp] theorem State.putNodes_phase (s : State) (h : Nat) (ns : List Node) :
    (s.putNodes h ns).phase = s.phase := rfl
@[simp] theorem State.putNodes_error (s : State) (h : Nat) (ns : List Node) :
    (s.putNodes h ns).error = s.error := rfl
@[simp] theorem State.putNodes_ilen (s : State) (h : Nat) (ns : List Node) :
    (s.putNodes h ns).ilen = s.ilen := rfl
@[simp] theorem State.putNodes_olen (s : State) (h : Nat) (ns : List Node) :
    (s.putNodes h ns).olen = s.olen := rfl
@[simp] theorem State.putNodes_clen (s : State) (h : Nat) (ns : List Node) :
    (s.putNodes h ns).clen = s.clen := rfl
@[simp] theorem State.putNodes_padcnt (s : State) (h : Nat) (ns : List Node) :
    (s.putNodes h ns).padcnt = s.padcnt := rfl
@[simp] theorem State.putNodes_sess (s : State) (h : Nat) (ns : List Node) :
    (s.putNodes h ns).sess = s.sess := rfl
@[simp] theorem State.putNodes_bcost (s : State) (h : Nat) (ns : List Node) :
    (s.putNodes h ns).bcost = s.bcost := rfl
@[simp] theorem State.putNodes_g (s : State) (h : Nat) (ns : List Node) :
    (s.putNodes h ns).g = s.g := rfl
@[simp] theorem State.putNodes_params (s : State) (h : Nat) (ns : List Node) :
    (s.putNodes h ns).params = s.params := rfl
@[simp] theorem State.putNodes_launch (s : State) (h : Nat) (ns : List Node) :
    (s.putNodes h ns).launch = s.launch := rfl
@[simp] theorem State.putNodes_pending (s : State) (h : Nat) (ns : List Node) :
    (s.putNodes h ns).pending = s.pending := rfl
@[simp] theorem State.putNodes_mem_ibuf (s : State) (h : Nat) (ns : List Node) :
    (s.putNodes h ns).mem.ibuf = s.mem.ibuf := rfl
@[simp] theorem State.putNodes_mem_obuf (s : State) (h : Nat) (ns : List Node) :
    (s.putNodes h ns).mem.obuf = s.mem.obuf := rfl
@[simp] theorem State.putNodes_mem_chunk (s : State) (h : Nat) (ns : List Node) :
    (s.putNodes h ns).mem.chunk = s.mem.chunk := rfl
@[simp] theorem State.putNodes_mem_rx (s : State) (h : Nat) (ns : List Node) :
    (s.putNodes h ns).mem.rx = s.mem.rx := rfl
@[simp] theorem State.putNodes_mem_arena (s : State) (h : Nat) (ns : List Node) :
    (s.putNodes h ns).mem.arena = putCells s.mem.arena h ns := rfl
@[simp] theorem State.putNodes_mem_beam (s : State) (h : Nat) (ns : List Node) :
    (s.putNodes h ns).mem.beam = s.mem.beam := rfl

/-! ### State.putBeam -/

@[simp] theorem State.putBeam_x (s : State) (a : Nat) (ws : List Word) :
    (s.putBeam a ws).x = s.x := rfl
@[simp] theorem State.putBeam_conf (s : State) (a : Nat) (ws : List Word) :
    (s.putBeam a ws).conf = s.conf := rfl
@[simp] theorem State.putBeam_ready (s : State) (a : Nat) (ws : List Word) :
    (s.putBeam a ws).ready = s.ready := rfl
@[simp] theorem State.putBeam_phase (s : State) (a : Nat) (ws : List Word) :
    (s.putBeam a ws).phase = s.phase := rfl
@[simp] theorem State.putBeam_error (s : State) (a : Nat) (ws : List Word) :
    (s.putBeam a ws).error = s.error := rfl
@[simp] theorem State.putBeam_ilen (s : State) (a : Nat) (ws : List Word) :
    (s.putBeam a ws).ilen = s.ilen := rfl
@[simp] theorem State.putBeam_olen (s : State) (a : Nat) (ws : List Word) :
    (s.putBeam a ws).olen = s.olen := rfl
@[simp] theorem State.putBeam_clen (s : State) (a : Nat) (ws : List Word) :
    (s.putBeam a ws).clen = s.clen := rfl
@[simp] theorem State.putBeam_padcnt (s : State) (a : Nat) (ws : List Word) :
    (s.putBeam a ws).padcnt = s.padcnt := rfl
@[simp] theorem State.putBeam_sess (s : State) (a : Nat) (ws : List Word) :
    (s.putBeam a ws).sess = s.sess := rfl
@[simp] theorem State.putBeam_bcost (s : State) (a : Nat) (ws : List Word) :
    (s.putBeam a ws).bcost = s.bcost := rfl
@[simp] theorem State.putBeam_g (s : State) (a : Nat) (ws : List Word) :
    (s.putBeam a ws).g = s.g := rfl
@[simp] theorem State.putBeam_params (s : State) (a : Nat) (ws : List Word) :
    (s.putBeam a ws).params = s.params := rfl
@[simp] theorem State.putBeam_launch (s : State) (a : Nat) (ws : List Word) :
    (s.putBeam a ws).launch = s.launch := rfl
@[simp] theorem State.putBeam_pending (s : State) (a : Nat) (ws : List Word) :
    (s.putBeam a ws).pending = s.pending := rfl
@[simp] theorem State.putBeam_mem_ibuf (s : State) (a : Nat) (ws : List Word) :
    (s.putBeam a ws).mem.ibuf = s.mem.ibuf := rfl
@[simp] theorem State.putBeam_mem_obuf (s : State) (a : Nat) (ws : List Word) :
    (s.putBeam a ws).mem.obuf = s.mem.obuf := rfl
@[simp] theorem State.putBeam_mem_chunk (s : State) (a : Nat) (ws : List Word) :
    (s.putBeam a ws).mem.chunk = s.mem.chunk := rfl
@[simp] theorem State.putBeam_mem_rx (s : State) (a : Nat) (ws : List Word) :
    (s.putBeam a ws).mem.rx = s.mem.rx := rfl
@[simp] theorem State.putBeam_mem_arena (s : State) (a : Nat) (ws : List Word) :
    (s.putBeam a ws).mem.arena = s.mem.arena := rfl
@[simp] theorem State.putBeam_mem_beam (s : State) (a : Nat) (ws : List Word) :
    (s.putBeam a ws).mem.beam = putCells s.mem.beam a ws := rfl

/-! ### setArenaLen -/

@[simp] theorem setArenaLen_x (s : State) (n : Nat) :
    (setArenaLen s n).x = s.x := rfl
@[simp] theorem setArenaLen_conf (s : State) (n : Nat) :
    (setArenaLen s n).conf = s.conf := rfl
@[simp] theorem setArenaLen_ready (s : State) (n : Nat) :
    (setArenaLen s n).ready = s.ready := rfl
@[simp] theorem setArenaLen_phase (s : State) (n : Nat) :
    (setArenaLen s n).phase = s.phase := rfl
@[simp] theorem setArenaLen_error (s : State) (n : Nat) :
    (setArenaLen s n).error = s.error := rfl
@[simp] theorem setArenaLen_ilen (s : State) (n : Nat) :
    (setArenaLen s n).ilen = s.ilen := rfl
@[simp] theorem setArenaLen_olen (s : State) (n : Nat) :
    (setArenaLen s n).olen = s.olen := rfl
@[simp] theorem setArenaLen_clen (s : State) (n : Nat) :
    (setArenaLen s n).clen = s.clen := rfl
@[simp] theorem setArenaLen_padcnt (s : State) (n : Nat) :
    (setArenaLen s n).padcnt = s.padcnt := rfl
@[simp] theorem setArenaLen_bcost (s : State) (n : Nat) :
    (setArenaLen s n).bcost = s.bcost := rfl
@[simp] theorem setArenaLen_g (s : State) (n : Nat) :
    (setArenaLen s n).g = s.g := rfl
@[simp] theorem setArenaLen_mem (s : State) (n : Nat) :
    (setArenaLen s n).mem = s.mem := rfl
@[simp] theorem setArenaLen_params (s : State) (n : Nat) :
    (setArenaLen s n).params = s.params := rfl
@[simp] theorem setArenaLen_launch (s : State) (n : Nat) :
    (setArenaLen s n).launch = s.launch := rfl
@[simp] theorem setArenaLen_pending (s : State) (n : Nat) :
    (setArenaLen s n).pending = s.pending := rfl
@[simp] theorem setArenaLen_sess_rxlen (s : State) (n : Nat) :
    (setArenaLen s n).sess.rxlen = s.sess.rxlen := rfl
@[simp] theorem setArenaLen_sess_nchunk (s : State) (n : Nat) :
    (setArenaLen s n).sess.nchunk = s.sess.nchunk := rfl
@[simp] theorem setArenaLen_sess_nsteps (s : State) (n : Nat) :
    (setArenaLen s n).sess.nsteps = s.sess.nsteps := rfl
@[simp] theorem setArenaLen_sess_step (s : State) (n : Nat) :
    (setArenaLen s n).sess.step = s.sess.step := rfl
@[simp] theorem setArenaLen_sess_beamlen (s : State) (n : Nat) :
    (setArenaLen s n).sess.beamlen = s.sess.beamlen := rfl
@[simp] theorem setArenaLen_sess_arenalen (s : State) (n : Nat) :
    (setArenaLen s n).sess.arenalen = word n := rfl

/-! ### errorEntry -/

@[simp] theorem errorEntry_x (e : Err) (cmd : Word) (s : State) :
    (errorEntry e cmd s).x = s.x := rfl
@[simp] theorem errorEntry_conf (e : Err) (cmd : Word) (s : State) :
    (errorEntry e cmd s).conf = s.conf := rfl
@[simp] theorem errorEntry_ready (e : Err) (cmd : Word) (s : State) :
    (errorEntry e cmd s).ready = s.ready := rfl
@[simp] theorem errorEntry_ilen (e : Err) (cmd : Word) (s : State) :
    (errorEntry e cmd s).ilen = s.ilen := rfl
@[simp] theorem errorEntry_olen (e : Err) (cmd : Word) (s : State) :
    (errorEntry e cmd s).olen = s.olen := rfl
@[simp] theorem errorEntry_clen (e : Err) (cmd : Word) (s : State) :
    (errorEntry e cmd s).clen = s.clen := rfl
@[simp] theorem errorEntry_padcnt (e : Err) (cmd : Word) (s : State) :
    (errorEntry e cmd s).padcnt = s.padcnt := rfl
@[simp] theorem errorEntry_sess (e : Err) (cmd : Word) (s : State) :
    (errorEntry e cmd s).sess = s.sess := rfl
@[simp] theorem errorEntry_bcost (e : Err) (cmd : Word) (s : State) :
    (errorEntry e cmd s).bcost = s.bcost := rfl
@[simp] theorem errorEntry_g (e : Err) (cmd : Word) (s : State) :
    (errorEntry e cmd s).g = s.g := rfl
@[simp] theorem errorEntry_mem (e : Err) (cmd : Word) (s : State) :
    (errorEntry e cmd s).mem = s.mem := rfl
@[simp] theorem errorEntry_params (e : Err) (cmd : Word) (s : State) :
    (errorEntry e cmd s).params = s.params := rfl
@[simp] theorem errorEntry_launch (e : Err) (cmd : Word) (s : State) :
    (errorEntry e cmd s).launch = s.launch := rfl
@[simp] theorem errorEntry_pending (e : Err) (cmd : Word) (s : State) :
    (errorEntry e cmd s).pending = s.pending := rfl
@[simp] theorem errorEntry_error (e : Err) (cmd : Word) (s : State) :
    (errorEntry e cmd s).error = ⟨word e.code, word e.info, cmd⟩ := rfl
@[simp] theorem errorEntry_phase (e : Err) (cmd : Word) (s : State) : (errorEntry e cmd s).phase = .halt := rfl

/-! ### closeSession -/

@[simp] theorem closeSession_x (s : State) :
    (closeSession s).x = s.x := rfl
@[simp] theorem closeSession_conf (s : State) :
    (closeSession s).conf = s.conf := rfl
@[simp] theorem closeSession_ready (s : State) :
    (closeSession s).ready = s.ready := rfl
@[simp] theorem closeSession_error (s : State) :
    (closeSession s).error = s.error := rfl
@[simp] theorem closeSession_ilen (s : State) :
    (closeSession s).ilen = s.ilen := rfl
@[simp] theorem closeSession_olen (s : State) :
    (closeSession s).olen = s.olen := rfl
@[simp] theorem closeSession_clen (s : State) :
    (closeSession s).clen = s.clen := rfl
@[simp] theorem closeSession_padcnt (s : State) :
    (closeSession s).padcnt = s.padcnt := rfl
@[simp] theorem closeSession_bcost (s : State) :
    (closeSession s).bcost = s.bcost := rfl
@[simp] theorem closeSession_g (s : State) :
    (closeSession s).g = s.g := rfl
@[simp] theorem closeSession_mem (s : State) :
    (closeSession s).mem = s.mem := rfl
@[simp] theorem closeSession_params (s : State) :
    (closeSession s).params = s.params := rfl
@[simp] theorem closeSession_launch (s : State) :
    (closeSession s).launch = s.launch := rfl
@[simp] theorem closeSession_pending (s : State) :
    (closeSession s).pending = s.pending := rfl
@[simp] theorem closeSession_sess (s : State) : (closeSession s).sess = Session.closed := rfl
@[simp] theorem closeSession_phase (s : State) : (closeSession s).phase = .idle := rfl

end Sys2Proof.Machine
end

