-- ==== Sys2Proof/Laws/Ops.lean ====
section
/-! SUPPORT. For each shared operation, one lemma that says what it can do. -/

namespace Sys2Proof.Machine

/-! ## Registers and contexts -/

theorem getX_setX (s : State) (r r' : Reg) (v : Word) :
    (s.setX r v).getX r' = if r' = r then v else s.getX r' := by
  simp only [State.getX, State.setX, Vector.get_eq_getElem]
  rw [Vector.getElem_set]
  by_cases h : r' = r
  · simp [h]
  · have : r.val ≠ r'.val := fun h' => h (Fin.ext h'.symm)
    simp [h, this]

@[simp] theorem getX_setX_same (s : State) (r : Reg) (v : Word) : (s.setX r v).getX r = v := by
  simp [getX_setX]

theorem getX_setX_ne (s : State) {r r' : Reg} (v : Word) (h : r' ≠ r) :
    (s.setX r v).getX r' = s.getX r' := by simp [getX_setX, h]

theorem getG_setG (s : State) (g g' : CtxNum) (ctx : RngContext) :
    (s.setG g ctx).getG g' = if g' = g then ctx else s.getG g' := by
  simp only [State.getG, State.setG, Vector.get_eq_getElem]
  rw [Vector.getElem_set]
  by_cases h : g' = g
  · simp [h]
  · have : g.val ≠ g'.val := fun h' => h (Fin.ext h'.symm)
    simp [h, this]

@[simp] theorem getG_setG_same (s : State) (g : CtxNum) (ctx : RngContext) :
    (s.setG g ctx).getG g = ctx := by simp [getG_setG]

@[simp] theorem setX_getG (s : State) (r : Reg) (v : Word) (g : CtxNum) :
    (s.setX r v).getG g = s.getG g := rfl

@[simp] theorem setG_getX (s : State) (g : CtxNum) (ctx : RngContext) (r : Reg) :
    (s.setG g ctx).getX r = s.getX r := rfl

/-! ## Cells. Reading a space after a run of writes to it -/

theorem ibufByte_putIbuf (s : State) (a : Nat) (bs : List Byte) (c : Nat) :
    (s.putIbuf a bs).ibufByte c =
      if a ≤ c ∧ c < a + bs.length then bs.getD (c - a) 0 else s.ibufByte c := by
  simp only [State.ibufByte, State.putIbuf_mem_ibuf, State.putIbuf_launch, cellAt?_putCells]
  split
  next h => rw [List.getD_eq_getElem?_getD, List.getElem?_eq_getElem (by omega)]; rfl
  next => rfl

theorem obufByte_putObuf (s : State) (a : Nat) (bs : List Byte) (c : Nat) :
    (s.putObuf a bs).obufByte c =
      if a ≤ c ∧ c < a + bs.length then bs.getD (c - a) 0 else s.obufByte c := by
  simp only [State.obufByte, State.putObuf_mem_obuf, State.putObuf_launch, cellAt?_putCells]
  split
  next h => rw [List.getD_eq_getElem?_getD, List.getElem?_eq_getElem (by omega)]; rfl
  next => rfl

theorem chunkWord_putChunk (s : State) (a : Nat) (ws : List Word) (c : Nat) :
    (s.putChunk a ws).chunkWord c =
      if a ≤ c ∧ c < a + ws.length then ws.getD (c - a) 0 else s.chunkWord c := by
  simp only [State.chunkWord, State.putChunk_mem_chunk, State.putChunk_launch, cellAt?_putCells]
  split
  next h => rw [List.getD_eq_getElem?_getD, List.getElem?_eq_getElem (by omega)]; rfl
  next => rfl

theorem rxWord_putRx (s : State) (a : Nat) (ws : List Word) (c : Nat) :
    (s.putRx a ws).rxWord c =
      if a ≤ c ∧ c < a + ws.length then ws.getD (c - a) 0 else s.rxWord c := by
  simp only [State.rxWord, State.putRx_mem_rx, State.putRx_launch, cellAt?_putCells]
  split
  next h => rw [List.getD_eq_getElem?_getD, List.getElem?_eq_getElem (by omega)]; rfl
  next => rfl

theorem beamWord_putBeam (s : State) (a : Nat) (ws : List Word) (c : Nat) :
    (s.putBeam a ws).beamWord c =
      if a ≤ c ∧ c < a + ws.length then ws.getD (c - a) 0 else s.beamWord c := by
  simp only [State.beamWord, State.putBeam_mem_beam, State.putBeam_launch, cellAt?_putCells]
  split
  next h => rw [List.getD_eq_getElem?_getD, List.getElem?_eq_getElem (by omega)]; rfl
  next => rfl

theorem node_putNodes (s : State) (h : Nat) (ns : List Node) (c : Nat) :
    (s.putNodes h ns).node c =
      if h ≤ c ∧ c < h + ns.length then ns.getD (c - h) (launchNode 0 0) else s.node c := by
  simp only [State.node, State.putNodes_mem_arena, State.putNodes_launch, cellAt?_putCells]
  split
  next h' => rw [List.getD_eq_getElem?_getD, List.getElem?_eq_getElem (by omega)]; rfl
  next => rfl

/-! ## Ending a command -/

/-- A command ends in its new state or in error entry from the state it began in. -/
theorem commit_eq_next {i : Instr} {s t : State} {r : Except Err State} :
    commit i s r = .next t ↔
      r = .ok t ∨ ∃ e, r = .error e ∧ t = errorEntry e (encode i) s := by
  cases r with
  | ok u => simp [commit]
  | error e => simp [commit, eq_comm]

/-- Every command answers a next state. -/
theorem commit_total (i : Instr) (s : State) (r : Except Err State) :
    ∃ t, commit i s r = .next t := by
  cases r with
  | ok u => exact ⟨u, rfl⟩
  | error e => exact ⟨_, rfl⟩

@[simp] theorem commit_ok (i : Instr) (s t : State) : commit i s (.ok t) = .next t := rfl

@[simp] theorem commit_error (i : Instr) (s : State) (e : Err) :
    commit i s (.error e) = .next (errorEntry e (encode i) s) := rfl

/-! ## Admission of an access -/

/-- What memcheck admits. -/
theorem memcheck_eq_ok {s : State} {kind : AccessKind} {space ea : Nat} {sp : Space} :
    memcheck s kind space ea = .ok sp ↔
      spaceOfNum space = some sp ∧ kind.isByte = isByteSpace sp ∧ ea < accessBound s kind sp := by
  unfold memcheck
  cases h : spaceOfNum space with
  | none => simp
  | some sp' =>
    simp only [Option.some.injEq]
    constructor
    · intro hh
      split at hh
      next hc => cases hh; exact ⟨rfl, hc⟩
      next => cases hh
    · rintro ⟨rfl, h1, h2⟩
      rw [if_pos ⟨h1, h2⟩]

/-- What is not admitted raises E_ADDR with the effective address. -/
theorem memcheck_eq_error {s : State} {kind : AccessKind} {space ea : Nat} {e : Err}
    (h : memcheck s kind space ea = .error e) : e = .addr ea := by
  unfold memcheck at h
  split at h
  · cases h; rfl
  · split at h
    · cases h
    · cases h; rfl

/-! ## Taking an event -/

/-- HALT is looked at first, then the word is decoded. -/
theorem takeCommand_run {w : Word} {s : State} {i : Instr}
    (hp : s.phase ≠ .halt ∨ w = srstWord) (hd : decode w = some i) :
    takeCommand w s = .run i s := by
  unfold takeCommand
  rw [if_neg (by rintro ⟨h1, h2⟩; exact hp.elim (fun h => h h1) h2), hd]

theorem takeCommand_illegal {w : Word} {s : State} (hp : s.phase ≠ .halt) (hd : decode w = none) :
    takeCommand w s = .illegal w s := by
  unfold takeCommand
  rw [if_neg (fun h => hp h.1), hd]

theorem takeCommand_ignored {w : Word} {s : State} (hp : s.phase = .halt) (hw : w ≠ srstWord) :
    takeCommand w s = .ignored s := by
  unfold takeCommand
  rw [if_pos ⟨hp, hw⟩]

end Sys2Proof.Machine
end

