-- ==== Sys2Proof/Laws/Decode.lean ====
section
/-! SUPPORT. Masks as zero fields, and the fields of encoded words, in arithmetic that omega reads. -/

namespace Sys2Proof

/-- A mask cut in two at bit k. -/
theorem land_split (n a b k : Nat) (hb : b < 2 ^ k) :
    n &&& (2 ^ k * a + b) = 2 ^ k * (n / 2 ^ k &&& a) + (n % 2 ^ k &&& b) := by
  have hn : n % 2 ^ k &&& b < 2 ^ k := Nat.lt_of_le_of_lt Nat.and_le_right hb
  refine Nat.eq_of_testBit_eq fun j => ?_
  rw [Nat.testBit_and, Nat.testBit_two_pow_mul_add _ hb, Nat.testBit_two_pow_mul_add _ hn]
  split
  next h => simp [h]
  next h =>
    rw [Nat.testBit_and, Nat.testBit_div_two_pow, show j - k + k = j by omega]

/-- The low j bits of a mask that are all ones. -/
theorem land_ones (n j : Nat) : n &&& (2 ^ j - 1) = n % 2 ^ j := Nat.and_two_pow_sub_one_eq_mod n j

theorem matchValue_toNat {op : Nat} (h : op < 256) : (matchValue op).toNat = op * 2 ^ 24 := by
  simp only [matchValue, word, BitVec.toNat_ofNat]
  omega

theorem and_eq_iff_toNat (w m v : Word) : w &&& m = v ↔ w.toNat &&& m.toNat = v.toNat := by
  rw [← BitVec.toNat_inj, BitVec.toNat_and]

/-- Mask 0xFFFF_FFFF, format Z. -/
theorem maskMatch_Z {w : Word} {op : Nat} (h : op < 256) :
    w &&& 0xFFFFFFFF = matchValue op ↔ slice w 31 24 = op ∧ slice w 23 0 = 0 := by
  have hw := w.isLt
  rw [and_eq_iff_toNat, matchValue_toNat h]
  have e : w.toNat &&& (0xFFFFFFFF : Word).toNat = w.toNat % 2 ^ 32 := land_ones _ 32
  rw [e]; simp only [slice]; omega

/-- Mask 0xFF0F_0000, format I. -/
theorem maskMatch_I {w : Word} {op : Nat} (h : op < 256) :
    w &&& 0xFF0F0000 = matchValue op ↔ slice w 31 24 = op ∧ slice w 19 16 = 0 := by
  have hw := w.isLt
  rw [and_eq_iff_toNat, matchValue_toNat h]
  have e : w.toNat &&& (0xFF0F0000 : Word).toNat =
      2 ^ 24 * (w.toNat / 2 ^ 24 % 2 ^ 8) + 2 ^ 16 * (w.toNat % 2 ^ 24 / 2 ^ 16 % 2 ^ 4) := by
    rw [show (0xFF0F0000 : Word).toNat = 2 ^ 24 * (2 ^ 8 - 1) + 0x0F0000 from rfl,
      land_split _ _ _ _ (by decide), land_ones,
      show (0x0F0000 : Nat) = 2 ^ 16 * (2 ^ 4 - 1) + 0 from rfl,
      land_split _ _ _ _ (by decide), land_ones]; simp
  rw [e]; simp only [slice]; omega

/-- Mask 0xFF0F_F000, format C. -/
theorem maskMatch_C {w : Word} {op : Nat} (h : op < 256) :
    w &&& 0xFF0FF000 = matchValue op ↔ slice w 31 24 = op ∧ slice w 19 12 = 0 := by
  have hw := w.isLt
  rw [and_eq_iff_toNat, matchValue_toNat h]
  have e : w.toNat &&& (0xFF0FF000 : Word).toNat =
      2 ^ 24 * (w.toNat / 2 ^ 24 % 2 ^ 8) + 2 ^ 12 * (w.toNat % 2 ^ 24 / 2 ^ 12 % 2 ^ 8) := by
    rw [show (0xFF0FF000 : Word).toNat = 2 ^ 24 * (2 ^ 8 - 1) + 0x0FF000 from rfl,
      land_split _ _ _ _ (by decide), land_ones,
      show (0x0FF000 : Nat) = 2 ^ 12 * (2 ^ 8 - 1) + 0 from rfl,
      land_split _ _ _ _ (by decide), land_ones]; simp
  rw [e]; simp only [slice]; omega

/-- Mask 0xFF00_0000, format M. -/
theorem maskMatch_M {w : Word} {op : Nat} (h : op < 256) :
    w &&& 0xFF000000 = matchValue op ↔ slice w 31 24 = op := by
  have hw := w.isLt
  rw [and_eq_iff_toNat, matchValue_toNat h]
  have e : w.toNat &&& (0xFF000000 : Word).toNat = 2 ^ 24 * (w.toNat / 2 ^ 24 % 2 ^ 8) := by
    rw [show (0xFF000000 : Word).toNat = 2 ^ 24 * (2 ^ 8 - 1) + 0 from rfl,
      land_split _ _ _ _ (by decide), land_ones]; simp
  rw [e]; simp only [slice]; omega

/-- Mask 0xFF0F_FFFF, format R1. -/
theorem maskMatch_R1 {w : Word} {op : Nat} (h : op < 256) :
    w &&& 0xFF0FFFFF = matchValue op ↔ slice w 31 24 = op ∧ slice w 19 0 = 0 := by
  have hw := w.isLt
  rw [and_eq_iff_toNat, matchValue_toNat h]
  have e : w.toNat &&& (0xFF0FFFFF : Word).toNat =
      2 ^ 24 * (w.toNat / 2 ^ 24 % 2 ^ 8) + w.toNat % 2 ^ 24 % 2 ^ 20 := by
    rw [show (0xFF0FFFFF : Word).toNat = 2 ^ 24 * (2 ^ 8 - 1) + (2 ^ 20 - 1) from rfl,
      land_split _ _ _ _ (by decide), land_ones, land_ones]
  rw [e]; simp only [slice]; omega

/-- Mask 0xFFF0_0FFE, RSEED of format G. -/
theorem maskMatch_RSEED {w : Word} {op : Nat} (h : op < 256) :
    w &&& 0xFFF00FFE = matchValue op ↔
      slice w 31 24 = op ∧ slice w 23 20 = 0 ∧ slice w 11 1 = 0 := by
  have hw := w.isLt
  rw [and_eq_iff_toNat, matchValue_toNat h]
  have e : w.toNat &&& (0xFFF00FFE : Word).toNat =
      2 ^ 20 * (w.toNat / 2 ^ 20 % 2 ^ 12) + 2 ^ 1 * (w.toNat % 2 ^ 20 / 2 ^ 1 % 2 ^ 11) := by
    rw [show (0xFFF00FFE : Word).toNat = 2 ^ 20 * (2 ^ 12 - 1) + 0x00FFE from rfl,
      land_split _ _ _ _ (by decide), land_ones,
      show (0x00FFE : Nat) = 2 ^ 1 * (2 ^ 11 - 1) + 0 from rfl,
      land_split _ _ _ _ (by decide), land_ones]; simp
  rw [e]; simp only [slice]; omega

/-- Mask 0xFF0F_FFFE, RNEXT of format G. -/
theorem maskMatch_RNEXT {w : Word} {op : Nat} (h : op < 256) :
    w &&& 0xFF0FFFFE = matchValue op ↔ slice w 31 24 = op ∧ slice w 19 1 = 0 := by
  have hw := w.isLt
  rw [and_eq_iff_toNat, matchValue_toNat h]
  have e : w.toNat &&& (0xFF0FFFFE : Word).toNat =
      2 ^ 24 * (w.toNat / 2 ^ 24 % 2 ^ 8) + 2 ^ 1 * (w.toNat % 2 ^ 24 / 2 ^ 1 % 2 ^ 19) := by
    rw [show (0xFF0FFFFE : Word).toNat = 2 ^ 24 * (2 ^ 8 - 1) + 0x0FFFFE from rfl,
      land_split _ _ _ _ (by decide), land_ones,
      show (0x0FFFFE : Nat) = 2 ^ 1 * (2 ^ 19 - 1) + 0 from rfl,
      land_split _ _ _ _ (by decide), land_ones]; simp
  rw [e]; simp only [slice]; omega

/-- Mask 0xFF00_0FFF, format R3. -/
theorem maskMatch_R3 {w : Word} {op : Nat} (h : op < 256) :
    w &&& 0xFF000FFF = matchValue op ↔ slice w 31 24 = op ∧ slice w 11 0 = 0 := by
  have hw := w.isLt
  rw [and_eq_iff_toNat, matchValue_toNat h]
  have e : w.toNat &&& (0xFF000FFF : Word).toNat =
      2 ^ 24 * (w.toNat / 2 ^ 24 % 2 ^ 8) + w.toNat % 2 ^ 24 % 2 ^ 12 := by
    rw [show (0xFF000FFF : Word).toNat = 2 ^ 24 * (2 ^ 8 - 1) + (2 ^ 12 - 1) from rfl,
      land_split _ _ _ _ (by decide), land_ones, land_ones]
  rw [e]; simp only [slice]; omega

/-! ## The fields of an encoded word, as numbers -/

theorem wordZ_toNat {op : Nat} (h : op < 256) : (wordZ op).toNat = op * 2 ^ 24 := by
  simp only [wordZ, word, BitVec.toNat_ofNat]; omega

theorem wordAL_toNat {op : Nat} (h : op < 256) (a : Reg) {low : Nat} (hl : low < 2 ^ 16) :
    (wordAL op a low).toNat = op * 2 ^ 24 + a.val * 2 ^ 20 + low := by
  have := a.isLt
  simp only [wordAL, word, BitVec.toNat_ofNat]; omega

theorem wordM_toNat {op : Nat} (h : op < 256) (a b : Reg) {sp off : Nat}
    (hs : sp < 2 ^ 4) (ho : off < 2 ^ 12) :
    (wordM op a b sp off).toNat =
      op * 2 ^ 24 + a.val * 2 ^ 20 + b.val * 2 ^ 16 + sp * 2 ^ 12 + off := by
  have := a.isLt; have := b.isLt
  simp only [wordM, word, BitVec.toNat_ofNat]; omega

theorem wordR_toNat {op : Nat} (h : op < 256) (a b c : Reg) (g : CtxNum) :
    (wordR op a b c g).toNat =
      op * 2 ^ 24 + a.val * 2 ^ 20 + b.val * 2 ^ 16 + c.val * 2 ^ 12 + g.val := by
  have := a.isLt; have := b.isLt; have := c.isLt; have := g.isLt
  simp only [wordR, word, BitVec.toNat_ofNat]; omega

end Sys2Proof
end

