-- ==== Sys2Proof/Laws/PerInstr.lean ====
section
/-! SUPPORT. Statements about every command as syntax, proved one constructor at a time. -/

namespace Sys2Proof.Laws

/-- The opcode of a command (30_encoding.md R95). -/
def opcodeOf : Instr → Nat
  | .nop => 0x00
  | .li _ _ => 0x01
  | .lui _ _ => 0x02
  | .csrr _ _ => 0x08
  | .csrw _ _ => 0x09
  | .ldb _ _ _ _ => 0x10
  | .stb _ _ _ _ => 0x11
  | .ldw _ _ _ _ => 0x12
  | .stw _ _ _ _ => 0x13
  | .bmov => 0x14
  | .bpDiv _ => 0x20
  | .bpPack _ => 0x21
  | .rseed _ _ _ => 0x28
  | .rnext _ _ => 0x29
  | .hash _ _ _ => 0x30
  | .spine _ _ _ => 0x31
  | .construct => 0x38
  | .encode => 0x40
  | .decInit => 0x48
  | .decStep => 0x49
  | .decTerm => 0x4A
  | .decAbort => 0x4B
  | .decode => 0x4C
  | .srst => 0xFF

theorem wordZ_opcode {op : Nat} (h : op < 256) : slice (wordZ op) 31 24 = op := by
  simp only [slice, wordZ_toNat h]; omega

theorem wordAL_opcode {op : Nat} (h : op < 256) (a : Reg) {low : Nat} (hl : low < 2 ^ 16) :
    slice (wordAL op a low) 31 24 = op := by
  have := a.isLt; simp only [slice, wordAL_toNat h a hl]; omega

theorem wordM_opcode {op : Nat} (h : op < 256) (a b : Reg) {sp off : Nat}
    (hs : sp < 2 ^ 4) (ho : off < 2 ^ 12) : slice (wordM op a b sp off) 31 24 = op := by
  have := a.isLt; have := b.isLt; simp only [slice, wordM_toNat h a b hs ho]; omega

theorem wordR_opcode {op : Nat} (h : op < 256) (a b c : Reg) (g : CtxNum) :
    slice (wordR op a b c g) 31 24 = op := by
  have := a.isLt; have := b.isLt; have := c.isLt; have := g.isLt
  simp only [slice, wordR_toNat h a b c g]; omega

/-- The word of a well-formed command carries its opcode in bits 31:24 (30_encoding.md R85). -/
def OpcodeByte.Statement (i : Instr) : Prop :=
  i.WellFormed = true → slice (encode i) 31 24 = opcodeOf i

theorem OpcodeByte.nop : OpcodeByte.Statement .nop := fun _ => wordZ_opcode (by decide)

theorem OpcodeByte.li (rd : Reg) (imm16 : BitVec 16) : OpcodeByte.Statement (.li rd imm16) :=
  fun _ => wordAL_opcode (by decide) rd imm16.isLt

theorem OpcodeByte.lui (rd : Reg) (imm16 : BitVec 16) : OpcodeByte.Statement (.lui rd imm16) :=
  fun _ => wordAL_opcode (by decide) rd imm16.isLt

theorem OpcodeByte.csrr (rd : Reg) (csr : Nat) : OpcodeByte.Statement (.csrr rd csr) := fun h =>
  wordAL_opcode (by decide) rd (Nat.lt_trans (of_decide_eq_true h) (by decide))

theorem OpcodeByte.csrw (rs : Reg) (csr : Nat) : OpcodeByte.Statement (.csrw rs csr) := fun h =>
  wordAL_opcode (by decide) rs (Nat.lt_trans (of_decide_eq_true h) (by decide))

theorem memory_fits {space off12 : Nat}
    (h : (decide (spaceFits space) && decide (offsetFits off12)) = true) :
    space < 2 ^ 4 ∧ off12 < 2 ^ 12 := by
  simpa [spaceFits, offsetFits] using h

theorem OpcodeByte.ldb (rd rs1 : Reg) (space off12 : Nat) :
    OpcodeByte.Statement (.ldb rd rs1 space off12) := fun h =>
  wordM_opcode (by decide) rd rs1 (memory_fits h).1 (memory_fits h).2

theorem OpcodeByte.stb (rs2 rs1 : Reg) (space off12 : Nat) :
    OpcodeByte.Statement (.stb rs2 rs1 space off12) := fun h =>
  wordM_opcode (by decide) rs2 rs1 (memory_fits h).1 (memory_fits h).2

theorem OpcodeByte.ldw (rd rs1 : Reg) (space off12 : Nat) :
    OpcodeByte.Statement (.ldw rd rs1 space off12) := fun h =>
  wordM_opcode (by decide) rd rs1 (memory_fits h).1 (memory_fits h).2

theorem OpcodeByte.stw (rs2 rs1 : Reg) (space off12 : Nat) :
    OpcodeByte.Statement (.stw rs2 rs1 space off12) := fun h =>
  wordM_opcode (by decide) rs2 rs1 (memory_fits h).1 (memory_fits h).2

theorem OpcodeByte.bmov : OpcodeByte.Statement .bmov := fun _ => wordZ_opcode (by decide)

theorem OpcodeByte.bpDiv (rs : Reg) : OpcodeByte.Statement (.bpDiv rs) :=
  fun _ => wordR_opcode (by decide) rs 0 0 0

theorem OpcodeByte.bpPack (rs : Reg) : OpcodeByte.Statement (.bpPack rs) :=
  fun _ => wordR_opcode (by decide) rs 0 0 0

theorem OpcodeByte.rseed (g : CtxNum) (rs1 rs2 : Reg) : OpcodeByte.Statement (.rseed g rs1 rs2) :=
  fun _ => wordR_opcode (by decide) 0 rs1 rs2 g

theorem OpcodeByte.rnext (rd : Reg) (g : CtxNum) : OpcodeByte.Statement (.rnext rd g) :=
  fun _ => wordR_opcode (by decide) rd 0 0 g

theorem OpcodeByte.hash (rd rs1 rs2 : Reg) : OpcodeByte.Statement (.hash rd rs1 rs2) :=
  fun _ => wordR_opcode (by decide) rd rs1 rs2 0

theorem OpcodeByte.spine (rd rs1 rs2 : Reg) : OpcodeByte.Statement (.spine rd rs1 rs2) :=
  fun _ => wordR_opcode (by decide) rd rs1 rs2 0

theorem OpcodeByte.construct : OpcodeByte.Statement .construct := fun _ => wordZ_opcode (by decide)

theorem OpcodeByte.encode : OpcodeByte.Statement .encode := fun _ => wordZ_opcode (by decide)

theorem OpcodeByte.decInit : OpcodeByte.Statement .decInit := fun _ => wordZ_opcode (by decide)

theorem OpcodeByte.decStep : OpcodeByte.Statement .decStep := fun _ => wordZ_opcode (by decide)

theorem OpcodeByte.decTerm : OpcodeByte.Statement .decTerm := fun _ => wordZ_opcode (by decide)

theorem OpcodeByte.decAbort : OpcodeByte.Statement .decAbort := fun _ => wordZ_opcode (by decide)

theorem OpcodeByte.decode : OpcodeByte.Statement .decode := fun _ => wordZ_opcode (by decide)

theorem OpcodeByte.srst : OpcodeByte.Statement .srst := fun _ => wordZ_opcode (by decide)

end Sys2Proof.Laws
end

