-- ==== Sys2Proof/Safety.lean ====
section
/-! DEFINITION. What the claims speak of: what a command leaves unchanged, what raising an error is, and
the invariants the spec derives from its rules (10_state.md R28 to R33, R45, R46). -/

namespace Sys2Proof.Machine

/-! ## Runs -/

/-- The outcome of n steps, ending at the first that is not a next state (00_scope.md R16). -/
def runSteps : Nat → State → Host.Outcome State Fault Refusal
  | 0, s => .next s
  | n + 1, s =>
    match step s with
    | .next t => runSteps n t
    | .fault f => .fault f
    | .refused r => .refused r

/-! ## Frames -/

/-- Every cell outside the stored ones reads in t as it reads in s, in every space (20_memory.md R60). Of
cells at and beyond a length register, which 93_implementation_defined.md U4 leaves open and no command
can read, this is the model's own (log 6). -/
def SameOutside (stored : Space → Nat → Prop) (s t : State) : Prop :=
  ∀ sp a, ¬ stored sp a → memRead t sp a = memRead s sp a

/-- Every cell of every memory reads in t as it reads in s, those at and beyond a length register, which
no command can read, as the model keeps them (log 6). -/
def SameCells (s t : State) : Prop := ∀ sp a, memRead t sp a = memRead s sp a

/-- t is s with v in X[rd], and nothing else changed. -/
def WritesOnlyX (s : State) (rd : Reg) (v : Word) (t : State) : Prop :=
  t.getX rd = v ∧ (∀ r, r ≠ rd → t.getX r = s.getX r) ∧ SameCells s t ∧ t = { s with x := t.x }

/-- The command raises the error of that code and info from s: the four writes of error entry and no
other change (60_exceptions.md R210). -/
def Raises (i : Instr) (s : State) (code info : Nat) : Prop :=
  exec i s = .next
    { s with error := { err := word code, einfo := word info, ecmd := encode i }, phase := .halt }

/-! ## The invariant of the registers (10_state.md R28 to R33) -/

/-- The configuration CONSTRUCT accepts (10_state.md R28, 44_encoder.md R156). -/
abbrev ConfLegal (c : Conf) : Prop :=
  1 ≤ c.k.toNat ∧ c.k.toNat ≤ 31 ∧ 1 ≤ c.v.toNat ∧ c.v.toNat ≤ 32 ∧
  1 ≤ c.c.toNat ∧ c.c.toNat ≤ 31 ∧ 1 ≤ c.l.toNat ∧ 1 ≤ c.b.toNat ∧ 1 ≤ c.d.toNat

/-- What holds of the session CSRs while PHASE = DEC (10_state.md R32, R33, 45_decoder.md R180). -/
structure SessionOpen (s : State) : Prop where
  ready : s.ready = true
  rxlen : s.sess.rxlen.toNat = s.sess.nchunk.toNat * s.conf.l.toNat
  rxfits : s.sess.rxlen.toNat ≤ s.params.chunkCap
  nsteps : s.sess.nsteps.toNat + s.conf.d.toNat = s.sess.nchunk.toNat + 1
  depth_le : s.conf.d.toNat ≤ s.sess.nsteps.toNat
  step_lt : s.sess.step.toNat + 1 ≤ s.sess.nsteps.toNat
  beam_pos : 1 ≤ s.sess.beamlen.toNat
  beam_le : s.sess.beamlen.toNat ≤ min s.conf.b.toNat s.params.beamCap
  arena_pos : 1 ≤ s.sess.arenalen.toNat
  arena_le : s.sess.arenalen.toNat ≤ s.params.arenaCap
  out_aligned : s.sess.nchunk.toNat * s.conf.k.toNat % 8 = 0
  out_fits : s.sess.nchunk.toNat * s.conf.k.toNat / 8 ≤ s.params.bufCap
  cost_fits : s.sess.rxlen.toNat * (2 ^ s.conf.c.toNat - 1) ^ 2 < 2 ^ 64

/-- The invariant of the machine's registers and of the form of its memories. -/
structure Invariant (s : State) : Prop where
  /-- the build's capacities meet their bounds (00_scope.md R8) -/
  params_legal : s.params.Legal
  /-- every memory is in canonical form -/
  mem_wf : s.mem.wf
  /-- no cell is listed at or beyond a capacity (20_memory.md R60) -/
  ibuf_fits : Bounded s.mem.ibuf s.params.bufCap
  obuf_fits : Bounded s.mem.obuf s.params.bufCap
  chunk_fits : Bounded s.mem.chunk s.params.chunkCap
  rx_fits : Bounded s.mem.rx s.params.chunkCap
  beam_fits : Bounded s.mem.beam s.params.beamCap
  /-- 10_state.md R31 -/
  ilen_le : s.ilen.toNat ≤ s.params.bufCap
  olen_le : s.olen.toNat ≤ s.params.bufCap
  clen_le : s.clen.toNat ≤ s.params.chunkCap
  /-- 10_state.md R30 -/
  padcnt_le : s.padcnt.toNat ≤ 30
  /-- 10_state.md R29 -/
  err_iff_halt : s.error.err ≠ 0 ↔ s.phase = .halt
  err_byte : s.error.err.toNat < 2 ^ 8
  /-- 10_state.md R28 -/
  ready_legal : s.ready = true → ConfLegal s.conf
  /-- 10_state.md R32, R33 -/
  idle_closed : s.phase = .idle → s.sess = Session.closed
  dec_open : s.phase = .dec → SessionOpen s

/-! ## The invariant of the tree (10_state.md R43 to R46) -/

/-- Node h of an open session hangs below its parent as `expand` made it (10_state.md R45 items 2, 3;
45_decoder.md R173). -/
def ChildOfParent (s : State) (h : Nat) : Prop :=
  (s.node h).parent.toNat < h ∧
  (s.node (s.node h).parent.toNat).cbase.toNat ≤ h ∧
  h < (s.node (s.node h).parent.toNat).cbase.toNat + fanout s ∧
  (s.node h).msg.toNat = h - (s.node (s.node h).parent.toNat).cbase.toNat ∧
  (s.node h).depth.toNat = (s.node (s.node h).parent.toNat).depth.toNat + 1 ∧
  (s.node h).spine =
    spineNext s.params.hash (s.node (s.node h).parent.toNat).spine (s.node h).msg s.conf.v.toNat ∧
  (s.node h).cost.toNat =
    (s.node (s.node h).parent.toNat).cost.toNat +
      sse s (s.node h).spine (s.node (s.node h).parent.toNat).depth.toNat

/-- An expanded node has its 2^K children in the arena, above it (10_state.md R44, R45). -/
def OwnsChildren (s : State) (h : Nat) : Prop :=
  h < (s.node h).cbase.toNat ∧
  (s.node h).cbase.toNat + fanout s ≤ s.sess.arenalen.toNat ∧
  ∀ m, m < fanout s → (s.node ((s.node h).cbase.toNat + m)).parent.toNat = h

/-- The invariant of RX, ARENA and BEAM while PHASE = DEC. -/
structure TreeInvariant (s : State) : Prop where
  /-- the received symbols are C-bit values (10_state.md R43) -/
  rx_lt : ∀ t, t < s.sess.rxlen.toNat → (s.rxWord t).toNat < 2 ^ s.conf.c.toNat
  /-- the virtual root (10_state.md R45 item 1) -/
  root_msg : (s.node 0).msg = 0
  root_spine : (s.node 0).spine = s.conf.seed
  root_cost : (s.node 0).cost = 0
  root_parent : (s.node 0).parent = Config.noneHandle
  root_depth : (s.node 0).depth = 0
  /-- every other node (10_state.md R45 items 2, 3, 5) -/
  child : ∀ h, 0 < h → h < s.sess.arenalen.toNat → ChildOfParent s h
  /-- the children of an expanded node are complete (10_state.md R44) -/
  expanded : ∀ h, h < s.sess.arenalen.toNat →
    (s.node h).cbase ≠ Config.noneHandle → OwnsChildren s h
  /-- the beam members are distinct nodes of depth STEP (10_state.md R46) -/
  beam_nodup : (beamHandles s).Nodup
  beam_lt : ∀ h ∈ beamHandles s, h < s.sess.arenalen.toNat
  beam_depth : ∀ h ∈ beamHandles s, (s.node h).depth = s.sess.step
  /-- below each beam member the tree is complete to exactly depth D (10_state.md R46) -/
  inner : ∀ h ∈ beamHandles s, ∀ j, j < s.conf.d.toNat →
    ∀ f ∈ frontier s h j, (s.node f).cbase ≠ Config.noneHandle
  leaves : ∀ h ∈ beamHandles s, ∀ f ∈ frontier s h s.conf.d.toNat,
    (s.node f).cbase = Config.noneHandle

/-- The invariants together: the registers and memories, no node listed at or beyond ARENA_CAP
(20_memory.md R60), and the tree of an open session. -/
structure WholeInvariant (s : State) : Prop where
  registers : Invariant s
  arena_fits : Bounded s.mem.arena s.params.arenaCap
  tree : s.phase = .dec → TreeInvariant s

end Sys2Proof.Machine
end

