-- ==== Sys2Proof/Certificates/Slice0/Obligations.lean ====
section
/-! DEFINITION. The statements for the provers. -/

open Sys2Proof Sys2Proof.Machine

/-! ## The spec's formulas, written out for the statements -/

namespace Sys2Proof.Claims

/-- The sum over i below w of `bit(i) * 2^(w-1-i)` (41_bitpacker.md R120, R121). -/
def bitSum (w : Nat) (bit : Nat → Nat) : Nat := ∑ i ∈ Finset.range w, bit i * 2 ^ (w - 1 - i)

/-- Stream bit t of a byte sequence given by its bytes (41_bitpacker.md R120). -/
def byteBit (byteAt : Nat → Byte) (t : Nat) : Nat := (byteAt (t / 8)).toNat / 2 ^ (7 - t % 8) % 2

/-- Entry j of `divide` at width w (41_bitpacker.md R120, the first formula). -/
def cutInt (byteAt : Nat → Byte) (w j : Nat) : Nat := bitSum w fun i => byteBit byteAt (j * w + i)

/-- Byte i of `pack` at width w (41_bitpacker.md R121, the first formula). -/
def gluedByte (intAt : Nat → Nat) (w i : Nat) : Nat :=
  bitSum 8 fun b => intAt ((8 * i + b) / w) / 2 ^ (w - 1 - (8 * i + b) % w) % 2

/-- STATUS as a number: bit 0 READY, bits 2:1 PHASE (10_state.md R26, R27). -/
def statusNat (s : State) : Nat :=
  (if s.phase = .idle then 0 else if s.phase = .dec then 2 else 4) + if s.ready = true then 1 else 0

/-- The CSR map of 10_state.md R24: every implemented address and what it reads. -/
def csrTable (s : State) : List (Nat × Word) :=
  [(0x000, s.conf.k), (0x001, s.conf.v), (0x002, s.conf.c), (0x003, s.conf.l), (0x004, s.conf.b),
   (0x005, s.conf.d), (0x006, s.conf.seed), (0x010, word (statusNat s)), (0x011, s.error.err),
   (0x012, s.error.einfo), (0x013, s.error.ecmd), (0x020, s.ilen), (0x021, s.olen),
   (0x022, s.clen), (0x023, s.padcnt), (0x030, s.sess.rxlen), (0x031, s.sess.nchunk),
   (0x032, s.sess.nsteps), (0x033, s.sess.step), (0x034, s.sess.beamlen),
   (0x035, s.sess.arenalen), (0x036, word (s.bcost.toNat % 2 ^ 32)),
   (0x037, word (s.bcost.toNat / 2 ^ 32)), (0xF00, 0x53504331)]

/-- The configuration register at a CSR address 0..6 (10_state.md R24). -/
def confAt (c : Conf) : Nat → Word
  | 0 => c.k
  | 1 => c.v
  | 2 => c.c
  | 3 => c.l
  | 4 => c.b
  | 5 => c.d
  | _ => c.seed

/-- Word w of a node record, COSTL and COSTH as halves of cost_num (10_state.md R44). -/
def nodeWordAt (n : Node) (w : Nat) : Word :=
  if w = 0 then n.msg else if w = 1 then n.spine
  else if w = 2 then word (n.cost.toNat % 2 ^ 32) else if w = 3 then word (n.cost.toNat / 2 ^ 32)
  else if w = 4 then n.parent else if w = 5 then n.cbase else if w = 6 then n.depth else 0

/-- Byte a of the padded message: IBUF below ILEN, zero from there on (44_encoder.md R159). -/
def paddedByte (s : State) (a : Nat) : Byte := if a < s.ilen.toNat then s.ibufByte a else 0

/-- `n`, the number of chunks of the padded message (44_encoder.md R160). -/
def chunkCount (s : State) : Nat :=
  8 * (s.ilen.toNat + padcount s.ilen.toNat s.conf.k.toNat) / s.conf.k.toNat

/-- `chunk[j]` of the padded message (44_encoder.md R159). -/
def chunkOf (s : State) (j : Nat) : Nat := cutInt (paddedByte s) s.conf.k.toNat j

/-- `spine[j]` (43_spinechain.md R148). -/
def spineOf (s : State) : Nat → Word
  | 0 => spineNext s.params.hash s.conf.seed (word (chunkOf s 0)) s.conf.v.toNat
  | j + 1 => spineNext s.params.hash (spineOf s j) (word (chunkOf s (j + 1))) s.conf.v.toNat

/-- `sym[t]`, pass-major: pass `t div n` of chunk `t mod n` (44_encoder.md R159). -/
def symbolOf (s : State) (t : Nat) : Nat :=
  draw (spineOf s (t % chunkCount s)) s.conf.c.toNat (t / chunkCount s)

/-- `L * n`, the number of symbols ENCODE makes. -/
def symbolCount (s : State) : Nat := s.conf.l.toNat * chunkCount s

/-- The conditions under which ENCODE executes (44_encoder.md R160), READY standing with the legal
configuration it means (10_state.md R28). -/
structure EncodeAdmits (s : State) : Prop where
  legal : s.params.Legal
  idle : s.phase = .idle
  ready : s.ready = true
  conf : ConfLegal s.conf
  aligned : symbolCount s * s.conf.c.toNat % 8 = 0
  symbols_fit : symbolCount s ≤ s.params.chunkCap
  bytes_fit : symbolCount s * s.conf.c.toNat / 8 ≤ s.params.bufCap

/-- `Ntot`, the number of received symbols (45_decoder.md R180). -/
def received (s : State) : Nat := 8 * s.ilen.toNat / s.conf.c.toNat

/-- `N`, the number of message chunks of the stream (45_decoder.md R180). -/
def streamChunks (s : State) : Nat := received s / s.conf.l.toNat

/-- `n`, the number of decoding steps (45_decoder.md R180). -/
def streamSteps (s : State) : Nat := streamChunks s - s.conf.d.toNat + 1

/-- The conditions under which DEC.INIT executes (45_decoder.md R180). -/
structure InitAdmits (s : State) : Prop where
  legal : s.params.Legal
  idle : s.phase = .idle
  ready : s.ready = true
  conf : ConfLegal s.conf
  symbols_whole : 8 * s.ilen.toNat % s.conf.c.toNat = 0
  passes_whole : received s % s.conf.l.toNat = 0
  symbols_fit : received s ≤ s.params.chunkCap
  depth_reached : 2 * s.conf.d.toNat ≤ streamChunks s + 1
  aligned : streamChunks s * s.conf.k.toNat % 8 = 0
  bytes_fit : streamChunks s * s.conf.k.toNat / 8 ≤ s.params.bufCap
  cost_fits : received s * (2 ^ s.conf.c.toNat - 1) ^ 2 < 2 ^ 64
  nodes_fit : 1 + subtreeSize s.conf.k.toNat s.conf.d.toNat ≤ s.params.arenaCap

/-- The conditions under which DEC.STEP executes (45_decoder.md R181). -/
structure StepAdmits (s : State) : Prop where
  legal : s.params.Legal
  dec : s.phase = .dec
  steps_left : s.sess.step.toNat + 1 < s.sess.nsteps.toNat
  nodes_fit : s.sess.arenalen.toNat +
    s.sess.beamlen.toNat * 2 ^ (s.conf.k.toNat * (s.conf.d.toNat + 1)) ≤ s.params.arenaCap
  cands_fit : s.sess.beamlen.toNat * 2 ^ s.conf.k.toNat ≤ s.params.candCap
  beam_fits : min s.conf.b.toNat (s.sess.beamlen.toNat * 2 ^ s.conf.k.toNat) ≤ s.params.beamCap

/-- The beam size after i steps of a session (45_decoder.md R188 item 2). -/
def beamSizeAfter (b k : Nat) : Nat → Nat
  | 0 => 1
  | i + 1 => min b (beamSizeAfter b k i * 2 ^ k)

/-- The arena size after i steps of a session (45_decoder.md R174). -/
def arenaSizeAfter (b k d : Nat) : Nat → Nat
  | 0 => 1 + subtreeSize k d
  | i + 1 => arenaSizeAfter b k d i + beamSizeAfter b k i * 2 ^ (k * (d + 1))

/-- The capacities hold every step of the session the stream asks for (45_decoder.md R174, R181). -/
structure SessionFits (s : State) : Prop where
  nodes : arenaSizeAfter s.conf.b.toNat s.conf.k.toNat s.conf.d.toNat (streamSteps s - 1) ≤
    s.params.arenaCap
  cands : ∀ i, i < streamSteps s - 1 →
    beamSizeAfter s.conf.b.toNat s.conf.k.toNat i * 2 ^ s.conf.k.toNat ≤ s.params.candCap
  beam : ∀ i, i < streamSteps s - 1 →
    beamSizeAfter s.conf.b.toNat s.conf.k.toNat (i + 1) ≤ s.params.beamCap

/-- t is s but for the session's own state: RX, ARENA, BEAM, the session CSRs and PHASE. -/
def OnlySession (s t : State) : Prop :=
  t = { s with
        sess := t.sess
        phase := t.phase
        mem := { s.mem with rx := t.mem.rx, arena := t.mem.arena, beam := t.mem.beam } }

/-- The least cost_num below a candidate subtree root: the minimum over its depth-D leaves
(45_decoder.md R183), 0 for no leaf. -/
def scoreOf (t : State) (h : Nat) : Nat :=
  (((frontier t h t.conf.d.toNat).map fun x => (t.node x).cost.toNat).min?).getD 0

/-- The distance of two symbol sequences: the sum of the squared differences below n. -/
def distance (n : Nat) (a b : Nat → Nat) : Nat := ∑ t ∈ Finset.range n, sqdiff (a t) (b t)

end Sys2Proof.Claims

open Sys2Proof.Claims

/-! ## Encoding -/

/-- Every well-formed command is read back from its word, with every operand at every value its field
admits (30_encoding.md R86 to R95). -/
def Obligations.DecodeReadsBackEveryEncodedCommand : Prop :=
  ∀ i : Instr, i.WellFormed = true → decode (encode i) = some i

/-- A legal word is the word of the command it decodes to, and that command is well formed: no bit of a
word is dropped (30_encoding.md R85 to R96). -/
def Obligations.LegalWordIsTheWordOfItsCommand : Prop :=
  ∀ (w : Word) (i : Instr), decode w = some i → i.WellFormed = true ∧ encode i = w

/-- 30_encoding.md R93: a word is a row's command if and only if `cmd & mask = opcode << 24`, and no word
matches two rows. -/
def Obligations.WordMatchesOneRowByMask : Prop :=
  (∀ w : Word, ∀ r ∈ opcodeMap, w &&& r.mask = matchValue r.opcode → decode w = some (r.build w)) ∧
  (∀ (w : Word) (i : Instr), decode w = some i →
    ∃ r ∈ opcodeMap, w &&& r.mask = matchValue r.opcode ∧ i = r.build w) ∧
  (∀ w : Word, ∀ r ∈ opcodeMap, ∀ r' ∈ opcodeMap, w &&& r.mask = matchValue r.opcode →
    w &&& r'.mask = matchValue r'.opcode → r.opcode = r'.opcode)

/-- The masks say what the formats say (30_encoding.md R86 to R92, R96): a word is illegal exactly when
its opcode is not listed or a field its format marks "zero" is not zero. -/
def Obligations.IllegalWordsAreUnlistedOpcodesAndNonzeroFields : Prop :=
  ∀ w : Word, decode w = none ↔ ¬ (
    (slice w 31 24 ∈ [0x00, 0x14, 0x38, 0x40, 0x48, 0x49, 0x4A, 0x4B, 0x4C, 0xFF] ∧
      slice w 23 0 = 0) ∨
    (slice w 31 24 ∈ [0x01, 0x02] ∧ slice w 19 16 = 0) ∨
    (slice w 31 24 ∈ [0x08, 0x09] ∧ slice w 19 12 = 0) ∨
    slice w 31 24 ∈ [0x10, 0x11, 0x12, 0x13] ∨
    (slice w 31 24 ∈ [0x20, 0x21] ∧ slice w 19 0 = 0) ∨
    (slice w 31 24 = 0x28 ∧ slice w 23 20 = 0 ∧ slice w 11 1 = 0) ∨
    (slice w 31 24 = 0x29 ∧ slice w 19 12 = 0 ∧ slice w 11 1 = 0) ∨
    (slice w 31 24 ∈ [0x30, 0x31] ∧ slice w 11 0 = 0))

/-- The worked encodings of 30_encoding.md R100, legal and illegal. -/
def Obligations.WorkedEncodingsDecode : Prop :=
  decode 0x00000000 = some .nop ∧
  decode 0x01100004 = some (.li 1 0x0004) ∧
  decode 0x0230DEAD = some (.lui 3 0xDEAD) ∧
  decode 0x09100000 = some (.csrw 1 0x000) ∧
  decode 0x08200021 = some (.csrr 2 0x021) ∧
  decode 0x11500003 = some (.stb 5 0 0 3) ∧
  decode 0x10671000 = some (.ldb 6 7 1 0) ∧
  decode 0x12424006 = some (.ldw 4 2 4 6) ∧
  decode 0x13982FFF = some (.stw 9 8 2 0xFFF) ∧
  decode 0x20100000 = some (.bpDiv 1) ∧
  decode 0x28023001 = some (.rseed 1 2 3) ∧
  decode 0x29400001 = some (.rnext 4 1) ∧
  decode 0x30312000 = some (.hash 3 1 2) ∧
  decode 0x31FF0000 = some (.spine 15 15 0) ∧
  decode 0x38000000 = some .construct ∧
  decode 0x4C000000 = some .decode ∧
  decode 0xFF000000 = some .srst ∧
  decode 0x00000001 = none ∧
  decode 0x03000000 = none ∧
  decode 0x28100000 = none

/-! ## Steps, errors and reset -/

/-- A step runs the decoded command: when the host's next event is a word that decodes to i and the
engine takes words (or the word is SRST), step is exec of i once the event has been taken (log 1). -/
def Obligations.StepRunsTheDecodedCommand : Prop :=
  ∀ (s : State) (w : Word) (i : Instr) (es : List HostEvent),
    s.pending = .command w :: es → decode w = some i → s.phase ≠ .halt ∨ i = .srst →
    step s = exec i { s with pending := es }

/-- 60_exceptions.md R211: in HALT every word but exactly 0xFF00_0000 is ignored with no change of any
state, and that word runs SRST. That the word leaves the host's event list is the model's own (log 1). -/
def Obligations.HaltIgnoresEveryWordButSrst : Prop :=
  ∀ (s : State) (w : Word) (es : List HostEvent),
    s.pending = .command w :: es → s.phase = .halt →
    (w ≠ 0xFF000000 → step s = .next { s with pending := es }) ∧
    (w = 0xFF000000 → step s = exec .srst { s with pending := es })

/-- 60_exceptions.md R212: an illegal word issued in IDLE or DEC raises E_ILLCMD(0) with ECMD the word.
The host's event list is the model's own (log 1). -/
def Obligations.IllegalWordRaisesIllcmd : Prop :=
  ∀ (s : State) (w : Word) (es : List HostEvent),
    s.pending = .command w :: es → s.phase ≠ .halt → decode w = none →
    step s = .next
      { s with pending := es, error := { err := 0x01, einfo := 0, ecmd := w }, phase := .halt }

/-- Hardware reset, from every state (70_reset_and_hazards.md R230): every X register, CSR and context at
its reset value, READY 0, PHASE IDLE. That cells of IBUF and CHUNK then read as the contents of a new
launch, and that the build's parameters and the host's later events stay, is the model's own (logs 1, 2,
4, 5). -/
def Obligations.HardwareResetSetsEveryResetValue : Prop :=
  ∀ (s : State) (es : List HostEvent), s.pending = .hardwareReset :: es →
    ∃ t, step s = .next t ∧ (∀ r, t.getX r = 0) ∧
      (∀ p ∈ csrTable t, p.1 ≠ 0xF00 → p.2 = 0) ∧
      t.ready = false ∧ t.phase = .idle ∧
      (∀ g, t.getG g = { valid := false, c := 0, state := 0 }) ∧
      (∀ a, t.ibufByte a = Config.launchByte (s.launch + 1) 0 a) ∧
      (∀ a, t.chunkWord a = Config.launchWord (s.launch + 1) 2 a) ∧
      t.params = s.params ∧ t.launch = s.launch + 1 ∧ t.pending = es

/-- The observation port shows every X register and every CSR of 10_state.md R24 (R57), in every phase. -/
def Obligations.ObservationShowsEveryRegisterAndCsr : Prop :=
  ∀ s : State, (observe s).x = s.x ∧
    (observe s).csrs.map (fun p => (csrAddr p.1, p.2)) = csrTable s

/-- With no event of the host the engine waits and holds its state (60_exceptions.md R225; log 1). -/
def Obligations.WaitingEngineHoldsItsState : Prop :=
  ∀ s : State, s.pending = [] → step s = .next s

/-- Every step of every state answers a next state: no command word in any state is without a result
(93_implementation_defined.md, introduction; 60_exceptions.md R209). -/
def Obligations.EveryStepAnswersANextState : Prop := ∀ s : State, ∃ t, step s = .next t

/-- The values of 10_state.md R50 in the reset state: every X register and CSR 0, READY 0, PHASE IDLE,
both contexts invalid with c and state 0. -/
def Obligations.ResetStateHoldsTheResetValues : Prop :=
  (∀ r, State.reset.getX r = 0) ∧ (∀ p ∈ csrTable State.reset, p.1 ≠ 0xF00 → p.2 = 0) ∧
  State.reset.ready = false ∧ State.reset.phase = .idle ∧
  (∀ g, State.reset.getG g = { valid := false, c := 0, state := 0 })

/-- 46_system.md R200, 10_state.md R51: SRST, in every phase, sets the reset values and keeps the cells of
IBUF and CHUNK. That params, launch and pending stay is the model's own (logs 1, 2, 4). -/
def Obligations.SrstSetsResetValuesAndKeepsIbufAndChunk : Prop :=
  ∀ s : State, ∃ t, exec .srst s = .next t ∧ (∀ r, t.getX r = 0) ∧
    (∀ p ∈ csrTable t, p.1 ≠ 0xF00 → p.2 = 0) ∧ t.ready = false ∧ t.phase = .idle ∧
    (∀ g, t.getG g = { valid := false, c := 0, state := 0 }) ∧
    (∀ a, t.ibufByte a = s.ibufByte a) ∧ (∀ a, t.chunkWord a = s.chunkWord a) ∧
    (∀ sp, sp ≠ .ibuf → sp ≠ .chunk → loadBound t sp = 0) ∧
    t.params = s.params ∧ t.launch = s.launch ∧ t.pending = s.pending

/-- 60_exceptions.md R210, R206: errors are precise. A command that leaves the engine in HALT has changed
nothing but ERR, EINFO, ECMD and PHASE; ECMD is its word (log 7) and ERR one of the codes of R206. -/
def Obligations.ErrorsArePrecise : Prop :=
  ∀ (i : Instr) (s t : State), s.phase ≠ .halt → exec i s = .next t → t.phase = .halt →
    t = { s with error := t.error, phase := .halt } ∧ t.error.ecmd = encode i ∧
    t.error.err.toNat ∈ [0x02, 0x03, 0x04, 0x05, 0x06, 0x07, 0x10, 0x11, 0x12, 0x13, 0x14, 0x15,
      0x16, 0x20, 0x21, 0x30]

/-- The transitions of PHASE that commands make outside HALT (10_state.md R27): a command keeps PHASE, or
an error moves it to HALT, DEC.INIT from IDLE to DEC, or DEC.TERM, DEC.ABORT or SRST from DEC to IDLE. -/
def Obligations.PhaseMovesOnlyAsTheTransitionsSay : Prop :=
  ∀ (i : Instr) (s t : State), s.phase ≠ .halt → exec i s = .next t →
    t.phase = s.phase ∨ t.phase = .halt ∨
    (s.phase = .idle ∧ t.phase = .dec ∧ i = .decInit) ∨
    (s.phase = .dec ∧ t.phase = .idle ∧ (i = .decTerm ∨ i = .decAbort ∨ i = .srst))

/-- Who writes what (10_state.md R21, R24, R25, R28 to R34, R40): a command other than SRST writes X, a
configuration CSR, READY, ILEN, OLEN, CLEN, PADCNT, the session CSRs, BCOST, the error record and a
context only where the spec names it; DEC.STEP writes only STEP, BEAMLEN and ARENALEN of the session
CSRs. -/
def Obligations.RegistersAreWrittenOnlyByTheirCommands : Prop :=
  ∀ (i : Instr) (s t : State), exec i s = .next t → i ≠ .srst →
    ((∀ r, t.getX r = s.getX r) ∨ (∃ rd imm, i = .li rd imm) ∨ (∃ rd imm, i = .lui rd imm) ∨
      (∃ rd csr, i = .csrr rd csr) ∨ (∃ rd rs1 sp off, i = .ldb rd rs1 sp off) ∨
      (∃ rd rs1 sp off, i = .ldw rd rs1 sp off) ∨ (∃ rd g, i = .rnext rd g) ∨
      (∃ rd rs1 rs2, i = .hash rd rs1 rs2) ∨ (∃ rd rs1 rs2, i = .spine rd rs1 rs2)) ∧
    (t.conf = s.conf ∨ ∃ rs csr, csr ≤ 6 ∧ i = .csrw rs csr) ∧
    (t.ready = s.ready ∨ (t.ready = true ∧ i = .construct) ∨
      (t.ready = false ∧ ∃ rs csr, csr ≤ 6 ∧ i = .csrw rs csr)) ∧
    (t.ilen = s.ilen ∨ (∃ rs, i = .csrw rs 0x020) ∨ i = .bmov) ∧
    (t.olen = s.olen ∨ (∃ rs, i = .bpPack rs) ∨ i = .encode ∨ i = .decTerm ∨ i = .decode) ∧
    (t.clen = s.clen ∨ (∃ rs, i = .csrw rs 0x022) ∨ ∃ rs, i = .bpDiv rs) ∧
    (t.sess = s.sess ∨ i = .decInit ∨ i = .decTerm ∨ i = .decAbort ∨ i = .decode ∨
      (i = .decStep ∧ t.sess = { s.sess with
        step := t.sess.step, beamlen := t.sess.beamlen, arenalen := t.sess.arenalen })) ∧
    (t.padcnt = s.padcnt ∨ i = .encode) ∧
    (t.bcost = s.bcost ∨ i = .decTerm ∨ i = .decode) ∧
    ((∀ g, t.getG g = s.getG g) ∨ (∃ g rs1 rs2, i = .rseed g rs1 rs2) ∨ ∃ rd g, i = .rnext rd g) ∧
    (t.error = s.error ∨ t.phase = .halt)

/-- Who writes which memory (10_state.md R41 to R43, R46): IBUF only STB and BMOV, OBUF only BP.PACK,
ENCODE, DEC.TERM and DECODE, CHUNK only STW and BP.DIV, RX only DEC.INIT and DECODE, ARENA and BEAM only
DEC.INIT, DEC.STEP and DECODE. That cells at and beyond the lengths of OBUF, RX, ARENA and BEAM keep
their contents too is the model's own (log 6). -/
def Obligations.MemoriesAreWrittenOnlyByTheirCommands : Prop :=
  ∀ (i : Instr) (s t : State), exec i s = .next t →
    ((∀ a, t.ibufByte a = s.ibufByte a) ∨ (∃ rs2 rs1 sp off, i = .stb rs2 rs1 sp off) ∨
      i = .bmov) ∧
    ((∀ a, t.obufByte a = s.obufByte a) ∨ (∃ rs, i = .bpPack rs) ∨ i = .encode ∨ i = .decTerm ∨
      i = .decode) ∧
    ((∀ a, t.chunkWord a = s.chunkWord a) ∨ (∃ rs2 rs1 sp off, i = .stw rs2 rs1 sp off) ∨
      ∃ rs, i = .bpDiv rs) ∧
    ((∀ a, t.rxWord a = s.rxWord a) ∨ i = .decInit ∨ i = .decode) ∧
    ((∀ a, t.arenaWord a = s.arenaWord a) ∨ i = .decInit ∨ i = .decStep ∨ i = .decode) ∧
    ((∀ a, t.beamWord a = s.beamWord a) ∨ i = .decInit ∨ i = .decStep ∨ i = .decode)

/-! ## Operand, CSR and memory commands -/

/-- 40_scalar_csr_memory.md R105: NOP does nothing. -/
def Obligations.NopChangesNothing : Prop := ∀ s : State, exec .nop s = .next s

/-- 40_scalar_csr_memory.md R106: LI writes the zero-extended immediate and nothing else. -/
def Obligations.LiWritesTheZeroExtendedImmediate : Prop :=
  ∀ (rd : Reg) (imm16 : BitVec 16) (s : State),
    ∃ t, exec (.li rd imm16) s = .next t ∧ WritesOnlyX s rd (word imm16.toNat) t

/-- 40_scalar_csr_memory.md R107: LUI replaces the upper half of its register, keeps the lower half, and
writes nothing else. -/
def Obligations.LuiReplacesTheUpperHalf : Prop :=
  ∀ (rd : Reg) (imm16 : BitVec 16) (s : State),
    ∃ t, exec (.lui rd imm16) s = .next t ∧
      WritesOnlyX s rd (word (imm16.toNat * 2 ^ 16 + (s.getX rd).toNat % 2 ^ 16)) t

/-- 40_scalar_csr_memory.md R108 over the map of 10_state.md R24: CSRR copies the CSR at an implemented
address; every other address raises E_CSR with the address. -/
def Obligations.CsrrReadsTheCsrMap : Prop :=
  ∀ (rd : Reg) (csr : Nat) (s : State),
    (∀ v, (csr, v) ∈ csrTable s → ∃ t, exec (.csrr rd csr) s = .next t ∧ WritesOnlyX s rd v t) ∧
    ((∀ v, (csr, v) ∉ csrTable s) → Raises (.csrr rd csr) s 0x02 csr)

/-- 40_scalar_csr_memory.md R109: the checks of CSRW in their order and, when all pass, the write: ILEN
and CLEN alone, or one configuration CSR and READY cleared. -/
def Obligations.CsrwChecksThenWrites : Prop :=
  ∀ (rs : Reg) (csr : Nat) (s : State),
    if csr ∉ [0, 1, 2, 3, 4, 5, 6, 0x20, 0x22] then Raises (.csrw rs csr) s 0x02 csr
    else if csr ≤ 6 ∧ s.phase = .dec then Raises (.csrw rs csr) s 0x05 (statusNat s)
    else if csr = 0x20 ∧ (s.getX rs).toNat > s.params.bufCap then
      Raises (.csrw rs csr) s 0x03 (s.getX rs).toNat
    else if csr = 0x22 ∧ (s.getX rs).toNat > s.params.chunkCap then
      Raises (.csrw rs csr) s 0x03 (s.getX rs).toNat
    else if csr = 0x20 then exec (.csrw rs csr) s = .next { s with ilen := s.getX rs }
    else if csr = 0x22 then exec (.csrw rs csr) s = .next { s with clen := s.getX rs }
    else ∃ t, exec (.csrw rs csr) s = .next t ∧ t = { s with conf := t.conf, ready := false } ∧
      SameCells s t ∧
      ∀ a, a ≤ 6 → confAt t.conf a = if a = csr then s.getX rs else confAt s.conf a

/-- 40_scalar_csr_memory.md R111: LDB loads, zero-extended, a byte of IBUF below BUF_CAP or of OBUF below
OLEN; every other access raises E_ADDR(EA mod 2^32). -/
def Obligations.LdbLoadsAnAdmittedByte : Prop :=
  ∀ (rd rs1 : Reg) (space off12 : Nat) (s : State),
    let ea := (s.getX rs1).toNat + off12
    if space = 0 ∧ ea < s.params.bufCap then
      ∃ t, exec (.ldb rd rs1 space off12) s = .next t ∧
        WritesOnlyX s rd (word (s.ibufByte ea).toNat) t
    else if space = 1 ∧ ea < s.olen.toNat then
      ∃ t, exec (.ldb rd rs1 space off12) s = .next t ∧
        WritesOnlyX s rd (word (s.obufByte ea).toNat) t
    else Raises (.ldb rd rs1 space off12) s 0x04 ea

/-- 40_scalar_csr_memory.md R113, 20_memory.md R66: LDW loads a cell of CHUNK below CHUNK_CAP, of RX
below RXLEN, of ARENA below 8 * ARENALEN (word `EA mod 8` of node `EA div 8`) or of BEAM below BEAMLEN;
every other access raises E_ADDR(EA mod 2^32). That an ARENA access at an EA of 2^32 or more is admitted when
ARENALEN is above 2^29 is the model's choice between R113 and R110 (log 17). -/
def Obligations.LdwLoadsAnAdmittedCell : Prop :=
  ∀ (rd rs1 : Reg) (space off12 : Nat) (s : State),
    let ea := (s.getX rs1).toNat + off12
    if space = 2 ∧ ea < s.params.chunkCap then
      ∃ t, exec (.ldw rd rs1 space off12) s = .next t ∧ WritesOnlyX s rd (s.chunkWord ea) t
    else if space = 3 ∧ ea < s.sess.rxlen.toNat then
      ∃ t, exec (.ldw rd rs1 space off12) s = .next t ∧ WritesOnlyX s rd (s.rxWord ea) t
    else if space = 4 ∧ ea < 8 * s.sess.arenalen.toNat then
      ∃ t, exec (.ldw rd rs1 space off12) s = .next t ∧
        WritesOnlyX s rd (nodeWordAt (s.node (ea / 8)) (ea % 8)) t
    else if space = 5 ∧ ea < s.sess.beamlen.toNat then
      ∃ t, exec (.ldw rd rs1 space off12) s = .next t ∧ WritesOnlyX s rd (s.beamWord ea) t
    else Raises (.ldw rd rs1 space off12) s 0x04 ea

/-- 40_scalar_csr_memory.md R112: STB stores the low byte of its register into IBUF at EA and changes
nothing else; every access that is not to IBUF below BUF_CAP raises E_ADDR(EA mod 2^32). -/
def Obligations.StbStoresOneByteOfIbuf : Prop :=
  ∀ (rs2 rs1 : Reg) (space off12 : Nat) (s : State),
    let ea := (s.getX rs1).toNat + off12
    if space = 0 ∧ ea < s.params.bufCap then
      ∃ t, exec (.stb rs2 rs1 space off12) s = .next t ∧
        (t.ibufByte ea).toNat = (s.getX rs2).toNat % 2 ^ 8 ∧
        SameOutside (fun sp a => sp = .ibuf ∧ a = ea) s t ∧
        t = { s with mem := { s.mem with ibuf := t.mem.ibuf } }
    else Raises (.stb rs2 rs1 space off12) s 0x04 ea

/-- 40_scalar_csr_memory.md R114: STW stores its register into CHUNK at EA and changes nothing else;
every access that is not to CHUNK below CHUNK_CAP raises E_ADDR(EA mod 2^32). -/
def Obligations.StwStoresOneCellOfChunk : Prop :=
  ∀ (rs2 rs1 : Reg) (space off12 : Nat) (s : State),
    let ea := (s.getX rs1).toNat + off12
    if space = 2 ∧ ea < s.params.chunkCap then
      ∃ t, exec (.stw rs2 rs1 space off12) s = .next t ∧
        t.chunkWord ea = s.getX rs2 ∧
        SameOutside (fun sp a => sp = .chunk ∧ a = ea) s t ∧
        t = { s with mem := { s.mem with chunk := t.mem.chunk } }
    else Raises (.stw rs2 rs1 space off12) s 0x04 ea

/-- 40_scalar_csr_memory.md R115: BMOV copies OBUF[0..OLEN) into IBUF, sets ILEN to OLEN and changes
nothing else. -/
def Obligations.BmovCopiesObufIntoIbuf : Prop :=
  ∀ s : State, ∃ t, exec .bmov s = .next t ∧ t.ilen = s.olen ∧
    (∀ a, a < s.olen.toNat → t.ibufByte a = s.obufByte a) ∧
    SameOutside (fun sp a => sp = .ibuf ∧ a < s.olen.toNat) s t ∧
    t = { s with ilen := t.ilen, mem := { s.mem with ibuf := t.mem.ibuf } }

/-! ## BitPacker -/

/-- 41_bitpacker.md R122, R120, for capacities within their bounds (00_scope.md R8): BP.DIV's checks in
their order; when they pass, entry j of CHUNK is the sum of the stream bits of its w places, CLEN is
their count, and nothing else changes. -/
def Obligations.BpDivCutsTheInputStream : Prop :=
  ∀ (rs : Reg) (s : State), s.params.Legal →
    let w := (s.getX rs).toNat
    let ilen := s.ilen.toNat
    let cnt := 8 * ilen / w
    if w < 1 ∨ w > 32 then Raises (.bpDiv rs) s 0x06 w
    else if 8 * ilen % w ≠ 0 then Raises (.bpDiv rs) s 0x20 ilen
    else if cnt > s.params.chunkCap then Raises (.bpDiv rs) s 0x30 2
    else ∃ t, exec (.bpDiv rs) s = .next t ∧ t.clen.toNat = cnt ∧
      (∀ j, j < cnt → (t.chunkWord j).toNat = cutInt s.ibufByte w j) ∧
      SameOutside (fun sp a => sp = .chunk ∧ a < cnt) s t ∧
      t = { s with clen := t.clen, mem := { s.mem with chunk := t.mem.chunk } }

/-- 41_bitpacker.md R123, R121, for capacities within their bounds (00_scope.md R8): BP.PACK's checks in
their order, E_VALUE with the least bad index; when they pass, byte i of OBUF is the sum of its eight
stream bits, OLEN their count, and nothing else changes. That OBUF at and beyond the new OLEN reads as
before is the model's own (log 6). -/
def Obligations.BpPackGluesTheOutputStream : Prop :=
  ∀ (rs : Reg) (s : State), s.params.Legal →
    let w := (s.getX rs).toNat
    let clen := s.clen.toNat
    let olen := clen * w / 8
    if w < 1 ∨ w > 32 then Raises (.bpPack rs) s 0x06 w
    else if clen * w % 8 ≠ 0 then Raises (.bpPack rs) s 0x21 clen
    else if olen > s.params.bufCap then Raises (.bpPack rs) s 0x30 1
    else
      (∀ j, j < clen → (s.chunkWord j).toNat ≥ 2 ^ w →
        (∀ j', j' < j → (s.chunkWord j').toNat < 2 ^ w) → Raises (.bpPack rs) s 0x07 j) ∧
      ((∀ j, j < clen → (s.chunkWord j).toNat < 2 ^ w) →
        ∃ t, exec (.bpPack rs) s = .next t ∧ t.olen.toNat = olen ∧
          (∀ i, i < olen →
            (t.obufByte i).toNat = gluedByte (fun j => (s.chunkWord j).toNat) w i) ∧
          SameOutside (fun sp a => sp = .obuf ∧ a < olen) s t ∧
          t = { s with olen := t.olen, mem := { s.mem with obuf := t.mem.obuf } })

/-- 41_bitpacker.md R124: the round-trip laws of divide and pack. -/
def Obligations.DivideAndPackAreInverse : Prop :=
  (∀ (xs : List Nat) (w : Nat), 1 ≤ w → w ≤ 32 → (∀ x ∈ xs, x < 2 ^ w) → xs.length * w % 8 = 0 →
    divide (pack xs w) w = xs) ∧
  (∀ (ys : List Byte) (w : Nat), 1 ≤ w → w ≤ 32 → 8 * ys.length % w = 0 →
    pack (divide ys w) w = ys) ∧
  (∀ ys : List Byte, divide ys 8 = ys.map BitVec.toNat)

/-! ## DeterministicRNG -/

/-- 42_rng.md R137: RSEED refuses c of 32 or more, else writes its context alone. -/
def Obligations.RseedConstructsItsContext : Prop :=
  ∀ (g : CtxNum) (rs1 rs2 : Reg) (s : State),
    if (s.getX rs2).toNat ≥ 32 then Raises (.rseed g rs1 rs2) s 0x06 (s.getX rs2).toNat
    else ∃ t, exec (.rseed g rs1 rs2) s = .next t ∧
      (t.getG g).valid = true ∧ (t.getG g).c.toNat = (s.getX rs2).toNat ∧
      (t.getG g).state.toNat = (s.getX rs1).toNat ^^^ 0x5DEECE66D ∧
      (∀ g', g' ≠ g → t.getG g' = s.getG g') ∧ SameCells s t ∧ t = { s with g := t.g }

/-- 42_rng.md R138: RNEXT raises E_SEQ on a context never seeded; else it steps the context's state and
writes the top c bits of the new state, and nothing else. -/
def Obligations.RnextStepsItsContext : Prop :=
  ∀ (rd : Reg) (g : CtxNum) (s : State),
    if (s.getG g).valid = false then Raises (.rnext rd g) s 0x05 (statusNat s)
    else ∃ t, exec (.rnext rd g) s = .next t ∧
      (t.getG g).state.toNat = ((s.getG g).state.toNat * 0x5DEECE66D + 0xB) % 2 ^ 48 ∧
      (t.getG g).valid = true ∧ (t.getG g).c = (s.getG g).c ∧
      (t.getX rd).toNat = (t.getG g).state.toNat / 2 ^ (48 - (s.getG g).c.toNat) ∧
      (∀ r, r ≠ rd → t.getX r = s.getX r) ∧ (∀ g', g' ≠ g → t.getG g' = s.getG g') ∧
      SameCells s t ∧ t = { s with x := t.x, g := t.g }

/-- 42_rng.md R138: the p-th RNEXT after an RSEED with (seed, c) returns draw(seed, c, p - 1), p counted
from 1, whatever the registers the draws go to. -/
def Obligations.RnextAfterRseedReturnsTheDraws : Prop :=
  ∀ (g : CtxNum) (rs1 rs2 rd : Reg) (s t u : State) (rds : List Reg),
    exec (.rseed g rs1 rs2) s = .next t → (s.getX rs2).toNat < 32 →
    rds.foldlM (m := Option) (fun st r => match exec (.rnext r g) st with
      | .next st' => some st' | _ => none) t = some u →
    ∃ v, exec (.rnext rd g) u = .next v ∧
      (v.getX rd).toNat = draw (s.getX rs1) (s.getX rs2).toNat rds.length

/-- 42_rng.md R134, R135: an output is below 2^c, and a narrower scope sees a prefix of the bits of a
wider one. -/
def Obligations.DrawsAreBoundedPrefixes : Prop :=
  ∀ (seed : Word) (c p : Nat), c ≤ 31 →
    draw seed c p < 2 ^ c ∧ draw seed c p = draw seed 31 p / 2 ^ (31 - c)

/-- 42_rng.md R132, R133: rng_init is injective on seeds and rng_step is a bijection on states. -/
def Obligations.RngInitInjectiveAndStepBijective : Prop :=
  Function.Injective rngInit ∧ Function.Bijective rngStep

/-! ## SpineChain -/

/-- 43_spinechain.md R149, R147, R145: HASH writes HASH32 of the eight little-endian bytes of its two
sources, and nothing else. -/
def Obligations.HashHashesTheLittleEndianPair : Prop :=
  ∀ (rd rs1 rs2 : Reg) (s : State), ∃ t, exec (.hash rd rs1 rs2) s = .next t ∧
    WritesOnlyX s rd
      (hash32 s.params.hash
        ((List.range 4).map (fun i => BitVec.ofNat 8 ((s.getX rs1).toNat / 256 ^ i)) ++
         (List.range 4).map (fun i => BitVec.ofNat 8 ((s.getX rs2).toNat / 256 ^ i)))) t

/-- 43_spinechain.md R150, R148: SPINE raises E_CFG_V unless V is 1..32; else it writes the hash of its
sources reduced to V bits, and nothing else. -/
def Obligations.SpineMasksTheHashToVBits : Prop :=
  ∀ (rd rs1 rs2 : Reg) (s : State),
    if s.conf.v.toNat < 1 ∨ s.conf.v.toNat > 32 then
      Raises (.spine rd rs1 rs2) s 0x11 s.conf.v.toNat
    else ∃ t, exec (.spine rd rs1 rs2) s = .next t ∧
      WritesOnlyX s rd
        (word ((hashPair s.params.hash (s.getX rs1) (s.getX rs2)).toNat % 2 ^ s.conf.v.toNat)) t

/-- 43_spinechain.md R152: the fixed point of the default hash. -/
def Obligations.DefaultHashFixesZero : Prop :=
  hash32 .oneAtATime [0, 0, 0, 0, 0, 0, 0, 0] = 0 ∧ hashPair .oneAtATime 0 0 = 0 ∧
  ∀ v, spineNext .oneAtATime 0 0 v = 0

/-! ## CONSTRUCT and the Encoder -/

/-- 44_encoder.md R156: CONSTRUCT's checks in their order, each with its code and info; when they pass
READY is set and nothing else changes. -/
def Obligations.ConstructChecksTheConfiguration : Prop :=
  ∀ s : State,
    if s.phase ≠ .idle then Raises .construct s 0x05 (statusNat s)
    else if s.conf.k.toNat < 1 ∨ s.conf.k.toNat > 31 then Raises .construct s 0x10 s.conf.k.toNat
    else if s.conf.v.toNat < 1 ∨ s.conf.v.toNat > 32 then Raises .construct s 0x11 s.conf.v.toNat
    else if s.conf.c.toNat < 1 ∨ s.conf.c.toNat > 31 then Raises .construct s 0x12 s.conf.c.toNat
    else if s.conf.l.toNat < 1 then Raises .construct s 0x13 s.conf.l.toNat
    else if s.conf.b.toNat < 1 then Raises .construct s 0x14 s.conf.b.toNat
    else if s.conf.d.toNat < 1 then Raises .construct s 0x15 s.conf.d.toNat
    else exec .construct s = .next { s with ready := true } ∧ SameCells s { s with ready := true }

/-- 44_encoder.md R158: padcount is the least count that makes the bit length a multiple of k, and is
at most 30. -/
def Obligations.PadcountIsTheLeastThatAligns : Prop :=
  ∀ mlen k : Nat, 1 ≤ k → k ≤ 31 →
    8 * (mlen + padcount mlen k) % k = 0 ∧ (∀ p, 8 * (mlen + p) % k = 0 → padcount mlen k ≤ p) ∧
    padcount mlen k ≤ 30

/-- 44_encoder.md R160, R159: when ENCODE executes, OBUF is the pass-major symbol stream of the padded
message, packed MSB-first at width C, OLEN and PADCNT are as the rule says, and nothing else changes.
That OBUF at and beyond the new OLEN reads as before is the model's own (log 6). -/
def Obligations.EncodeWritesThePackedSymbolStream : Prop :=
  ∀ s : State, EncodeAdmits s → ∃ t, exec .encode s = .next t ∧
    t.olen.toNat = symbolCount s * s.conf.c.toNat / 8 ∧
    t.padcnt.toNat = padcount s.ilen.toNat s.conf.k.toNat ∧
    (∀ i, i < symbolCount s * s.conf.c.toNat / 8 →
      (t.obufByte i).toNat = gluedByte (symbolOf s) s.conf.c.toNat i) ∧
    SameOutside (fun sp a => sp = .obuf ∧ a < symbolCount s * s.conf.c.toNat / 8) s t ∧
    t = { s with olen := t.olen, padcnt := t.padcnt, mem := { s.mem with obuf := t.mem.obuf } }

/-- 44_encoder.md R160: ENCODE's checks in their order, each with its code and info. -/
def Obligations.EncodeRaisesInOrder : Prop :=
  ∀ s : State,
    (s.phase ≠ .idle ∨ s.ready = false → Raises .encode s 0x05 (statusNat s)) ∧
    (s.phase = .idle → s.ready = true → symbolCount s * s.conf.c.toNat % 8 ≠ 0 →
      Raises .encode s 0x21 (chunkCount s)) ∧
    (s.phase = .idle → s.ready = true → symbolCount s * s.conf.c.toNat % 8 = 0 →
      symbolCount s > s.params.chunkCap → Raises .encode s 0x30 2) ∧
    (s.phase = .idle → s.ready = true → symbolCount s * s.conf.c.toNat % 8 = 0 →
      symbolCount s ≤ s.params.chunkCap → symbolCount s * s.conf.c.toNat / 8 > s.params.bufCap →
      Raises .encode s 0x30 1)

/-- 20_memory.md R82, 44_encoder.md R157, R161 item 1: the result of ENCODE depends only on
IBUF[0..ILEN), ILEN, K, V, C, L, SEED and HASH32, whatever B and D and the rest of the state. -/
def Obligations.EncodeDependsOnlyOnMessageAndConfiguration : Prop :=
  ∀ s s' t t' : State, EncodeAdmits s → EncodeAdmits s' →
    s.conf.k = s'.conf.k → s.conf.v = s'.conf.v → s.conf.c = s'.conf.c → s.conf.l = s'.conf.l →
    s.conf.seed = s'.conf.seed →
    s.params.hash = s'.params.hash → s.ilen = s'.ilen →
    (∀ a, a < s.ilen.toNat → s.ibufByte a = s'.ibufByte a) →
    exec .encode s = .next t → exec .encode s' = .next t' →
    t.olen = t'.olen ∧ t.padcnt = t'.padcnt ∧
    ∀ a, a < t.olen.toNat → t.obufByte a = t'.obufByte a

/-! ## The Decoder -/

/-- 00_scope.md R13: stable_sort_by is a permutation in ascending order in which entries of equal key
keep their order. -/
def Obligations.StableSortIsAscendingAndStable : Prop :=
  ∀ xs : List (Nat × Nat),
    (stableSortByScore xs).Perm xs ∧
    (stableSortByScore xs).Pairwise (fun a b => a.2 ≤ b.2) ∧
    ∀ k, (stableSortByScore xs).filter (fun p => p.2 == k) = xs.filter (fun p => p.2 == k)

/-- 45_decoder.md R173: expand(f) gives f its 2^K children at the handles from ARENALEN on, child m with
MSG m, the spine value and the cost the rule says, PARENT f, no children and DEPTH one more; it changes
no other node, and f only in CBASE. With V outside 1..32 or C above 31, which no session has, spineNext is
the model's own and the draws in sse are free (logs 9, 18). -/
def Obligations.ExpandMakesEveryChild : Prop :=
  ∀ (s : State) (f : Nat), s.params.Legal → f < s.sess.arenalen.toNat →
    s.sess.arenalen.toNat + fanout s ≤ s.params.arenaCap →
    (s.node f).depth.toNat + 1 < 2 ^ 32 →
    let t := expand s f
    let base := s.sess.arenalen.toNat
    t.sess.arenalen.toNat = base + fanout s ∧
    t.node f = { s.node f with cbase := s.sess.arenalen } ∧
    (∀ h, h < base → h ≠ f → t.node h = s.node h) ∧
    (∀ h, base + fanout s ≤ h → t.node h = s.node h) ∧
    ∀ m, m < fanout s →
      (t.node (base + m)).msg.toNat = m ∧
      (t.node (base + m)).spine =
        spineNext s.params.hash (s.node f).spine (word m) s.conf.v.toNat ∧
      (t.node (base + m)).cost.toNat =
        ((s.node f).cost.toNat + sse s (t.node (base + m)).spine (s.node f).depth.toNat) % 2 ^ 64 ∧
      (t.node (base + m)).parent.toNat = f ∧
      (t.node (base + m)).cbase = 0xFFFFFFFF ∧
      (t.node (base + m)).depth.toNat = (s.node f).depth.toNat + 1

/-- 45_decoder.md R180, R174: when DEC.INIT executes, RX is the received symbols, the session CSRs are as
the rule says, the tree has its 1 + S(D) nodes below the virtual root, breadth first (the depth-j nodes
are the handles 1 + S(j - 1) to S(j) in frontier(0, j) order), the beam is [0], PHASE is DEC, and nothing
outside the session changes. That cells of RX, BEAM and ARENA beyond the new lengths read as before is
the model's own (log 6). -/
def Obligations.DecInitOpensTheSession : Prop :=
  ∀ s : State, InitAdmits s → ∃ t, exec .decInit s = .next t ∧
    t.phase = .dec ∧ t.sess.rxlen.toNat = received s ∧ t.sess.nchunk.toNat = streamChunks s ∧
    t.sess.nsteps.toNat = streamSteps s ∧ t.sess.step = 0 ∧ t.sess.beamlen = 1 ∧
    t.sess.arenalen.toNat = 1 + subtreeSize s.conf.k.toNat s.conf.d.toNat ∧
    (∀ j, j < received s → (t.rxWord j).toNat = cutInt s.ibufByte s.conf.c.toNat j) ∧
    (∀ j, j < s.conf.d.toNat → frontier t 0 (j + 1) =
      (List.range (2 ^ (s.conf.k.toNat * (j + 1)))).map
        fun i => 1 + subtreeSize s.conf.k.toNat j + i) ∧
    t.beamWord 0 = 0 ∧ t.node 0 =
      { msg := 0, spine := s.conf.seed, cost := 0, parent := 0xFFFFFFFF, cbase := 1, depth := 0 } ∧
    SameOutside (fun sp a => (sp = .rx ∧ a < received s) ∨ (sp = .beam ∧ a = 0) ∨
      (sp = .arena ∧ a < 8 * (1 + subtreeSize s.conf.k.toNat s.conf.d.toNat))) s t ∧
    OnlySession s t

/-- 45_decoder.md R180: DEC.INIT's checks in their order, each with its code and info; when all pass, a
session is open. -/
def Obligations.DecInitRaisesInOrder : Prop :=
  ∀ s : State,
    if s.phase ≠ .idle ∨ s.ready = false then Raises .decInit s 0x05 (statusNat s)
    else if 8 * s.ilen.toNat % s.conf.c.toNat ≠ 0 then Raises .decInit s 0x20 s.ilen.toNat
    else if received s % s.conf.l.toNat ≠ 0 then Raises .decInit s 0x20 s.ilen.toNat
    else if received s > s.params.chunkCap then Raises .decInit s 0x30 2
    else if 2 * s.conf.d.toNat > streamChunks s + 1 then Raises .decInit s 0x16 (streamChunks s)
    else if streamChunks s * s.conf.k.toNat % 8 ≠ 0 then Raises .decInit s 0x21 (streamChunks s)
    else if streamChunks s * s.conf.k.toNat / 8 > s.params.bufCap then Raises .decInit s 0x30 1
    else if received s * (2 ^ s.conf.c.toNat - 1) ^ 2 ≥ 2 ^ 64 then Raises .decInit s 0x30 5
    else if 1 + subtreeSize s.conf.k.toNat s.conf.d.toNat > s.params.arenaCap then
      Raises .decInit s 0x30 3
    else ∃ t, exec .decInit s = .next t ∧ t.phase = .dec

/-- 45_decoder.md R181, R174: when DEC.STEP executes with D at least 1 (as READY means), STEP counts on,
the beam has min(B, candidates) entries, the arena has grown by b * 2^(K * (D + 1)) nodes, and nothing
changes but ARENA, BEAM and these three registers. That cells of OBUF, RX and BEAM at and beyond their
lengths read as before is the model's own (log 6). -/
def Obligations.DecStepAdvancesTheSession : Prop :=
  ∀ s : State, StepAdmits s → 1 ≤ s.conf.d.toNat → ∃ t, exec .decStep s = .next t ∧
    t.sess.step.toNat = s.sess.step.toNat + 1 ∧
    t.sess.beamlen.toNat = min s.conf.b.toNat (s.sess.beamlen.toNat * 2 ^ s.conf.k.toNat) ∧
    t.sess.arenalen.toNat = s.sess.arenalen.toNat +
      s.sess.beamlen.toNat * 2 ^ (s.conf.k.toNat * (s.conf.d.toNat + 1)) ∧
    SameOutside (fun sp a => sp = .arena ∨ (sp = .beam ∧ a < t.sess.beamlen.toNat)) s t ∧
    OnlySession s t ∧ t.phase = .dec ∧
    t.sess = { s.sess with
      step := t.sess.step, beamlen := t.sess.beamlen, arenalen := t.sess.arenalen }

/-- 45_decoder.md R181: DEC.STEP's checks in their order, each with its code and info; when all pass, the
session stays open. -/
def Obligations.DecStepRaisesInOrder : Prop :=
  ∀ s : State,
    let b := s.sess.beamlen.toNat
    if s.phase ≠ .dec then Raises .decStep s 0x05 (statusNat s)
    else if s.sess.nsteps.toNat ≤ s.sess.step.toNat + 1 then Raises .decStep s 0x05 (statusNat s)
    else if s.sess.arenalen.toNat + b * 2 ^ (s.conf.k.toNat * (s.conf.d.toNat + 1)) >
        s.params.arenaCap then Raises .decStep s 0x30 3
    else if b * 2 ^ s.conf.k.toNat > s.params.candCap then Raises .decStep s 0x30 4
    else if min s.conf.b.toNat (b * 2 ^ s.conf.k.toNat) > s.params.beamCap then
      Raises .decStep s 0x30 4
    else ∃ t, exec .decStep s = .next t ∧ t.phase = .dec

/-- 45_decoder.md R181 to R184, in a session that meets the invariants of 10_state.md R45 and R46: the
candidates are the children of the beam members in discovery order, each scored by the least cost of its
depth-D leaves in the grown tree; the new beam is the first min(B, count) of them in the stable order of
their scores; the nodes that are expanded, in beam order, then child order, then frontier order, get
their 2^K children at consecutive handles from ARENALEN on (R173, R181, 20_memory.md R79); and a node
that was there before is changed at most in CBASE, an expanded one not at all (R45 item 4). -/
def Obligations.DecStepKeepsTheBestCandidates : Prop :=
  ∀ s : State, StepAdmits s → WholeInvariant s → ∃ t, exec .decStep s = .next t ∧
    beamHandles t =
      ((stableSortByScore
        (((beamHandles s).flatMap (children s)).map fun h => (h, scoreOf t h))).take
          (min s.conf.b.toNat (s.sess.beamlen.toNat * fanout s))).map Prod.fst ∧
    ((((beamHandles s).flatMap (children s)).flatMap fun c => frontier s c (s.conf.d.toNat - 1)).map
        fun f => (t.node f).cbase.toNat) =
      (List.range (s.sess.beamlen.toNat * 2 ^ (s.conf.k.toNat * s.conf.d.toNat))).map
        (fun i => s.sess.arenalen.toNat + i * fanout s) ∧
    ∀ h, h < s.sess.arenalen.toNat →
      t.node h = { s.node h with cbase := (t.node h).cbase } ∧
      ((s.node h).cbase ≠ Config.noneHandle → t.node h = s.node h)

/-- 45_decoder.md R185: DEC.TERM raises E_SEQ outside a session and before its last step; else, with a
beam that is not empty and an output that fits (as DEC.INIT ensures), BCOST is the least cost_num among
the depth-D leaves of the beam, taken at the first leaf that has it; OBUF is the path of that leaf packed
at width K; OLEN is N * K div 8; the session is closed; and nothing else changes. That OBUF at and beyond
the new OLEN, and the cells of RX, ARENA and BEAM, which the closed session makes unreachable, read as
before is the model's own (log 6); so are the bytes of a path with an entry of 2^K or more, which no run
has (log 9). -/
def Obligations.DecTermWritesTheBestPath : Prop :=
  ∀ s : State,
    if s.phase ≠ .dec then Raises .decTerm s 0x05 (statusNat s)
    else if s.sess.step.toNat + 1 ≠ s.sess.nsteps.toNat then Raises .decTerm s 0x05 (statusNat s)
    else s.params.Legal → 1 ≤ s.sess.beamlen.toNat →
      s.sess.nchunk.toNat * s.conf.k.toNat / 8 ≤ s.params.bufCap →
      ∃ (t : State) (before after : List Nat) (best : Nat), exec .decTerm s = .next t ∧
      beamLeaves s = before ++ best :: after ∧
      (∀ x ∈ before, (s.node best).cost.toNat < (s.node x).cost.toNat) ∧
      (∀ x ∈ after, (s.node best).cost.toNat ≤ (s.node x).cost.toNat) ∧
      t.bcost = (s.node best).cost ∧
      (∀ a, a < (pathChunks s best).length * s.conf.k.toNat / 8 →
        (t.obufByte a).toNat =
          gluedByte (fun j => (pathChunks s best).getD j 0) s.conf.k.toNat a) ∧
      t.olen.toNat = s.sess.nchunk.toNat * s.conf.k.toNat / 8 ∧
      t.sess = { rxlen := 0, nchunk := 0, nsteps := 0, step := 0, beamlen := 0, arenalen := 0 } ∧
      t.phase = .idle ∧
      SameOutside (fun sp a => sp = .obuf ∧ a < t.olen.toNat) s t ∧
      t = { s with sess := t.sess, phase := .idle, olen := t.olen, bcost := t.bcost,
                   mem := { s.mem with obuf := t.mem.obuf } }

/-- 45_decoder.md R185 (b): in a session at its last step that meets the invariants, every depth-D leaf
of the beam has DEPTH N, and its path has exactly N entries, each below 2^K. -/
def Obligations.DecodedPathHasAllItsChunks : Prop :=
  ∀ s : State, WholeInvariant s → s.phase = .dec →
    s.sess.step.toNat + 1 = s.sess.nsteps.toNat → ∀ x ∈ beamLeaves s,
      (s.node x).depth = s.sess.nchunk ∧ (pathChunks s x).length = s.sess.nchunk.toNat ∧
      ∀ m ∈ pathChunks s x, m < fanout s

/-- 45_decoder.md R189 (b), in a session at its last step that meets the invariants: DEC.TERM executes,
and the BCOST it leaves equals the sum over all received symbols of the squared difference from the
symbol array the Encoder makes of the decoded bytes with the same K, V, C, L and SEED. -/
def Obligations.BcostIsTheReencodingDistance : Prop :=
  ∀ s : State, WholeInvariant s → s.phase = .dec →
    s.sess.step.toNat + 1 = s.sess.nsteps.toNat → ∃ t, exec .decTerm s = .next t ∧
      t.bcost.toNat = distance s.sess.rxlen.toNat (fun j => (s.rxWord j).toNat)
        (fun j => (messageSymbols s.params.hash (t.obufBytes t.olen.toNat) s.conf.k.toNat
          s.conf.v.toNat s.conf.c.toNat s.conf.l.toNat s.conf.seed).getD j 0)

/-- 45_decoder.md R186: DEC.ABORT raises E_SEQ when no session is open; else it closes the session and
changes nothing else. That the cells of RX, ARENA and BEAM, which the closed session makes unreachable,
read as before is the model's own (log 6). -/
def Obligations.DecAbortClosesTheSession : Prop :=
  ∀ s : State,
    if s.phase ≠ .dec then Raises .decAbort s 0x05 (statusNat s)
    else ∃ t, exec .decAbort s = .next t ∧ t.phase = .idle ∧
      t.sess = { rxlen := 0, nchunk := 0, nsteps := 0, step := 0, beamlen := 0, arenalen := 0 } ∧
      SameCells s t ∧ t = { s with sess := t.sess, phase := .idle }

/-- 45_decoder.md R187: DECODE is its command sequence. In IDLE or in DEC (where DEC.INIT's first check
raises E_SEQ, R180), one DECODE word that does not raise leaves the very state that the words DEC.INIT,
NSTEPS - 1 times DEC.STEP, DEC.TERM leave; one that raises ends with the error code and info at which
that sequence stops, and nothing else of the sequence kept. The event list the words stand in, and that a
failed DECODE restores unreachable cells, are the model's own (logs 1, 13). -/
def Obligations.DecodeIsItsCommandSequence : Prop :=
  ∀ (s t : State) (es : List HostEvent), Invariant s → s.phase ≠ .halt → s.pending = es →
    step { s with pending := .command 0x4C000000 :: es } = .next t →
    let words := 0x48000000 :: List.replicate (streamSteps s - 1) 0x49000000 ++ [0x4A000000]
    ∃ u, runSteps words.length { s with pending := words.map HostEvent.command ++ es } = .next u ∧
      if t.phase = .halt then
        u.phase = .halt ∧ t.error.err = u.error.err ∧ t.error.einfo = u.error.einfo ∧
        t = { s with error := { u.error with ecmd := 0x4C000000 }, phase := .halt }
      else u = t ∧ t.phase = .idle

/-- 45_decoder.md R187, R174, R188 item 2: DECODE executes when DEC.INIT would and the capacities hold
every step; then OLEN is N * K div 8, the session is closed, PHASE is IDLE, and nothing changes but OBUF
below OLEN, OLEN, BCOST and the unreachable cells of RX, ARENA and BEAM. That OBUF at and beyond the new
OLEN reads as before is the model's own (log 6). -/
def Obligations.DecodeCompletesWhenTheSessionFits : Prop :=
  ∀ s : State, InitAdmits s → SessionFits s → ∃ t, exec .decode s = .next t ∧
    t.phase = .idle ∧ t.olen.toNat = streamChunks s * s.conf.k.toNat / 8 ∧
    t.sess = { rxlen := 0, nchunk := 0, nsteps := 0, step := 0, beamlen := 0, arenalen := 0 } ∧
    SameOutside (fun sp a => sp = .rx ∨ sp = .arena ∨ sp = .beam ∨
      (sp = .obuf ∧ a < t.olen.toNat)) s t ∧
    t = { s with sess := t.sess, olen := t.olen, bcost := t.bcost, mem :=
            { s.mem with obuf := t.mem.obuf, rx := t.mem.rx, arena := t.mem.arena,
                         beam := t.mem.beam } }

/-! ## Invariants -/

/-- The invariants of the registers, the memories and the session's tree hold at reset, for the build's
default capacities and no listed cell (logs 2, 4). -/
def Obligations.InvariantsHoldAtReset : Prop := WholeInvariant State.reset

/-- Every step keeps the invariant of the registers and memories (10_state.md R28 to R33): legal
parameters while READY, ERR set exactly in HALT, lengths within their capacities, the session registers
in their relations, the memories in canonical form (log 4). -/
def Obligations.EveryStepKeepsTheInvariant : Prop :=
  ∀ s t : State, Invariant s → step s = .next t → Invariant t

/-- Every step keeps the invariants of the registers, the memories and the session's tree
(10_state.md R43 to R46): the root, every node as expand made it from its parent, complete children,
distinct beam members of depth STEP with complete subtrees of depth D. -/
def Obligations.EveryStepKeepsTheTreeInvariant : Prop :=
  ∀ s t : State, WholeInvariant s → step s = .next t → WholeInvariant t
end

