-- ==== Sys2Proof/Laws/BitPacker.lean ====
section
/-! SUPPORT. `divide` and `pack` by their entries and their bits (41_bitpacker.md R120, R121). -/

namespace Sys2Proof.Machine

/-! ## Bits to numbers -/

theorem bitsToNat_append (bs : List Bool) (b : Bool) :
    bitsToNat (bs ++ [b]) = 2 * bitsToNat bs + b.toNat := by simp [bitsToNat]

theorem bitsToNat_lt (bs : List Bool) : bitsToNat bs < 2 ^ bs.length := by
  induction bs using List.reverseRecOn with
  | nil => simp [bitsToNat]
  | append_singleton bs b ih =>
    rw [bitsToNat_append, List.length_append, List.length_singleton, Nat.pow_succ]
    have := b.toNat_le
    omega

/-- Bit `w - 1 - i` of the number spelled by w bits is the i-th of them. -/
theorem bitsToNat_testBit (w : Nat) (f : Nat → Bool) {i : Nat} (h : i < w) :
    (bitsToNat ((List.range w).map f)).testBit (w - 1 - i) = f i := by
  induction w with
  | zero => omega
  | succ w ih =>
    rw [List.range_succ, List.map_append, List.map_singleton, bitsToNat_append,
      show 2 * bitsToNat ((List.range w).map f) + (f w).toNat =
        Nat.bit (f w) (bitsToNat ((List.range w).map f)) from by rw [Nat.bit_val]]
    rcases Nat.lt_succ_iff_lt_or_eq.1 h with h' | rfl
    · rw [show w + 1 - 1 - i = (w - 1 - i) + 1 by omega, Nat.testBit_bit_succ, ih h']
    · rw [show i + 1 - 1 - i = 0 by omega, Nat.testBit_bit_zero]

/-- A number below 2^w is spelled by its own bits. -/
theorem bitsToNat_own_bits {x w : Nat} (h : x < 2 ^ w) :
    bitsToNat ((List.range w).map fun i => x.testBit (w - 1 - i)) = x := by
  refine Nat.eq_of_testBit_eq fun j => ?_
  by_cases hj : j < w
  · have := bitsToNat_testBit w (fun i => x.testBit (w - 1 - i)) (i := w - 1 - j) (by omega)
    rwa [show w - 1 - (w - 1 - j) = j by omega] at this
  · have hp : 2 ^ w ≤ 2 ^ j := Nat.pow_le_pow_right (by decide) (by omega)
    have h1 := bitsToNat_lt ((List.range w).map fun i => x.testBit (w - 1 - i))
    simp only [List.length_map, List.length_range] at h1
    rw [Nat.testBit_lt_two_pow (by omega), Nat.testBit_lt_two_pow (by omega)]

theorem bitsToNat_sum (w : Nat) (f : Nat → Bool) :
    bitsToNat ((List.range w).map f) = ∑ i ∈ Finset.range w, (f i).toNat * 2 ^ (w - 1 - i) := by
  induction w with
  | zero => rfl
  | succ w ih =>
    rw [List.range_succ, List.map_append, List.map_singleton, bitsToNat_append, ih,
      Finset.sum_range_succ, Finset.mul_sum, show w + 1 - 1 - w = 0 by omega]
    congr 1
    · refine Finset.sum_congr rfl fun i hi => ?_
      rw [Finset.mem_range] at hi
      rw [show w + 1 - 1 - i = (w - 1 - i) + 1 by omega]; ring
    · simp

/-! ## divide -/

@[simp] theorem divide_length (bytes : List Byte) (w : Nat) :
    (divide bytes w).length = 8 * bytes.length / w := by simp [divide]

theorem divide_getD (bytes : List Byte) (w j : Nat) (h : j < 8 * bytes.length / w) :
    (divide bytes w).getD j 0 =
      bitsToNat ((List.range w).map fun i => streamBit bytes (j * w + i)) := by
  rw [List.getD_eq_getElem?_getD, List.getElem?_eq_getElem (by simpa using h)]
  simp [divide]

/-- Every entry has w bits (20_memory.md R64; 44_encoder.md R160 rationale). -/
theorem divide_lt {bytes : List Byte} {w x : Nat} (h : x ∈ divide bytes w) : x < 2 ^ w := by
  simp only [divide, List.mem_map] at h
  obtain ⟨j, -, rfl⟩ := h
  simpa using bitsToNat_lt ((List.range w).map fun i => streamBit bytes (j * w + i))

/-! ## pack -/

@[simp] theorem pack_length (ints : List Nat) (w : Nat) :
    (pack ints w).length = ints.length * w / 8 := by simp [pack]

theorem pack_getD (ints : List Nat) (w i : Nat) (h : i < ints.length * w / 8) :
    (pack ints w).getD i 0 =
      BitVec.ofNat 8 (bitsToNat ((List.range 8).map fun b => packedBit ints w (8 * i + b))) := by
  rw [List.getD_eq_getElem?_getD, List.getElem?_eq_getElem (by simpa using h)]
  simp [pack]

/-- Stream bit t of the packed bytes is the bit that was packed there. -/
theorem streamBit_pack (ints : List Nat) (w t : Nat) (h : t < 8 * (ints.length * w / 8)) :
    streamBit (pack ints w) t = packedBit ints w t := by
  rw [streamBit, pack_getD _ _ _ (by omega), BitVec.getLsbD_ofNat,
    show 7 - t % 8 = 8 - 1 - t % 8 by omega,
    bitsToNat_testBit 8 (fun b => packedBit ints w (8 * (t / 8) + b)) (by omega),
    show 8 * (t / 8) + t % 8 = t by omega]
  simp; omega

/-- Bit t of the integers `divide` makes is the stream bit it was cut from. -/
theorem packedBit_divide (bytes : List Byte) (w t : Nat) (h : t < 8 * bytes.length / w * w) :
    packedBit (divide bytes w) w t = streamBit bytes t := by
  have hw : 0 < w := by
    rcases Nat.eq_zero_or_pos w with rfl | hw
    · simp at h
    · exact hw
  have hm : t % w < w := Nat.mod_lt _ hw
  rw [packedBit, divide_getD _ _ _ ((Nat.div_lt_iff_lt_mul hw).2 h),
    bitsToNat_testBit w (fun i => streamBit bytes (t / w * w + i)) hm, Nat.div_add_mod']

end Sys2Proof.Machine
end

