-- ==== Sys2Proof/Laws/Encoder.lean ====
section
/-! SUPPORT. The spine chain and the symbol array by their entries (43_spinechain.md R148,
44_encoder.md R159). -/

namespace Sys2Proof.Machine

@[simp] theorem spineChain_length (hp : Config.HashPrimitive) (v : Nat) (seed : Word)
    (ms : List Nat) : (spineChain hp v seed ms).length = ms.length := by
  induction ms generalizing seed with
  | nil => rfl
  | cons m ms ih => simp [spineChain, ih]

theorem spineChain_append (hp : Config.HashPrimitive) (v : Nat) (seed : Word) (xs ys : List Nat) :
    spineChain hp v seed (xs ++ ys) =
      spineChain hp v seed xs ++ spineChain hp v ((spineChain hp v seed xs).getLastD seed) ys := by
  induction xs generalizing seed with
  | nil => rfl
  | cons m ms ih =>
    simp only [List.cons_append, spineChain, ih, List.getLastD_cons]

/-- The first spine value follows the seed; each later one follows the one before it. -/
theorem spineChain_getD_zero (hp : Config.HashPrimitive) (v : Nat) (seed : Word) (ms : List Nat)
    (h : 0 < ms.length) :
    (spineChain hp v seed ms).getD 0 0 = spineNext hp seed (word (ms.getD 0 0)) v := by
  cases ms with
  | nil => simp at h
  | cons m ms => rfl

theorem spineChain_getD_succ (hp : Config.HashPrimitive) (v : Nat) (seed : Word) (ms : List Nat)
    (j : Nat) (h : j + 1 < ms.length) :
    (spineChain hp v seed ms).getD (j + 1) 0 =
      spineNext hp ((spineChain hp v seed ms).getD j 0) (word (ms.getD (j + 1) 0)) v := by
  induction ms generalizing seed j with
  | nil => simp at h
  | cons m ms ih =>
    cases j with
    | zero => simpa [spineChain] using spineChain_getD_zero hp v _ ms (by simpa using h)
    | succ j => simpa [spineChain] using ih _ j (by simpa using h)

@[simp] theorem symbols_length (spines : List Word) (c l : Nat) :
    (symbols spines c l).length = l * spines.length := by
  simp [symbols, List.length_flatMap]

/-- The output of a generator of a scope the spec gives (42_rng.md R134). -/
theorem rngOut_eq_div (s : RngWord) {c : Nat} (hc : c ≤ 31) : rngOut s c = s.toNat / 2 ^ (48 - c) := by
  rw [rngOut, if_pos hc, Nat.shiftRight_eq_div_pow]

/-- Symbol `p * n + j` is draw p of the generator of spine j. -/
theorem symbols_getD (spines : List Word) (c l t : Nat) (h : t < l * spines.length) :
    (symbols spines c l).getD t 0 =
      draw (spines.getD (t % spines.length) 0) c (t / spines.length) := by
  have hn : 0 < spines.length := by
    rcases Nat.eq_zero_or_pos spines.length with h0 | h0
    · rw [h0] at h; omega
    · exact h0
  induction l with
  | zero => omega
  | succ l ih =>
    have hs : symbols spines c (l + 1) =
        symbols spines c l ++ spines.map fun sp => draw sp c l := by
      simp [symbols, List.range_succ]
    rw [hs, List.getD_eq_getElem?_getD]
    by_cases hlt : t < l * spines.length
    · rw [List.getElem?_append_left (by simpa using hlt), ← List.getD_eq_getElem?_getD, ih hlt]
    · rw [List.getElem?_append_right (by simpa using hlt), symbols_length, Nat.add_mul] at *
      have hm : t - l * spines.length < spines.length := by omega
      have ht : t = spines.length * l + (t - l * spines.length) := by
        rw [Nat.mul_comm spines.length l]; omega
      have h1 : t % spines.length = t - l * spines.length := by
        conv_lhs => rw [ht]
        rw [Nat.mul_add_mod, Nat.mod_eq_of_lt hm]
      have h2 : t / spines.length = l := by
        conv_lhs => rw [ht]
        rw [Nat.mul_add_div hn, Nat.div_eq_of_lt hm, Nat.add_zero]
      rw [h1, h2, List.getElem?_map, List.getElem?_eq_getElem hm, List.getD_eq_getElem?_getD,
        List.getElem?_eq_getElem hm]
      rfl

end Sys2Proof.Machine
end

