-- ==== Sys2Proof/Laws/Decoder.lean ====
section
/-! SUPPORT. What growing the tree can do: one node, a list of nodes, level after level, a whole pruning
step (45_decoder.md R173, R180 to R183). -/

namespace Sys2Proof.Machine

/-! ## Growing the tree touches nothing else -/

/-- t is s but for the arena and ARENALEN. -/
def OnlyTree (s t : State) : Prop :=
  t = { s with mem := { s.mem with arena := t.mem.arena }
               sess := { s.sess with arenalen := t.sess.arenalen } }

theorem OnlyTree.refl (s : State) : OnlyTree s s := rfl

theorem OnlyTree.trans {s t u : State} (h : OnlyTree s t) (h' : OnlyTree t u) : OnlyTree s u := by
  unfold OnlyTree at h h' ⊢
  rw [h', h]

theorem OnlyTree.of_eq {s t : State} (arena : CellMap Node) (len : Word)
    (h : t = { s with mem := { s.mem with arena := arena }
                      sess := { s.sess with arenalen := len } }) : OnlyTree s t := by
  subst h; rfl

section
variable {s t : State} (h : OnlyTree s t)
include h
theorem OnlyTree.conf : t.conf = s.conf := by rw [h]
theorem OnlyTree.params : t.params = s.params := by rw [h]
theorem OnlyTree.launch : t.launch = s.launch := by rw [h]
theorem OnlyTree.phase : t.phase = s.phase := by rw [h]
theorem OnlyTree.nchunk : t.sess.nchunk = s.sess.nchunk := by rw [h]
theorem OnlyTree.nsteps : t.sess.nsteps = s.sess.nsteps := by rw [h]
theorem OnlyTree.rxlen : t.sess.rxlen = s.sess.rxlen := by rw [h]
theorem OnlyTree.step : t.sess.step = s.sess.step := by rw [h]
theorem OnlyTree.beamlen : t.sess.beamlen = s.sess.beamlen := by rw [h]
theorem OnlyTree.rx : t.mem.rx = s.mem.rx := by rw [h]
theorem OnlyTree.beam : t.mem.beam = s.mem.beam := by rw [h]
theorem OnlyTree.fanout : fanout t = fanout s := by unfold Machine.fanout; rw [h.conf]
theorem OnlyTree.rxWord : t.rxWord = s.rxWord := by
  funext a; unfold State.rxWord; rw [h.rx, h.launch]
theorem OnlyTree.beamWord : t.beamWord = s.beamWord := by
  funext a; unfold State.beamWord; rw [h.beam, h.launch]
theorem OnlyTree.sse : sse t = Machine.sse s := by
  funext sp pos; unfold Machine.sse; rw [h.conf, h.nchunk, h.rxWord]
theorem OnlyTree.beamHandles : beamHandles t = Machine.beamHandles s := by
  unfold Machine.beamHandles; rw [h.beamlen, h.beamWord]
theorem OnlyTree.childNode {f : Nat} (hf : t.node f = s.node f) :
    childNode t f = Machine.childNode s f := by
  funext m; unfold Machine.childNode; rw [hf, h.params, h.conf, h.sse]
end

/-! ## One node -/

/-- Everything `expand` can do. -/
theorem expand_onlyTree (s : State) (f : Nat) : OnlyTree s (expand s f) :=
  .of_eq _ _ rfl

theorem node_setCbase (s : State) (f : Nat) (b : Word) (h : Nat) :
    (setCbase s f b).node h = if h = f then { s.node f with cbase := b } else s.node h := by
  rw [setCbase, node_putNodes]
  by_cases hh : h = f
  · subst hh; simp
  · rw [if_neg (by simp only [List.length_singleton]; omega), if_neg hh]

theorem expand_arenalen (s : State) (f : Nat) :
    (expand s f).sess.arenalen = word (s.sess.arenalen.toNat + fanout s) := rfl

theorem expand_node (s : State) {f : Nat} (hf : f < s.sess.arenalen.toNat) (h : Nat) :
    (expand s f).node h =
      if h = f then { s.node f with cbase := s.sess.arenalen }
      else if s.sess.arenalen.toNat ≤ h ∧ h < s.sess.arenalen.toNat + fanout s then
        childNode s f (h - s.sess.arenalen.toNat)
      else s.node h := by
  have hlen : ((List.range (fanout s)).map (childNode s f)).length = fanout s := by simp
  have hs1 : ∀ c, (s.putNodes s.sess.arenalen.toNat
      ((List.range (fanout s)).map (childNode s f))).node c =
        if s.sess.arenalen.toNat ≤ c ∧ c < s.sess.arenalen.toNat + fanout s then
          childNode s f (c - s.sess.arenalen.toNat) else s.node c := by
    intro c
    rw [node_putNodes, hlen]
    split
    next hc =>
      rw [List.getD_eq_getElem?_getD, List.getElem?_eq_getElem (by rw [hlen]; omega)]
      simp
    next => rfl
  show (setCbase (s.putNodes s.sess.arenalen.toNat ((List.range (fanout s)).map (childNode s f))) f
    (word s.sess.arenalen.toNat)).node h = _
  have hw : word s.sess.arenalen.toNat = s.sess.arenalen := by simp [word]
  have hf1 := hs1 f
  rw [if_neg (by omega)] at hf1
  rw [node_setCbase, hw, hf1, hs1 h]

/-! ## A list of nodes, levels, a pruning step: only the tree -/

theorem expandAll_onlyTree (s : State) (fs : List Nat) : OnlyTree s (expandAll s fs).1 := by
  induction fs generalizing s with
  | nil => exact .refl s
  | cons f fs ih => exact (expand_onlyTree s f).trans (ih _)

theorem growLevels_onlyTree (d : Nat) (s : State) (fs : List Nat) :
    OnlyTree s (growLevels d s fs).1 := by
  induction d generalizing s fs with
  | zero => exact .refl s
  | succ d ih => exact (expandAll_onlyTree s fs).trans (ih _ _)

theorem scoreChildren_onlyTree (s : State) (ts : List Nat) :
    OnlyTree s (scoreChildren s ts).1 := by
  induction ts generalizing s with
  | nil => exact .refl s
  | cons t ts ih => exact (expandAll_onlyTree s _).trans (ih _)

theorem scoreBeam_onlyTree (s : State) (hs : List Nat) : OnlyTree s (scoreBeam s hs).1 := by
  induction hs generalizing s with
  | nil => exact .refl s
  | cons t ts ih => exact (scoreChildren_onlyTree s _).trans (ih _)

/-! ## Counts, in every state -/

@[simp] theorem children_length (s : State) (h : Nat) : (children s h).length = fanout s := by
  simp [children]

theorem fanout_pow (s : State) (j : Nat) : fanout s ^ j = 2 ^ (s.conf.k.toNat * j) := by
  rw [fanout, ← pow_mul]

/-- The depth-j frontier of a node has `(2^K)^j` entries (45_decoder.md R172). -/
theorem frontier_length (s : State) (h j : Nat) : (frontier s h j).length = fanout s ^ j := by
  induction j generalizing h with
  | zero => rfl
  | succ j ih =>
    have : List.map (fun c => (frontier s c j).length) (children s h) =
        List.map (fun _ => fanout s ^ j) (children s h) :=
      List.map_congr_left fun c _ => ih c
    rw [frontier, List.length_flatMap, this, List.map_const', List.sum_replicate, children_length,
      smul_eq_mul, pow_succ, Nat.mul_comm]

theorem expandAll_length (s : State) (fs : List Nat) :
    (expandAll s fs).2.length = fs.length * fanout s := by
  induction fs generalizing s with
  | nil => simp [expandAll]
  | cons f fs ih =>
    simp only [expandAll, List.length_append, children_length, ih, List.length_cons,
      (expand_onlyTree s f).fanout]
    ring

/-- ARENALEN counts the nodes made, mod 2^32. -/
theorem expandAll_arenalen (s : State) (fs : List Nat) :
    (expandAll s fs).1.sess.arenalen = word (s.sess.arenalen.toNat + fs.length * fanout s) := by
  induction fs generalizing s with
  | nil => simp [expandAll, word]
  | cons f fs ih =>
    simp only [expandAll, ih, expand_arenalen, (expand_onlyTree s f).fanout, List.length_cons]
    apply BitVec.eq_of_toNat_eq
    simp only [word, BitVec.toNat_ofNat, Nat.mod_add_mod]
    congr 1; ring

theorem scoreChildren_length (s : State) (ts : List Nat) :
    (scoreChildren s ts).2.length = ts.length := by
  induction ts generalizing s with
  | nil => rfl
  | cons t ts ih => simp [scoreChildren, ih]

theorem scoreChildren_arenalen (s : State) (ts : List Nat) :
    (scoreChildren s ts).1.sess.arenalen =
      word (s.sess.arenalen.toNat +
        ts.length * (fanout s ^ (s.conf.d.toNat - 1) * fanout s)) := by
  induction ts generalizing s with
  | nil => simp [scoreChildren, word]
  | cons t ts ih =>
    have ho := expandAll_onlyTree s (frontier s t (s.conf.d.toNat - 1))
    simp only [scoreChildren, scoreChild, ih, expandAll_arenalen, ho.fanout, ho.conf,
      List.length_cons, frontier_length]
    apply BitVec.eq_of_toNat_eq
    simp only [word, BitVec.toNat_ofNat, Nat.mod_add_mod]
    congr 1; ring

theorem scoreBeam_length (s : State) (hs : List Nat) :
    (scoreBeam s hs).2.length = hs.length * fanout s := by
  induction hs generalizing s with
  | nil => simp [scoreBeam]
  | cons t ts ih =>
    simp only [scoreBeam, List.length_append, scoreChildren_length, children_length, ih,
      (scoreChildren_onlyTree s _).fanout, List.length_cons]
    ring

theorem scoreBeam_arenalen (s : State) (hs : List Nat) :
    (scoreBeam s hs).1.sess.arenalen =
      word (s.sess.arenalen.toNat +
        hs.length * (fanout s * (fanout s ^ (s.conf.d.toNat - 1) * fanout s))) := by
  induction hs generalizing s with
  | nil => simp [scoreBeam, word]
  | cons t ts ih =>
    have ho := scoreChildren_onlyTree s (children s t)
    simp only [scoreBeam, ih, scoreChildren_arenalen, ho.fanout, ho.conf, children_length,
      List.length_cons]
    apply BitVec.eq_of_toNat_eq
    simp only [word, BitVec.toNat_ofNat, Nat.mod_add_mod]
    congr 1; ring

/-- Everything PRUNE can do. -/
theorem prune_eq (s : State) (cands : List (Nat × Nat)) :
    let keep := min s.conf.b.toNat cands.length
    let kept := ((stableSortByScore cands).take keep).map fun cand => word cand.1
    prune s cands =
      { s with
        mem := { s.mem with beam := putCells s.mem.beam 0 kept }
        sess := { s.sess with beamlen := word keep, step := s.sess.step + 1 } } := rfl

theorem prune_kept_length (s : State) (cands : List (Nat × Nat)) :
    (((stableSortByScore cands).take (min s.conf.b.toNat cands.length)).map
      fun cand => word cand.1).length = min s.conf.b.toNat cands.length := by
  simp [stableSortByScore, List.length_insertionSort]

@[simp] theorem beamHandles_length (s : State) :
    (beamHandles s).length = s.sess.beamlen.toNat := by simp [beamHandles]

/-- The size of a subtree by its first level. -/
theorem subtreeSize_succ (k d : Nat) : subtreeSize k (d + 1) = 2 ^ k * (1 + subtreeSize k d) := by
  induction d with
  | zero => simp [subtreeSize]
  | succ d ih =>
    have e1 : subtreeSize k (d + 1 + 1) = subtreeSize k (d + 1) + 2 ^ (k * (d + 1 + 1)) := rfl
    have e2 : subtreeSize k (d + 1) = subtreeSize k d + 2 ^ (k * (d + 1)) := rfl
    rw [e1, show k * (d + 1 + 1) = k + k * (d + 1) by ring, pow_add]
    conv_lhs => rw [ih]
    rw [e2]; ring

theorem growLevels_arenalen (d : Nat) (s : State) (fs : List Nat) :
    (growLevels d s fs).1.sess.arenalen =
      word (s.sess.arenalen.toNat + fs.length * subtreeSize s.conf.k.toNat d) := by
  induction d generalizing s fs with
  | zero => simp [growLevels, subtreeSize, word]
  | succ d ih =>
    have ho := expandAll_onlyTree s fs
    simp only [growLevels, ih, expandAll_arenalen, expandAll_length, ho.conf, subtreeSize_succ, fanout]
    apply BitVec.eq_of_toNat_eq
    simp only [word, BitVec.toNat_ofNat, Nat.mod_add_mod]
    congr 1; ring

/-! ## The best leaf and its path -/

/-- The best leaf stands first among the leaves of least cost. -/
theorem bestLeaf_spec (s : State) {xs : List Nat} (h : xs ≠ []) :
    ∃ before after, xs = before ++ bestLeaf s xs :: after ∧
      (∀ x ∈ before, (s.node (bestLeaf s xs)).cost.toNat < (s.node x).cost.toNat) ∧
      ∀ x ∈ after, (s.node (bestLeaf s xs)).cost.toNat ≤ (s.node x).cost.toNat := by
  have key : ∀ (ys pre mid : List Nat) (b : Nat),
      (∀ x ∈ pre, (s.node b).cost.toNat < (s.node x).cost.toNat) →
      (∀ x ∈ mid, (s.node b).cost.toNat ≤ (s.node x).cost.toNat) →
      let r := ys.foldl (fun best y =>
        if (s.node y).cost.toNat < (s.node best).cost.toNat then y else best) b
      ∃ before after, pre ++ b :: (mid ++ ys) = before ++ r :: after ∧
        (∀ x ∈ before, (s.node r).cost.toNat < (s.node x).cost.toNat) ∧
        ∀ x ∈ after, (s.node r).cost.toNat ≤ (s.node x).cost.toNat := by
    intro ys
    induction ys with
    | nil => intro pre mid b h1 h2; exact ⟨pre, mid, by simp, h1, h2⟩
    | cons y ys ih =>
      intro pre mid b h1 h2
      by_cases hy : (s.node y).cost.toNat < (s.node b).cost.toNat
      · have := ih (pre ++ b :: mid) [] y (by
          intro x hx
          simp only [List.mem_append, List.mem_cons] at hx
          rcases hx with hx | rfl | hx
          · have := h1 x hx; omega
          · exact hy
          · have := h2 x hx; omega) (by simp)
        simp only [List.foldl_cons, hy, if_true]
        simpa using this
      · have := ih pre (mid ++ [y]) b h1 (by
          intro x hx
          simp only [List.mem_append, List.mem_singleton] at hx
          rcases hx with hx | rfl
          · exact h2 x hx
          · omega)
        simp only [List.foldl_cons, hy, if_false]
        simpa using this
  cases xs with
  | nil => exact absurd rfl h
  | cons x xs => simpa [bestLeaf] using key xs [] [] x (by simp) (by simp)

theorem backtrack_length (s : State) (fuel h : Nat) : (backtrack s fuel h).length ≤ fuel := by
  induction fuel generalizing h with
  | zero => simp [backtrack]
  | succ fuel ih =>
    rw [backtrack]
    split
    · simp
    · simpa using ih _

theorem pathChunks_length (s : State) (leaf : Nat) :
    (pathChunks s leaf).length ≤ s.sess.nchunk.toNat := by
  simpa [pathChunks] using backtrack_length s s.sess.nchunk.toNat leaf

theorem beamLeaves_ne_nil {s : State} (h : 1 ≤ s.sess.beamlen.toNat) : beamLeaves s ≠ [] := by
  intro hn
  have hl : (beamLeaves s).length = s.sess.beamlen.toNat * fanout s ^ s.conf.d.toNat := by
    simp [beamLeaves, List.length_flatMap, frontier_length]
  have : 1 ≤ fanout s ^ s.conf.d.toNat := by rw [fanout_pow]; exact Nat.one_le_two_pow
  rw [hn, List.length_nil] at hl
  have := Nat.mul_le_mul h this
  omega

end Sys2Proof.Machine
end

