-- ==== Sys2Proof/Laws/Tree.lean ====
section
/-! SUPPORT. The tree by its nodes: what expanding a list of nodes makes, frontiers level by level, and
EXPAND and SCORE of a whole pruning step as one expansion of all the leaves (45_decoder.md R181 to
R183). -/

namespace Sys2Proof.Machine

/-! ## Frontiers -/

/-- A frontier is the children of the frontier one level above it. -/
theorem frontier_succ (s : State) (h j : Nat) :
    frontier s h (j + 1) = (frontier s h j).flatMap (children s) := by
  induction j generalizing h with
  | zero => simp [frontier]
  | succ j ih =>
    have : (fun c => frontier s c (j + 1)) = fun c => (frontier s c j).flatMap (children s) :=
      funext fun c => ih c
    rw [frontier, this, frontier, List.flatMap_assoc]

theorem children_congr {s t : State} (hc : fanout t = fanout s) {f : Nat}
    (hf : (t.node f).cbase = (s.node f).cbase) : children t f = children s f := by
  rw [children, children, hc, hf]

/-- A frontier depends only on the CBASE of the nodes above it. -/
theorem frontier_congr {s t : State} (hc : fanout t = fanout s) {h j : Nat}
    (hf : ∀ i, i < j → ∀ f ∈ frontier s h i, (t.node f).cbase = (s.node f).cbase) :
    frontier t h j = frontier s h j := by
  induction j with
  | zero => rfl
  | succ j ih =>
    rw [frontier_succ, frontier_succ, ih fun i hi => hf i (by omega)]
    exact List.flatMap_congr fun f hm => children_congr hc (hf j (by omega) f hm)

/-! ## Expanding a list of nodes -/

theorem expandAll_append (s : State) (fs gs : List Nat) :
    expandAll s (fs ++ gs) =
      ((expandAll (expandAll s fs).1 gs).1,
        (expandAll s fs).2 ++ (expandAll (expandAll s fs).1 gs).2) := by
  induction fs generalizing s with
  | nil => rfl
  | cons f fs ih => simp only [List.cons_append, expandAll, ih, List.append_assoc]

/-- f has got its 2^K children in t, as `expand` makes them, at handles from `lo` on and below `hi`. -/
def MadeChildren (s t : State) (lo hi f : Nat) : Prop :=
  ∃ base, lo ≤ base ∧ base + fanout s ≤ hi ∧
    t.node f = { s.node f with cbase := word base } ∧
    ∀ m, m < fanout s → t.node (base + m) = childNode s f m

/-- Everything expanding a list of distinct nodes does to the nodes. -/
theorem expandAll_spec (s : State) (fs : List Nat) (hlt : ∀ f ∈ fs, f < s.sess.arenalen.toNat)
    (hnd : fs.Nodup) (hfit : s.sess.arenalen.toNat + fs.length * fanout s < 2 ^ 32) :
    (expandAll s fs).2 = fs.flatMap (children (expandAll s fs).1) ∧
    (∀ h, h ∉ fs → h < s.sess.arenalen.toNat ∨
        s.sess.arenalen.toNat + fs.length * fanout s ≤ h →
      (expandAll s fs).1.node h = s.node h) ∧
    ∀ f ∈ fs, MadeChildren s (expandAll s fs).1 s.sess.arenalen.toNat
      (s.sess.arenalen.toNat + fs.length * fanout s) f := by
  induction fs generalizing s with
  | nil => simp [expandAll]
  | cons f fs ih =>
    have ho := expand_onlyTree s f
    obtain ⟨hfs, hnd⟩ := List.nodup_cons.1 hnd
    have hf := hlt f List.mem_cons_self
    have hnode := expand_node s hf
    simp only [List.length_cons, Nat.add_mul, Nat.one_mul] at hfit ⊢
    have hlen : (expand s f).sess.arenalen.toNat = s.sess.arenalen.toNat + fanout s := by
      rw [expand_arenalen]
      simp only [word, BitVec.toNat_ofNat]
      exact Nat.mod_eq_of_lt (by omega)
    have hlt' : ∀ g ∈ fs, g < s.sess.arenalen.toNat := fun g hg => hlt g (List.mem_cons_of_mem _ hg)
    obtain ⟨h1, h2, h3⟩ := ih (expand s f)
      (fun g hg => by have := hlt' g hg; omega) hnd (by rw [hlen, ho.fanout]; omega)
    rw [hlen, ho.fanout] at h2 h3
    have hro := expandAll_onlyTree (expand s f) fs
    have hff : (expandAll (expand s f) fs).1.node f = (expand s f).node f := h2 f hfs (by omega)
    refine ⟨?_, ?_, ?_⟩
    · simp only [expandAll, List.flatMap_cons, h1]
      rw [children_congr hro.fanout (by rw [hff])]
    · intro h hh hr
      simp only [List.mem_cons, not_or] at hh
      simp only [expandAll]
      rw [h2 h hh.2 (by omega), hnode, if_neg hh.1, if_neg (by omega)]
    · intro g hg
      simp only [expandAll]
      rcases List.mem_cons.1 hg with rfl | hg
      · refine ⟨s.sess.arenalen.toNat, Nat.le_refl _, by omega, ?_, fun m hm => ?_⟩
        · rw [hff, hnode, if_pos rfl]; simp [word]
        · have hn : s.sess.arenalen.toNat + m ∉ fs := fun hc => by have := hlt' _ hc; omega
          rw [h2 _ hn (by omega), hnode, if_neg (by omega), if_pos (by omega)]
          simp
      · obtain ⟨base, hb1, hb2, hb3, hb4⟩ := h3 g hg
        have hgf : g ≠ f := fun e => hfs (e ▸ hg)
        have hgn : (expand s f).node g = s.node g := by
          rw [hnode, if_neg hgf, if_neg (by have := hlt' g hg; omega)]
        rw [ho.fanout] at hb2 hb4
        exact ⟨base, by omega, by omega, by rw [hb3, hgn], fun m hm => by
          rw [hb4 m hm, ho.childNode hgn]⟩

/-! ## EXPAND and SCORE as one expansion -/

/-- The depth-d frontiers of a list of nodes, one after the other. -/
def frontiers (s : State) (ts : List Nat) (d : Nat) : List Nat := ts.flatMap fun t => frontier s t d

/-- Below every node of ts the tree is complete to exactly depth d, and the leaves are distinct. -/
structure Complete (s : State) (ts : List Nat) (d : Nat) : Prop where
  lt : ∀ t ∈ ts, ∀ i, i ≤ d → ∀ f ∈ frontier s t i, f < s.sess.arenalen.toNat
  inner : ∀ t ∈ ts, ∀ i, i < d → ∀ f ∈ frontier s t i, (s.node f).cbase ≠ Config.noneHandle
  leaves : ∀ t ∈ ts, ∀ f ∈ frontier s t d, (s.node f).cbase = Config.noneHandle
  nodup : (frontiers s ts d).Nodup

/-- A complete tree below ts, and there is room for its leaves' children. -/
structure Grown (s : State) (ts : List Nat) (d : Nat) : Prop extends Complete s ts d where
  fits : s.sess.arenalen.toNat + (frontiers s ts d).length * fanout s < 2 ^ 32

theorem frontiers_append (s : State) (as bs : List Nat) (d : Nat) :
    frontiers s (as ++ bs) d = frontiers s as d ++ frontiers s bs d := List.flatMap_append

theorem mem_frontiers {s : State} {ts : List Nat} {d x : Nat} :
    x ∈ frontiers s ts d ↔ ∃ t ∈ ts, x ∈ frontier s t d := List.mem_flatMap

section
variable {s : State} {as bs : List Nat} {d : Nat}

theorem Grown.left (h : Grown s (as ++ bs) d) : Grown s as d where
  lt t ht := h.lt t (List.mem_append_left _ ht)
  inner t ht := h.inner t (List.mem_append_left _ ht)
  leaves t ht := h.leaves t (List.mem_append_left _ ht)
  nodup := by
    have := h.nodup
    rw [frontiers_append] at this
    exact this.of_append_left
  fits := by
    have := h.fits
    rw [frontiers_append, List.length_append, Nat.add_mul] at this
    omega

theorem Grown.frontiers_lt (h : Grown s as d) : ∀ f ∈ frontiers s as d, f < s.sess.arenalen.toNat := by
  intro f hf
  obtain ⟨t, ht, hf⟩ := mem_frontiers.1 hf
  exact h.lt t ht d (Nat.le_refl _) f hf

/-- What expanding all the leaves does (expandAll_spec). -/
theorem Grown.spec (h : Grown s as d) :
    (expandAll s (frontiers s as d)).2 =
        (frontiers s as d).flatMap (children (expandAll s (frontiers s as d)).1) ∧
      (∀ f, f ∉ frontiers s as d → f < s.sess.arenalen.toNat ∨
          s.sess.arenalen.toNat + (frontiers s as d).length * fanout s ≤ f →
        (expandAll s (frontiers s as d)).1.node f = s.node f) ∧
      ∀ f ∈ frontiers s as d, MadeChildren s (expandAll s (frontiers s as d)).1
        s.sess.arenalen.toNat (s.sess.arenalen.toNat + (frontiers s as d).length * fanout s) f :=
  expandAll_spec s _ h.frontiers_lt h.nodup h.fits

theorem Grown.arenalen (h : Grown s as d) :
    (expandAll s (frontiers s as d)).1.sess.arenalen.toNat =
      s.sess.arenalen.toNat + (frontiers s as d).length * fanout s := by
  rw [expandAll_arenalen]
  simp only [word, BitVec.toNat_ofNat]
  exact Nat.mod_eq_of_lt h.fits

/-- Expanding the leaves below `as` leaves every node above the leaves as it was. -/
theorem Grown.inner_node (h : Grown s as d) {f : Nat} (hf : f < s.sess.arenalen.toNat)
    (hn : (s.node f).cbase ≠ Config.noneHandle) :
    (expandAll s (frontiers s as d)).1.node f = s.node f := by
  refine h.spec.2.1 f (fun hm => ?_) (.inl hf)
  obtain ⟨t, ht, hm⟩ := mem_frontiers.1 hm
  exact hn (h.leaves t ht f hm)

/-- Expanding the leaves below `as` leaves the leaves below `bs` as they were. -/
theorem Grown.right_leaf (h : Grown s (as ++ bs) d) {f : Nat} (hf : f ∈ frontiers s bs d) :
    (expandAll s (frontiers s as d)).1.node f = s.node f := by
  have hnd := h.nodup
  rw [frontiers_append, List.nodup_append] at hnd
  obtain ⟨t, ht, hm⟩ := mem_frontiers.1 hf
  exact h.left.spec.2.1 f (fun hm => hnd.2.2 f hm f hf rfl)
    (.inl (h.lt t (List.mem_append_right _ ht) d (Nat.le_refl _) f hm))

theorem Grown.right_frontier (h : Grown s (as ++ bs) d) {t i : Nat} (ht : t ∈ as ++ bs) (hi : i ≤ d) :
    frontier (expandAll s (frontiers s as d)).1 t i = frontier s t i := by
  refine frontier_congr (expandAll_onlyTree s _).fanout fun j hj f hf => ?_
  rw [h.left.inner_node (h.lt t ht j (by omega) f hf) (h.inner t ht j (by omega) f hf)]

theorem Grown.right_frontiers (h : Grown s (as ++ bs) d) :
    frontiers (expandAll s (frontiers s as d)).1 bs d = frontiers s bs d :=
  List.flatMap_congr fun _ ht => h.right_frontier (List.mem_append_right _ ht) (Nat.le_refl _)

/-- After the leaves below `as` are expanded, the tree below `bs` is as it was. -/
theorem Grown.right (h : Grown s (as ++ bs) d) : Grown (expandAll s (frontiers s as d)).1 bs d where
  lt t ht i hi f hf := by
    have hm := List.mem_append_right as ht
    rw [h.right_frontier hm hi] at hf
    have := h.lt t hm i hi f hf
    rw [h.left.arenalen]; omega
  inner t ht i hi f hf := by
    have hm := List.mem_append_right as ht
    rw [h.right_frontier hm (by omega)] at hf
    have hn := h.inner t hm i hi f hf
    rwa [h.left.inner_node (h.lt t hm i (by omega) f hf) hn]
  leaves t ht f hf := by
    have hm := List.mem_append_right as ht
    rw [h.right_frontier hm (Nat.le_refl _)] at hf
    rw [h.right_leaf (mem_frontiers.2 ⟨t, ht, hf⟩)]
    exact h.leaves t hm f hf
  nodup := by
    rw [h.right_frontiers]
    have := h.nodup
    rw [frontiers_append] at this
    exact this.of_append_right
  fits := by
    have := h.fits
    rw [h.right_frontiers, h.left.arenalen, (expandAll_onlyTree s _).fanout]
    rw [frontiers_append, List.length_append, Nat.add_mul] at this
    omega

end

theorem minCost_congr {s t : State} {xs : List Nat}
    (h : ∀ x ∈ xs, (t.node x).cost = (s.node x).cost) : minCost t xs = minCost s xs := by
  cases xs with
  | nil => rfl
  | cons x xs =>
    simp only [minCost, h x List.mem_cons_self]
    have h' := fun y hy => h y (List.mem_cons_of_mem _ hy)
    generalize (s.node x).cost.toNat = m
    clear h
    induction xs generalizing m with
    | nil => rfl
    | cons y ys ih =>
      simp only [List.foldl_cons, h' y List.mem_cons_self]
      exact ih (fun z hz => h' z (List.mem_cons_of_mem _ hz)) _

/-- EXPAND and SCORE of a list of subtree roots: all their leaves are expanded, and each score is the
least cost of the root's leaves in the tree that results. -/
theorem scoreChildren_eq {s : State} {ts : List Nat} {d : Nat} (hd : s.conf.d.toNat - 1 = d)
    (h : Grown s ts d) :
    scoreChildren s ts =
      ((expandAll s (frontiers s ts d)).1,
        ts.map fun t => (t, minCost (expandAll s (frontiers s ts d)).1
          (frontier (expandAll s (frontiers s ts d)).1 t (d + 1)))) := by
  induction ts generalizing s with
  | nil => rfl
  | cons t ts ih =>
    have h' : Grown s ([t] ++ ts) d := h
    have hf1 : frontiers s [t] d = frontier s t d := by simp [frontiers]
    have hr := h'.right
    have hl := h'.left
    have ho := expandAll_onlyTree s (frontiers s [t] d)
    have hall : (expandAll s (frontiers s (t :: ts) d)).1 =
        (expandAll (expandAll s (frontiers s [t] d)).1
          (frontiers (expandAll s (frontiers s [t] d)).1 ts d)).1 := by
      rw [h'.right_frontiers, show frontiers s (t :: ts) d = frontiers s [t] d ++ frontiers s ts d from
        frontiers_append s [t] ts d, expandAll_append]
    simp only [scoreChildren, scoreChild, hd, ← hf1]
    rw [ih (by rw [ho.conf]; exact hd) hr, ← hall]
    simp only [List.map_cons, Prod.mk.injEq, true_and, List.cons.injEq, and_true]
    have hroot : frontier (expandAll s (frontiers s (t :: ts) d)).1 t d = frontier s t d :=
      frontier_congr (expandAll_onlyTree s _).fanout fun j hj f hf => by
        rw [h.inner_node (h.lt t List.mem_cons_self j (by omega) f hf)
          (h.inner t List.mem_cons_self j hj f hf)]
    obtain ⟨e2, -, e3⟩ := hl.spec
    obtain ⟨-, g2, -⟩ := hr.spec
    have hrlt := hr.frontiers_lt
    rw [hall] at hroot ⊢
    rw [hf1] at e2 e3
    rw [hf1] at g2 hrlt hroot ho ⊢
    have hfr := h'.right_frontiers
    rw [hf1] at hfr
    rw [hfr] at g2 hroot hrlt ⊢
    generalize hs1 : (expandAll s (frontier s t d)).1 = s1 at *
    have hal : s1.sess.arenalen.toNat =
        s.sess.arenalen.toNat + (frontier s t d).length * fanout s := by
      have := hl.arenalen
      rwa [hf1, hs1] at this
    generalize hu : (expandAll s1 (frontiers s ts d)).1 = u at *
    have huo : OnlyTree s1 u := by rw [← hu]; exact expandAll_onlyTree s1 _
    have hnd := h'.nodup
    rw [frontiers_append, List.nodup_append, hf1] at hnd
    have hold : ∀ f ∈ frontier s t d, u.node f = s1.node f := fun f hf =>
      g2 f (fun hm => hnd.2.2 f hf f hm rfl)
        (.inl (by have := h.lt t List.mem_cons_self d (Nat.le_refl _) f hf; omega))
    have hch : frontier u t (d + 1) = (frontier s t d).flatMap (children s1) := by
      rw [frontier_succ, hroot]
      exact List.flatMap_congr fun f hf => children_congr huo.fanout (by rw [hold f hf])
    rw [hch, ← e2, e2]
    refine (minCost_congr fun x hx => ?_).symm
    obtain ⟨f, hf, hx⟩ := List.mem_flatMap.1 hx
    obtain ⟨base, hb1, hb2, hb3, -⟩ := e3 f hf
    simp only [children, List.mem_map, List.mem_range, hb3] at hx
    obtain ⟨m, hm, rfl⟩ := hx
    have hfit := hl.fits
    rw [hf1] at hfit
    rw [ho.fanout] at hm
    have hw : (word base).toNat = base := by
      simp only [word, BitVec.toNat_ofNat]; exact Nat.mod_eq_of_lt (by omega)
    rw [hw, g2 (base + m) (fun hc => ?_) (.inl (by omega))]
    obtain ⟨t', ht', hc⟩ := mem_frontiers.1 hc
    have := h.lt t' (List.mem_cons_of_mem _ ht') d (Nat.le_refl _) _ hc
    omega

theorem scoreChildren_append (s : State) (as bs : List Nat) :
    scoreChildren s (as ++ bs) =
      ((scoreChildren (scoreChildren s as).1 bs).1,
        (scoreChildren s as).2 ++ (scoreChildren (scoreChildren s as).1 bs).2) := by
  induction as generalizing s with
  | nil => rfl
  | cons a as ih => simp only [List.cons_append, scoreChildren, ih]

/-- The frontiers of nodes at depth d + 1 are those of their children at depth d. -/
theorem frontiers_children (s : State) (hs : List Nat) (d : Nat) :
    frontiers s (hs.flatMap (children s)) d = frontiers s hs (d + 1) := by
  rw [frontiers, frontiers, List.flatMap_assoc]; rfl

theorem mem_frontier_child {s : State} {t c i f : Nat} (hc : c ∈ children s t)
    (hf : f ∈ frontier s c i) : f ∈ frontier s t (i + 1) := List.mem_flatMap.2 ⟨c, hc, hf⟩

theorem Grown.children {s : State} {hs : List Nat} {d : Nat} (h : Grown s hs (d + 1)) :
    Grown s (hs.flatMap (Machine.children s)) d where
  lt c hc i hi f hf := by
    obtain ⟨t, ht, hc⟩ := List.mem_flatMap.1 hc
    exact h.lt t ht (i + 1) (by omega) f (mem_frontier_child hc hf)
  inner c hc i hi f hf := by
    obtain ⟨t, ht, hc⟩ := List.mem_flatMap.1 hc
    exact h.inner t ht (i + 1) (by omega) f (mem_frontier_child hc hf)
  leaves c hc f hf := by
    obtain ⟨t, ht, hc⟩ := List.mem_flatMap.1 hc
    exact h.leaves t ht f (mem_frontier_child hc hf)
  nodup := by rw [frontiers_children]; exact h.nodup
  fits := by rw [frontiers_children]; exact h.fits

/-- The loop over the beam is the loop over all the children of its members. -/
theorem scoreBeam_eq {s : State} {hs : List Nat} {d : Nat} (hd : s.conf.d.toNat - 1 = d)
    (h : Grown s hs (d + 1)) : scoreBeam s hs = scoreChildren s (hs.flatMap (children s)) := by
  induction hs generalizing s with
  | nil => rfl
  | cons t ts ih =>
    have h' : Grown s ([t] ++ ts) (d + 1) := h
    have hl := h'.left
    have hlc := hl.children
    have ht1 : [t].flatMap (children s) = children s t := by simp
    have hs1 : (scoreChildren s (children s t)).1 = (expandAll s (frontiers s [t] (d + 1))).1 := by
      rw [ht1] at hlc
      rw [scoreChildren_eq hd hlc, ← ht1, frontiers_children]
    have ho := expandAll_onlyTree s (frontiers s [t] (d + 1))
    rw [scoreBeam, List.flatMap_cons, scoreChildren_append, hs1,
      ih (by rw [ho.conf]; exact hd) h'.right]
    have : ts.flatMap (children (expandAll s (frontiers s [t] (d + 1))).1) =
        ts.flatMap (children s) :=
      List.flatMap_congr fun x hx => children_congr ho.fanout (by
        have hm : x ∈ [t] ++ ts := List.mem_append_right _ hx
        rw [hl.inner_node (h'.lt x hm 0 (by omega) x (by simp [frontier]))
          (h'.inner x hm 0 (by omega) x (by simp [frontier]))])
    rw [this]

/-! ## Level after level -/

theorem frontiers_zero (s : State) (fs : List Nat) : frontiers s fs 0 = fs := by
  simp [frontiers, frontier]

theorem word_toNat {n : Nat} (h : n < 2 ^ 32) : (word n).toNat = n := by
  simp only [word, BitVec.toNat_ofNat]; exact Nat.mod_eq_of_lt h

/-- The leaves that expanding unexpanded nodes makes are unexpanded, distinct and new. -/
theorem expandAll_leaves {s : State} {fs : List Nat} (h : Complete s fs 0)
    (hfit : s.sess.arenalen.toNat + fs.length * fanout s < 2 ^ 32) :
    Complete (expandAll s fs).1 (expandAll s fs).2 0 ∧
    ∀ c ∈ (expandAll s fs).2, s.sess.arenalen.toNat ≤ c := by
  have hg : Grown s fs 0 := ⟨h, by rw [frontiers_zero]; exact hfit⟩
  have hlt : ∀ f ∈ fs, f < s.sess.arenalen.toNat := fun f hf =>
    h.lt f hf 0 (Nat.le_refl _) f (by simp [frontier])
  have hnd : fs.Nodup := by simpa [frontiers_zero] using h.nodup
  obtain ⟨h1, h2, h3⟩ := expandAll_spec s fs hlt hnd hfit
  have hal := hg.arenalen
  rw [frontiers_zero] at hal
  have ho := expandAll_onlyTree s fs
  generalize hr : expandAll s fs = r at *
  have hch : ∀ f ∈ fs, ∃ base, s.sess.arenalen.toNat ≤ base ∧
      base + fanout s ≤ r.1.sess.arenalen.toNat ∧ (r.1.node f).cbase.toNat = base ∧
      children r.1 f = (List.range (fanout s)).map (fun m => base + m) ∧
      ∀ m, m < fanout s → r.1.node (base + m) = childNode s f m := by
    intro f hf
    obtain ⟨base, hb1, hb2, hb3, hb4⟩ := h3 f hf
    have hb : (r.1.node f).cbase.toNat = base := by
      rw [hb3]; exact word_toNat (by omega)
    exact ⟨base, hb1, by omega, hb, by rw [children, hb, ho.fanout], hb4⟩
  have hmem : ∀ c ∈ r.2, ∃ f ∈ fs, ∃ base m, s.sess.arenalen.toNat ≤ base ∧
      base + fanout s ≤ r.1.sess.arenalen.toNat ∧ m < fanout s ∧ c = base + m ∧
      r.1.node c = childNode s f m := by
    intro c hc
    rw [h1] at hc
    obtain ⟨f, hf, hc⟩ := List.mem_flatMap.1 hc
    obtain ⟨base, hb1, hb2, -, hb4, hb5⟩ := hch f hf
    rw [hb4] at hc
    obtain ⟨m, hm, rfl⟩ := List.mem_map.1 hc
    rw [List.mem_range] at hm
    exact ⟨f, hf, base, m, hb1, hb2, hm, rfl, hb5 m hm⟩
  refine ⟨⟨?_, fun _ _ i hi => by omega, ?_, ?_⟩, ?_⟩
  · intro c hc i hi f hf
    obtain rfl : i = 0 := by omega
    obtain rfl : f = c := by simpa [frontier] using hf
    obtain ⟨-, -, base, m, -, hb2, hm, rfl, -⟩ := hmem f hc
    omega
  · intro c hc f hf
    obtain rfl : f = c := by simpa [frontier] using hf
    obtain ⟨g, -, base, m, -, -, -, -, hn⟩ := hmem f hc
    rw [hn]; rfl
  · rw [frontiers_zero, h1, List.nodup_flatMap]
    refine ⟨fun f hf => ?_, ?_⟩
    · obtain ⟨base, -, -, -, hb4, -⟩ := hch f hf
      rw [hb4]
      exact List.nodup_range.map fun a b hab => by simpa using hab
    · refine hnd.imp_of_mem fun {f g} hf hg hfg => ?_
      intro c hcf hcg
      obtain ⟨base, hb1, hb2, -, hb4, hb5⟩ := hch f hf
      obtain ⟨base', hb1', hb2', -, hb4', hb5'⟩ := hch g hg
      rw [hb4] at hcf
      rw [hb4'] at hcg
      obtain ⟨m, hm, rfl⟩ := List.mem_map.1 hcf
      obtain ⟨m', hm', he⟩ := List.mem_map.1 hcg
      rw [List.mem_range] at hm hm'
      have e1 := hb5 m hm
      have e2 := hb5' m' hm'
      rw [he, e1] at e2
      have e3 : word f = word g := congrArg Node.parent e2
      have e4 := congrArg BitVec.toNat e3
      rw [word_toNat (by have := hlt f hf; omega), word_toNat (by have := hlt g hg; omega)] at e4
      exact hfg e4
  · intro c hc
    obtain ⟨-, -, base, m, hb1, -, -, rfl, -⟩ := hmem c hc
    omega

/-- Growing d levels below unexpanded nodes makes a complete tree of depth d below each of them; every
other node stays. -/
theorem growLevels_complete {d : Nat} {s : State} {fs : List Nat} (h : Complete s fs 0)
    (hfit : s.sess.arenalen.toNat + fs.length * subtreeSize s.conf.k.toNat d < 2 ^ 32) :
    Complete (growLevels d s fs).1 fs d ∧
    ∀ f, f ∉ fs → f < s.sess.arenalen.toNat ∨
        s.sess.arenalen.toNat + fs.length * subtreeSize s.conf.k.toNat d ≤ f →
      (growLevels d s fs).1.node f = s.node f := by
  induction d generalizing s fs with
  | zero => exact ⟨h, fun _ _ _ => rfl⟩
  | succ d ih =>
    have hk := subtreeSize_succ s.conf.k.toNat d
    have hlen : fs.length * subtreeSize s.conf.k.toNat (d + 1) =
        fs.length * fanout s + fs.length * fanout s * subtreeSize s.conf.k.toNat d := by
      rw [hk, fanout]; ring
    have hfit1 : s.sess.arenalen.toNat + fs.length * fanout s < 2 ^ 32 := by omega
    have hlt : ∀ f ∈ fs, f < s.sess.arenalen.toNat := fun f hf =>
      h.lt f hf 0 (Nat.le_refl _) f (by simp [frontier])
    have hnd : fs.Nodup := by simpa [frontiers_zero] using h.nodup
    obtain ⟨h1, h2, h3⟩ := expandAll_spec s fs hlt hnd hfit1
    obtain ⟨hc, hnew⟩ := expandAll_leaves h hfit1
    have ho := expandAll_onlyTree s fs
    have hal : (expandAll s fs).1.sess.arenalen.toNat =
        s.sess.arenalen.toNat + fs.length * fanout s := by
      rw [expandAll_arenalen, word_toNat hfit1]
    have hl2 := expandAll_length s fs
    simp only [growLevels]
    generalize expandAll s fs = r at *
    obtain ⟨i1, i2⟩ := ih hc (by rw [hal, hl2, ho.conf]; omega)
    rw [hal, hl2, ho.conf] at i2
    have hgo := growLevels_onlyTree d r.1 r.2
    have hgal : (growLevels d r.1 r.2).1.sess.arenalen.toNat =
        s.sess.arenalen.toNat + fs.length * subtreeSize s.conf.k.toNat (d + 1) := by
      rw [growLevels_arenalen, hal, hl2, ho.conf, word_toNat (by omega)]; omega
    generalize (growLevels d r.1 r.2).1 = u at *
    have hroot : ∀ f ∈ fs, u.node f = r.1.node f := fun f hf =>
      i2 f (fun hm => by have := hnew f hm; have := hlt f hf; omega)
        (.inl (by have := hlt f hf; omega))
    have hch : ∀ f ∈ fs, children u f = children r.1 f := fun f hf =>
      children_congr hgo.fanout (by rw [hroot f hf])
    have hin : ∀ f ∈ fs, ∀ c ∈ children u f, c ∈ r.2 := fun f hf c hc' => by
      rw [h1]; exact List.mem_flatMap.2 ⟨f, hf, by rwa [hch f hf] at hc'⟩
    refine ⟨⟨?_, ?_, ?_, ?_⟩, ?_⟩
    · intro t ht i hi f hf
      cases i with
      | zero =>
        obtain rfl : f = t := by simpa [frontier] using hf
        have := hlt f ht
        rw [hgal]; omega
      | succ i =>
        obtain ⟨c, hc1, hc2⟩ := List.mem_flatMap.1 hf
        exact i1.lt c (hin t ht c hc1) i (by omega) f hc2
    · intro t ht i hi f hf
      cases i with
      | zero =>
        obtain rfl : f = t := by simpa [frontier] using hf
        obtain ⟨base, hb1, hb2, hb3, -⟩ := h3 f ht
        rw [hroot f ht, hb3]
        intro he
        have he := congrArg BitVec.toNat he
        have h2k : 1 ≤ fanout s := Nat.one_le_two_pow
        rw [show (Config.noneHandle).toNat = 2 ^ 32 - 1 from rfl] at he
        simp only at he
        rw [word_toNat (by omega)] at he
        omega
      | succ i =>
        obtain ⟨c, hc1, hc2⟩ := List.mem_flatMap.1 hf
        exact i1.inner c (hin t ht c hc1) i (by omega) f hc2
    · intro t ht f hf
      obtain ⟨c, hc1, hc2⟩ := List.mem_flatMap.1 hf
      exact i1.leaves c (hin t ht c hc1) f hc2
    · rw [← frontiers_children, List.flatMap_congr hch, ← h1]
      exact i1.nodup
    · intro f hf hr
      have hn : f ∉ r.2 ∨ s.sess.arenalen.toNat + fs.length * subtreeSize s.conf.k.toNat (d + 1) ≤ f := by
        rcases hr with hr | hr
        · exact .inl fun hm => by have := hnew f hm; omega
        · exact .inr hr
      have hn' : f ∉ r.2 := by
        rcases hn with hn | hn
        · exact hn
        · exact fun hm => by
            have := hc.lt f hm 0 (Nat.le_refl _) f (by simp [frontier])
            omega
      rw [i2 f hn' (by omega), h2 f hf (by omega)]

/-! ## Which handles (45_decoder.md R173, R174, R181; 20_memory.md R79) -/

/-- Two runs of consecutive numbers are one run. -/
theorem range_map_add_append (a n m : Nat) :
    ((List.range n).map (a + ·)) ++ (List.range m).map (a + n + ·) = (List.range (n + m)).map (a + ·) := by
  simp [List.range_add, Function.comp_def, Nat.add_assoc]

/-- Expanding a list of nodes makes one run of consecutive handles, in the order of the list and, below
each node, of the chunk values. -/
theorem expandAll_handles (s : State) (fs : List Nat) (hlt : ∀ f ∈ fs, f < s.sess.arenalen.toNat)
    (hfit : s.sess.arenalen.toNat + fs.length * fanout s < 2 ^ 32) :
    (expandAll s fs).2 = (List.range (fs.length * fanout s)).map (s.sess.arenalen.toNat + ·) := by
  induction fs generalizing s with
  | nil => simp [expandAll]
  | cons f fs ih =>
    have ho := expand_onlyTree s f
    simp only [List.length_cons, Nat.add_mul, Nat.one_mul] at hfit ⊢
    have hlen : (expand s f).sess.arenalen.toNat = s.sess.arenalen.toNat + fanout s := by
      rw [expand_arenalen, word_toNat (by omega)]
    have hb : ((expand s f).node f).cbase.toNat = s.sess.arenalen.toNat := by
      rw [expand_node s (hlt f List.mem_cons_self), if_pos rfl]
    rw [expandAll, ih (expand s f)
      (fun g hg => by have := hlt g (List.mem_cons_of_mem _ hg); omega) (by rw [hlen, ho.fanout]; omega),
      children, hb, hlen, ho.fanout, range_map_add_append, Nat.add_comm (fs.length * fanout s)]

/-- The i-th node of the list gets the i-th block of 2^K handles. -/
theorem expandAll_cbases (s : State) (fs : List Nat) (hlt : ∀ f ∈ fs, f < s.sess.arenalen.toNat)
    (hnd : fs.Nodup) (hfit : s.sess.arenalen.toNat + fs.length * fanout s < 2 ^ 32) :
    (fs.map fun f => ((expandAll s fs).1.node f).cbase.toNat) =
      (List.range fs.length).map fun i => s.sess.arenalen.toNat + i * fanout s := by
  induction fs generalizing s with
  | nil => rfl
  | cons f fs ih =>
    have ho := expand_onlyTree s f
    obtain ⟨hfs, hnd⟩ := List.nodup_cons.1 hnd
    simp only [List.length_cons, Nat.add_mul, Nat.one_mul] at hfit
    have hlen : (expand s f).sess.arenalen.toNat = s.sess.arenalen.toNat + fanout s := by
      rw [expand_arenalen, word_toNat (by omega)]
    have hf := hlt f List.mem_cons_self
    have hlt' : ∀ g ∈ fs, g < (expand s f).sess.arenalen.toNat := fun g hg => by
      have := hlt g (List.mem_cons_of_mem _ hg); omega
    have hfit' : (expand s f).sess.arenalen.toNat + fs.length * fanout (expand s f) < 2 ^ 32 := by
      rw [hlen, ho.fanout]; omega
    have hb : ((expandAll (expand s f) fs).1.node f).cbase.toNat = s.sess.arenalen.toNat := by
      rw [(expandAll_spec _ fs hlt' hnd hfit').2.1 f hfs (.inl (by omega)), expand_node s hf, if_pos rfl]
    rw [List.map_cons, expandAll, hb, ih (expand s f) hlt' hnd hfit', hlen, ho.fanout,
      List.length_cons, List.range_succ_eq_map]
    simp [Function.comp_def, Nat.add_mul, Nat.add_assoc, Nat.add_comm]

/-- Growing d levels allocates breadth first: the depth-(j+1) descendants of the grown nodes are one run
of consecutive handles, after all the levels above. -/
theorem growLevels_handles {d j : Nat} {s : State} {fs : List Nat} (h : Complete s fs 0) (hj : j < d)
    (hfit : s.sess.arenalen.toNat + fs.length * subtreeSize s.conf.k.toNat d < 2 ^ 32) :
    frontiers (growLevels d s fs).1 fs (j + 1) =
      (List.range (fs.length * fanout s ^ (j + 1))).map
        (s.sess.arenalen.toNat + fs.length * subtreeSize s.conf.k.toNat j + ·) := by
  induction d generalizing s fs j with
  | zero => omega
  | succ d ih =>
    have hlen : ∀ d, fs.length * subtreeSize s.conf.k.toNat (d + 1) =
        fs.length * fanout s + fs.length * fanout s * subtreeSize s.conf.k.toNat d := fun d => by
      rw [subtreeSize_succ, fanout]; ring
    have hd := hlen d
    have hfit1 : s.sess.arenalen.toNat + fs.length * fanout s < 2 ^ 32 := by omega
    have hlt : ∀ f ∈ fs, f < s.sess.arenalen.toNat := fun f hf =>
      h.lt f hf 0 (Nat.le_refl _) f (by simp [frontier])
    have hnd : fs.Nodup := by simpa [frontiers_zero] using h.nodup
    have h1 := (expandAll_spec s fs hlt hnd hfit1).1
    have hr := expandAll_handles s fs hlt hfit1
    obtain ⟨hc, hnew⟩ := expandAll_leaves h hfit1
    have ho := expandAll_onlyTree s fs
    have hal : (expandAll s fs).1.sess.arenalen.toNat =
        s.sess.arenalen.toNat + fs.length * fanout s := by
      rw [expandAll_arenalen, word_toNat hfit1]
    have hl2 := expandAll_length s fs
    simp only [growLevels]
    generalize expandAll s fs = r at *
    have hfit2 : r.1.sess.arenalen.toNat + r.2.length * subtreeSize r.1.conf.k.toNat d < 2 ^ 32 := by
      rw [hal, hl2, ho.conf]; omega
    have hgo := growLevels_onlyTree d r.1 r.2
    have hstay := (growLevels_complete hc hfit2).2
    have hch : ∀ f ∈ fs, children (growLevels d r.1 r.2).1 f = children r.1 f := fun f hf =>
      children_congr hgo.fanout (by
        have := hlt f hf
        rw [hstay f (fun hm => by have := hnew f hm; omega) (.inl (by omega))])
    rw [← frontiers_children, List.flatMap_congr hch, ← h1]
    cases j with
    | zero => rw [frontiers_zero, hr]; simp [subtreeSize]
    | succ j =>
      rw [ih hc (by omega) hfit2, hal, hl2, ho.conf, ho.fanout, hlen j, pow_succ' _ (j + 1),
        ← Nat.mul_assoc fs.length (fanout s)]
      simp only [Nat.add_assoc]

end Sys2Proof.Machine
end

