-- ==== Sys2Proof/Laws/Commands.lean ====
section
/-! SUPPORT. What a command can do, once: its own effect with the checks it has passed, or error entry.
And what a step can do. -/

namespace Sys2Proof.Machine

/-- What DEC.INIT can do. -/
structure DidInit (s t : State) : Prop where
  idle : s.phase = .idle
  ready : s.ready = true
  whole : 8 * s.ilen.toNat % s.conf.c.toNat = 0
  passes : 8 * s.ilen.toNat / s.conf.c.toNat % s.conf.l.toNat = 0
  symbols : 8 * s.ilen.toNat / s.conf.c.toNat ≤ s.params.chunkCap
  depth : 2 * s.conf.d.toNat ≤ 8 * s.ilen.toNat / s.conf.c.toNat / s.conf.l.toNat + 1
  aligned : 8 * s.ilen.toNat / s.conf.c.toNat / s.conf.l.toNat * s.conf.k.toNat % 8 = 0
  bytes : 8 * s.ilen.toNat / s.conf.c.toNat / s.conf.l.toNat * s.conf.k.toNat / 8 ≤ s.params.bufCap
  cost : 8 * s.ilen.toNat / s.conf.c.toNat * (2 ^ s.conf.c.toNat - 1) ^ 2 < 2 ^ 64
  nodes : 1 + subtreeSize s.conf.k.toNat s.conf.d.toNat ≤ s.params.arenaCap
  eq : t = openSession s (8 * s.ilen.toNat / s.conf.c.toNat)
    (8 * s.ilen.toNat / s.conf.c.toNat / s.conf.l.toNat)
    (8 * s.ilen.toNat / s.conf.c.toNat / s.conf.l.toNat - s.conf.d.toNat + 1)

/-- What DEC.STEP can do. -/
structure DidStep (s t : State) : Prop where
  dec : s.phase = .dec
  left : s.sess.step.toNat + 1 < s.sess.nsteps.toNat
  nodes : s.sess.arenalen.toNat +
    s.sess.beamlen.toNat * 2 ^ (s.conf.k.toNat * (s.conf.d.toNat + 1)) ≤ s.params.arenaCap
  cands : s.sess.beamlen.toNat * 2 ^ s.conf.k.toNat ≤ s.params.candCap
  beam : min s.conf.b.toNat (s.sess.beamlen.toNat * 2 ^ s.conf.k.toNat) ≤ s.params.beamCap
  eq : t = prune (scoreBeam s (beamHandles s)).1 (scoreBeam s (beamHandles s)).2

/-- The state DEC.TERM makes. -/
def terminated (s : State) : State :=
  closeSession
    { s.putObuf 0 (pack (pathChunks s (bestLeaf s (beamLeaves s))) s.conf.k.toNat) with
      olen := word (s.sess.nchunk.toNat * s.conf.k.toNat / 8)
      bcost := (s.node (bestLeaf s (beamLeaves s))).cost }

/-- What DEC.TERM can do. -/
structure DidTerm (s t : State) : Prop where
  dec : s.phase = .dec
  last : s.sess.step.toNat + 1 = s.sess.nsteps.toNat
  eq : t = terminated s

/-- A list of DEC.STEPs that all take effect. -/
inductive DidSteps : Nat → State → State → Prop where
  | zero (s : State) : DidSteps 0 s s
  | succ {n : Nat} {s t u : State} (h : DidStep s t) (h' : DidSteps n t u) : DidSteps (n + 1) s u

/-- A command's own effect, with the checks it has passed. -/
def Does (s t : State) : Instr → Prop
  | .nop => t = s
  | .li rd imm16 => t = s.setX rd (imm16.setWidth 32)
  | .lui rd imm16 => t = s.setX rd ((imm16.setWidth 32 <<< 16) ||| (s.getX rd &&& 0x0000FFFF))
  | .csrr rd csr => ∃ c, csrOfAddr csr = some c ∧ t = s.setX rd (readCsr s c)
  | .csrw rs csr => ∃ c, csrOfAddr csr = some c ∧ isWritableCsr c = true ∧
      ¬ (isConfigCsr c = true ∧ s.phase = .dec) ∧
      (c = .ILEN → (s.getX rs).toNat ≤ s.params.bufCap) ∧
      (c = .CLEN → (s.getX rs).toNat ≤ s.params.chunkCap) ∧ t = writeCsr s c (s.getX rs)
  | .ldb rd rs1 space off12 => ∃ sp,
      memcheck s .loadB space (effectiveAddress s rs1 off12) = .ok sp ∧
      t = s.setX rd (memRead s sp (effectiveAddress s rs1 off12))
  | .stb rs2 rs1 space off12 => ∃ sp,
      memcheck s .storeB space (effectiveAddress s rs1 off12) = .ok sp ∧
      t = s.putIbuf (effectiveAddress s rs1 off12) [(s.getX rs2).setWidth 8]
  | .ldw rd rs1 space off12 => ∃ sp,
      memcheck s .loadW space (effectiveAddress s rs1 off12) = .ok sp ∧
      t = s.setX rd (memRead s sp (effectiveAddress s rs1 off12))
  | .stw rs2 rs1 space off12 => ∃ sp,
      memcheck s .storeW space (effectiveAddress s rs1 off12) = .ok sp ∧
      t = s.putChunk (effectiveAddress s rs1 off12) [s.getX rs2]
  | .bmov => t = { s.putIbuf 0 (s.obufBytes s.olen.toNat) with ilen := s.olen }
  | .bpDiv rs => 1 ≤ (s.getX rs).toNat ∧ (s.getX rs).toNat ≤ 32 ∧
      8 * s.ilen.toNat % (s.getX rs).toNat = 0 ∧
      8 * s.ilen.toNat / (s.getX rs).toNat ≤ s.params.chunkCap ∧
      t = { s.putChunk 0 ((divide (s.ibufBytes s.ilen.toNat) (s.getX rs).toNat).map word) with
            clen := word (8 * s.ilen.toNat / (s.getX rs).toNat) }
  | .bpPack rs => 1 ≤ (s.getX rs).toNat ∧ (s.getX rs).toNat ≤ 32 ∧
      s.clen.toNat * (s.getX rs).toNat % 8 = 0 ∧
      s.clen.toNat * (s.getX rs).toNat / 8 ≤ s.params.bufCap ∧
      (∀ j, j < s.clen.toNat → (s.chunkWord j).toNat < 2 ^ (s.getX rs).toNat) ∧
      t = { s.putObuf 0 (pack (chunkInts s s.clen.toNat) (s.getX rs).toNat) with
            olen := word (s.clen.toNat * (s.getX rs).toNat / 8) }
  | .rseed g rs1 rs2 => (s.getX rs2).toNat < 32 ∧
      t = s.setG g { valid := true, c := BitVec.ofNat 5 (s.getX rs2).toNat, state := rngInit (s.getX rs1) }
  | .rnext rd g => (s.getG g).valid = true ∧
      t = (s.setG g { s.getG g with state := rngStep (s.getG g).state }).setX rd
        (word (rngOut (rngStep (s.getG g).state) (s.getG g).c.toNat))
  | .hash rd rs1 rs2 => t = s.setX rd (hashPair s.params.hash (s.getX rs1) (s.getX rs2))
  | .spine rd rs1 rs2 => 1 ≤ s.conf.v.toNat ∧ s.conf.v.toNat ≤ 32 ∧
      t = s.setX rd (spineNext s.params.hash (s.getX rs1) (s.getX rs2) s.conf.v.toNat)
  | .construct => s.phase = .idle ∧
      (1 ≤ s.conf.k.toNat ∧ s.conf.k.toNat ≤ 31 ∧ 1 ≤ s.conf.v.toNat ∧ s.conf.v.toNat ≤ 32 ∧
        1 ≤ s.conf.c.toNat ∧ s.conf.c.toNat ≤ 31 ∧ 1 ≤ s.conf.l.toNat ∧ 1 ≤ s.conf.b.toNat ∧
        1 ≤ s.conf.d.toNat) ∧ t = { s with ready := true }
  | .encode => s.phase = .idle ∧ s.ready = true ∧
      s.conf.l.toNat * (8 * (s.ilen.toNat + padcount s.ilen.toNat s.conf.k.toNat) / s.conf.k.toNat) *
        s.conf.c.toNat / 8 ≤ s.params.bufCap ∧
      t = { s.putObuf 0 (encodeFn s.params.hash (s.ibufBytes s.ilen.toNat) s.conf.k.toNat
              s.conf.v.toNat s.conf.c.toNat s.conf.l.toNat s.conf.seed) with
            olen := word (s.conf.l.toNat *
              (8 * (s.ilen.toNat + padcount s.ilen.toNat s.conf.k.toNat) / s.conf.k.toNat) *
              s.conf.c.toNat / 8)
            padcnt := word (padcount s.ilen.toNat s.conf.k.toNat) }
  | .decInit => DidInit s t
  | .decStep => DidStep s t
  | .decTerm => DidTerm s t
  | .decAbort => s.phase = .dec ∧ t = closeSession s
  | .decode => ∃ u v, DidInit s u ∧ DidSteps (u.sess.nsteps.toNat - 1) u v ∧ DidTerm v t
  | .srst => t = softwareReset s

/-- A command that gets past a check has failed its condition. -/
theorem check_eq_ok {c : Prop} [Decidable c] {e : Err} {x : Except Err State} {t : State} :
    (if c then .error e else x) = .ok t ↔ ¬ c ∧ x = .ok t := by
  by_cases hc : c <;> simp [hc]

theorem decInitState_eq_ok {s t : State} (h : decInitState s = .ok t) : DidInit s t := by
  simp only [decInitState, check_eq_ok, not_or, ne_eq, not_not, Bool.not_eq_false] at h
  obtain ⟨⟨h0, h0'⟩, h1, h2, h3, h4, h5, h6, h7, h8, h9⟩ := h
  exact ⟨h0, h0', by omega, by omega, by omega, by omega, by omega, by omega, by omega, by omega,
    (Except.ok.inj h9).symm⟩

theorem decStepState_eq_ok {s t : State} (h : decStepState s = .ok t) : DidStep s t := by
  simp only [decStepState, check_eq_ok, ne_eq, not_not] at h
  obtain ⟨h0, h1, h2, h3, h4, h5⟩ := h
  exact ⟨h0, by omega, by omega, by omega, by omega, (Except.ok.inj h5).symm⟩

theorem decTermState_eq_ok {s t : State} (h : decTermState s = .ok t) : DidTerm s t := by
  simp only [decTermState, check_eq_ok, ne_eq, not_not] at h
  exact ⟨h.1, h.2.1, (Except.ok.inj h.2.2).symm⟩

theorem decSteps_eq_ok {n : Nat} {s t : State} (h : decSteps n s = .ok t) : DidSteps n s t := by
  induction n generalizing s with
  | zero => rw [decSteps] at h; cases h; exact .zero _
  | succ n ih =>
    rw [decSteps] at h
    split at h
    · cases h
    next u hu => exact .succ (decStepState_eq_ok hu) (ih h)

theorem decodeState_eq_ok {s t : State} (h : decodeState s = .ok t) :
    ∃ u v, DidInit s u ∧ DidSteps (u.sess.nsteps.toNat - 1) u v ∧ DidTerm v t := by
  unfold decodeState at h
  split at h
  · cases h
  next u hu =>
    split at h
    · cases h
    next v hv => exact ⟨u, v, decInitState_eq_ok hu, decSteps_eq_ok hv, decTermState_eq_ok h⟩

/-- No command raises E_ILLCMD by its own checks. -/
theorem decInitState_eq_error {s : State} {e : Err} (h : decInitState s = .error e) :
    e ≠ .illCmd := by
  rintro rfl
  simp only [decInitState, seqErr] at h
  split_ifs at h <;> cases h

theorem decStepState_eq_error {s : State} {e : Err} (h : decStepState s = .error e) :
    e ≠ .illCmd := by
  rintro rfl
  simp only [decStepState, seqErr] at h
  split_ifs at h <;> cases h

theorem decTermState_eq_error {s : State} {e : Err} (h : decTermState s = .error e) :
    e ≠ .illCmd := by
  rintro rfl
  simp only [decTermState, seqErr] at h
  split_ifs at h <;> cases h

theorem decSteps_eq_error {n : Nat} {s : State} {e : Err} (h : decSteps n s = .error e) :
    e ≠ .illCmd := by
  induction n generalizing s with
  | zero => rw [decSteps] at h; cases h
  | succ n ih =>
    rw [decSteps] at h
    split at h
    next e' he => cases h; exact decStepState_eq_error he
    next u hu => exact ih h

theorem decodeState_eq_error {s : State} {e : Err} (h : decodeState s = .error e) :
    e ≠ .illCmd := by
  unfold decodeState at h
  split at h
  next e' he => cases h; exact decInitState_eq_error he
  · split at h
    next e' he => cases h; exact decSteps_eq_error he
    · exact decTermState_eq_error h

/-- What a command can do: its own effect, or error entry with a cause of its own. -/
theorem exec_cases {i : Instr} {s t : State} (h : exec i s = .next t) :
    Does s t i ∨ ∃ e, e ≠ .illCmd ∧ t = errorEntry e (encode i) s := by
  have fin : ∀ {r : Except Err State}, commit i s r = .next t → (r = .ok t → Does s t i) →
      (∀ e, r = .error e → e ≠ .illCmd) →
      Does s t i ∨ ∃ e, e ≠ .illCmd ∧ t = errorEntry e (encode i) s := by
    intro r hc h1 h2
    rcases commit_eq_next.1 hc with hr | ⟨e, hr, ht⟩
    · exact .inl (h1 hr)
    · exact .inr ⟨e, h2 e hr, ht⟩
  cases i with
  | nop =>
    rw [exec, execNop] at h
    exact fin h (fun h => (Except.ok.inj h).symm) (fun e h => by cases h)
  | li rd imm =>
    rw [exec, execLi] at h
    exact fin h (fun h => (Except.ok.inj h).symm) (fun e h => by cases h)
  | lui rd imm =>
    rw [exec, execLui] at h
    exact fin h (fun h => (Except.ok.inj h).symm) (fun e h => by cases h)
  | hash rd rs1 rs2 =>
    rw [exec, execHash] at h
    exact fin h (fun h => (Except.ok.inj h).symm) (fun e h => by cases h)
  | bmov =>
    rw [exec, execBmov] at h
    exact fin h (fun h => (Except.ok.inj h).symm) (fun e h => by cases h)
  | srst =>
    rw [exec, execSrst] at h
    exact fin h (fun h => (Except.ok.inj h).symm) (fun e h => by cases h)
  | decInit => exact fin h decInitState_eq_ok (fun e h => decInitState_eq_error h)
  | decStep => exact fin h decStepState_eq_ok (fun e h => decStepState_eq_error h)
  | decTerm => exact fin h decTermState_eq_ok (fun e h => decTermState_eq_error h)
  | decode => exact fin h decodeState_eq_ok (fun e h => decodeState_eq_error h)
  | csrr rd csr =>
    refine fin h (fun h => ?_) (fun e h => ?_)
    · split at h
      · cases h
      next c hc => exact ⟨c, hc, (Except.ok.inj h).symm⟩
    · split at h <;> cases h
      simp
  | csrw rs csr =>
    refine fin h (fun h => ?_) (fun e h => ?_)
    · simp only [] at h
      split at h
      · cases h
      next c hc =>
        simp only [check_eq_ok] at h
        obtain ⟨h1, h2, h3, h4, h5⟩ := h
        exact ⟨c, hc, by simpa using h1, h2, fun he => by simp only [he, true_and] at h3; omega,
          fun he => by simp only [he, true_and] at h4; omega, (Except.ok.inj h5).symm⟩
    · rintro rfl
      simp only [seqErr] at h
      split at h
      · cases h
      · split_ifs at h <;> cases h
  | ldb rd rs1 space off12 =>
    refine fin h (fun h => ?_) (fun e h => ?_)
    · simp only [] at h
      split at h
      · cases h
      next sp hc => exact ⟨sp, hc, (Except.ok.inj h).symm⟩
    · simp only [] at h
      split at h
      next e' he => cases h; rw [memcheck_eq_error he]; simp
      · cases h
  | ldw rd rs1 space off12 =>
    refine fin h (fun h => ?_) (fun e h => ?_)
    · simp only [] at h
      split at h
      · cases h
      next sp hc => exact ⟨sp, hc, (Except.ok.inj h).symm⟩
    · simp only [] at h
      split at h
      next e' he => cases h; rw [memcheck_eq_error he]; simp
      · cases h
  | stb rs2 rs1 space off12 =>
    refine fin h (fun h => ?_) (fun e h => ?_)
    · simp only [] at h
      split at h
      · cases h
      next sp hc => exact ⟨sp, hc, (Except.ok.inj h).symm⟩
    · simp only [] at h
      split at h
      next e' he => cases h; rw [memcheck_eq_error he]; simp
      · cases h
  | stw rs2 rs1 space off12 =>
    refine fin h (fun h => ?_) (fun e h => ?_)
    · simp only [] at h
      split at h
      · cases h
      next sp hc => exact ⟨sp, hc, (Except.ok.inj h).symm⟩
    · simp only [] at h
      split at h
      next e' he => cases h; rw [memcheck_eq_error he]; simp
      · cases h
  | bpDiv rs =>
    refine fin h (fun h => ?_) (fun e h => ?_)
    · simp only [check_eq_ok] at h
      obtain ⟨h1, h2, h3, h4⟩ := h
      exact ⟨by omega, by omega, by omega, by omega, (Except.ok.inj h4).symm⟩
    · rintro rfl
      simp only [] at h
      split_ifs at h <;> cases h
  | bpPack rs =>
    refine fin h (fun h => ?_) (fun e h => ?_)
    · simp only [check_eq_ok] at h
      obtain ⟨h1, h2, h3, h⟩ := h
      split at h
      · cases h
      next hf =>
        refine ⟨by omega, by omega, by omega, by omega, fun j hj => ?_, (Except.ok.inj h).symm⟩
        rw [List.find?_eq_none] at hf
        simpa using hf j (by simpa using hj)
    · rintro rfl
      simp only [] at h
      split_ifs at h <;> first | cases h | (split at h <;> cases h)
  | rseed g rs1 rs2 =>
    refine fin h (fun h => ?_) (fun e h => ?_)
    · simp only [check_eq_ok] at h
      exact ⟨by omega, (Except.ok.inj h.2).symm⟩
    · rintro rfl
      simp only [] at h
      split_ifs at h; cases h
  | rnext rd g =>
    refine fin h (fun h => ?_) (fun e h => ?_)
    · simp only [check_eq_ok, Bool.not_eq_false] at h
      exact ⟨h.1, (Except.ok.inj h.2).symm⟩
    · rintro rfl
      simp only [seqErr] at h
      split_ifs at h; cases h
  | spine rd rs1 rs2 =>
    refine fin h (fun h => ?_) (fun e h => ?_)
    · simp only [check_eq_ok] at h
      exact ⟨by omega, by omega, (Except.ok.inj h.2).symm⟩
    · rintro rfl
      simp only [] at h
      split_ifs at h; cases h
  | construct =>
    refine fin h (fun h => ?_) (fun e h => ?_)
    · simp only [check_eq_ok, ne_eq, not_not] at h
      obtain ⟨h0, h1, h2, h3, h4, h5, h6, h7⟩ := h
      exact ⟨h0, by omega, (Except.ok.inj h7).symm⟩
    · rintro rfl
      simp only [seqErr] at h
      split_ifs at h <;> cases h
  | encode =>
    refine fin h (fun h => ?_) (fun e h => ?_)
    · simp only [check_eq_ok, not_or, ne_eq, not_not, Bool.not_eq_false] at h
      obtain ⟨h0, h1, h2, h3, h4⟩ := h
      exact ⟨h0.1, h0.2, by omega, (Except.ok.inj h4).symm⟩
    · rintro rfl
      simp only [seqErr] at h
      split_ifs at h <;> cases h
  | decAbort =>
    refine fin h (fun h => ?_) (fun e h => ?_)
    · simp only [check_eq_ok, ne_eq, not_not] at h
      exact ⟨h.1, (Except.ok.inj h.2).symm⟩
    · rintro rfl
      simp only [seqErr] at h
      split_ifs at h; cases h

/-- What a step can do. -/
theorem step_cases {s t : State} (h : step s = .next t) :
    (s.pending = [] ∧ t = s) ∨
    (∃ es, s.pending = .hardwareReset :: es ∧ t = hardwareReset { s with pending := es }) ∨
    (∃ w es, s.pending = .command w :: es ∧ s.phase = .halt ∧ w ≠ srstWord ∧
      t = { s with pending := es }) ∨
    (∃ w es, s.pending = .command w :: es ∧ s.phase ≠ .halt ∧ decode w = none ∧
      t = errorEntry .illCmd w { s with pending := es }) ∨
    ∃ w es i, s.pending = .command w :: es ∧ (s.phase ≠ .halt ∨ w = srstWord) ∧
      decode w = some i ∧ exec i { s with pending := es } = .next t := by
  unfold step takeEvent at h
  cases hp : s.pending with
  | nil => rw [hp] at h; exact .inl ⟨rfl, (Host.Outcome.next.inj h).symm⟩
  | cons e es =>
    rw [hp] at h
    cases e with
    | hardwareReset => exact .inr (.inl ⟨es, rfl, (Host.Outcome.next.inj h).symm⟩)
    | command w =>
      refine .inr (.inr ?_)
      simp only [takeCommand] at h
      by_cases hh : s.phase = .halt ∧ w ≠ srstWord
      · rw [if_pos hh] at h
        exact .inl ⟨w, es, rfl, hh.1, hh.2, (Host.Outcome.next.inj h).symm⟩
      · rw [if_neg hh] at h
        have hh' : s.phase ≠ .halt ∨ w = srstWord := by
          by_contra hc
          simp only [not_or, not_not] at hc
          exact hh hc
        cases hd : decode w with
        | none =>
          rw [hd] at h
          refine .inr (.inl ⟨w, es, rfl, ?_, hd, (Host.Outcome.next.inj h).symm⟩)
          rcases hh' with h' | rfl
          · exact h'
          · exact absurd hd (by decide)
        | some i =>
          rw [hd] at h
          exact .inr (.inr ⟨w, es, i, rfl, hh', hd, h⟩)

/-! ## What the session commands leave alone -/

/-- t is s but for RX, ARENA, BEAM, the session CSRs and PHASE. -/
def SessionOnly (s t : State) : Prop :=
  t = { s with
        sess := t.sess
        phase := t.phase
        mem := { s.mem with rx := t.mem.rx, arena := t.mem.arena, beam := t.mem.beam } }

theorem SessionOnly.trans {s t u : State} (h : SessionOnly s t) (h' : SessionOnly t u) :
    SessionOnly s u := by
  unfold SessionOnly at h h' ⊢
  rw [h', h]

theorem openSession_sessionOnly (s : State) (ntot nch n : Nat) :
    SessionOnly s (openSession s ntot nch n) := by
  unfold SessionOnly openSession
  simp only []
  rw [growLevels_onlyTree]
  rfl

theorem DidStep.sessionOnly {s t : State} (h : DidStep s t) : SessionOnly s t := by
  rw [h.eq, prune_eq, scoreBeam_onlyTree]
  rfl

theorem DidSteps.sessionOnly {n : Nat} {s t : State} (h : DidSteps n s t) : SessionOnly s t := by
  induction h with
  | zero s => rfl
  | succ h _ ih => exact h.sessionOnly.trans ih

theorem DidStep.phase {s t : State} (h : DidStep s t) : t.phase = .dec := by
  rw [h.eq, prune_eq]
  exact (scoreBeam_onlyTree s _).phase.trans h.dec

/-- DECODE closes its session again: t is s but for OBUF, OLEN, BCOST, the session CSRs and the cells of
RX, ARENA and BEAM. -/
theorem terminated_eq (s : State) :
    terminated s =
      { s with
        mem := { s.mem with obuf := (terminated s).mem.obuf }
        olen := (terminated s).olen
        bcost := (terminated s).bcost
        sess := Session.closed
        phase := .idle } := rfl

end Sys2Proof.Machine
end

