-- ==== Sys2Proof/Laws/Events.lean ====
section
/-! SUPPORT. The session commands do not look at the host's later events; runs of several steps. -/

namespace Sys2Proof.Machine

/-- s with other events of the host yet to come. -/
abbrev withPending (es : List HostEvent) (s : State) : State := { s with pending := es }

theorem frontier_withPending (es : List HostEvent) (s : State) (h j : Nat) :
    frontier (withPending es s) h j = frontier s h j :=
  frontier_congr (s := s) (t := withPending es s) rfl fun _ _ _ _ => rfl

theorem expandAll_withPending (es : List HostEvent) (s : State) (fs : List Nat) :
    expandAll (withPending es s) fs = (withPending es (expandAll s fs).1, (expandAll s fs).2) := by
  induction fs generalizing s with
  | nil => rfl
  | cons f fs ih =>
    simp only [expandAll]
    rw [show expand (withPending es s) f = withPending es (expand s f) from rfl, ih]
    rfl

theorem growLevels_withPending (es : List HostEvent) (d : Nat) (s : State) (fs : List Nat) :
    growLevels d (withPending es s) fs =
      (withPending es (growLevels d s fs).1, (growLevels d s fs).2) := by
  induction d generalizing s fs with
  | zero => rfl
  | succ d ih => simp only [growLevels]; rw [expandAll_withPending, ih]

theorem scoreChildren_withPending (es : List HostEvent) (s : State) (ts : List Nat) :
    scoreChildren (withPending es s) ts =
      (withPending es (scoreChildren s ts).1, (scoreChildren s ts).2) := by
  induction ts generalizing s with
  | nil => rfl
  | cons t ts ih =>
    simp only [scoreChildren, scoreChild]
    rw [frontier_withPending, show (withPending es s).conf = s.conf from rfl,
      expandAll_withPending]
    simp only []
    rw [ih, minCost_congr (s := (expandAll s (frontier s t (s.conf.d.toNat - 1))).1)
      (t := withPending es (expandAll s (frontier s t (s.conf.d.toNat - 1))).1) fun _ _ => rfl]

theorem scoreBeam_withPending (es : List HostEvent) (s : State) (ts : List Nat) :
    scoreBeam (withPending es s) ts = (withPending es (scoreBeam s ts).1, (scoreBeam s ts).2) := by
  induction ts generalizing s with
  | nil => rfl
  | cons t ts ih =>
    simp only [scoreBeam]
    rw [show children (withPending es s) t = children s t from rfl, scoreChildren_withPending]
    simp only []
    rw [ih]

theorem openSession_withPending (es : List HostEvent) (s : State) (ntot nch n : Nat) :
    openSession (withPending es s) ntot nch n = withPending es (openSession s ntot nch n) := by
  have h := growLevels_withPending es s.conf.d.toNat
    (setArenaLen
      (({ s.putRx 0 ((divide (s.ibufBytes s.ilen.toNat) s.conf.c.toNat).map word) with
          sess := { s.sess with rxlen := word ntot, nchunk := word nch, nsteps := word n, step := 0 } } :
        State).putNodes 0 [rootNode s.conf.seed]) 1) [0]
  have h1 := congrArg Prod.fst h
  unfold openSession
  simp only [] at h1 ⊢
  exact congrArg (fun u : State =>
    ({ u.putBeam 0 [0] with
        sess := { (u.putBeam 0 [0]).sess with beamlen := 1 }, phase := .dec } : State)) h1

/-- A check that raises does not look at what a passing command makes. -/
theorem map_check {c : Prop} [Decidable c] (f : State → State) (e : Err) (x : Except Err State) :
    Except.map f (if c then .error e else x) = if c then .error e else x.map f := by
  split <;> rfl

theorem decInitState_withPending (es : List HostEvent) (s : State) :
    decInitState (withPending es s) = (decInitState s).map (withPending es) := by
  unfold decInitState
  simp only [map_check, openSession_withPending]
  rfl

theorem decStepState_withPending (es : List HostEvent) (s : State) :
    decStepState (withPending es s) = (decStepState s).map (withPending es) := by
  unfold decStepState
  simp only [map_check]
  rw [show beamHandles (withPending es s) = beamHandles s from rfl, scoreBeam_withPending]
  rfl

theorem decTermState_withPending (es : List HostEvent) (s : State) :
    decTermState (withPending es s) = (decTermState s).map (withPending es) := by
  have hb : beamLeaves (withPending es s) = beamLeaves s :=
    List.flatMap_congr fun x _ => frontier_withPending es s x _
  have hl : ∀ xs, bestLeaf (withPending es s) xs = bestLeaf s xs := by intro xs; cases xs <;> rfl
  have hbt : ∀ n x, backtrack (withPending es s) n x = backtrack s n x := by
    intro n
    induction n with
    | zero => intro x; rfl
    | succ n ih => intro x; simp only [backtrack]; rw [ih]; rfl
  have ht : terminated (withPending es s) = withPending es (terminated s) := by
    simp only [terminated, hb, hl, pathChunks, hbt]; rfl
  unfold decTermState
  simp only [map_check]
  exact congrArg (fun t => if s.phase ≠ .dec then Except.error (seqErr s)
    else if s.sess.step.toNat + 1 ≠ s.sess.nsteps.toNat then Except.error (seqErr s)
    else Except.ok t) ht

/-! ## Runs -/

theorem runSteps_succ {s t : State} (n : Nat) (h : step s = .next t) :
    runSteps (n + 1) s = runSteps n t := by
  simp only [runSteps, h]

/-- A word issued to an engine that is not in HALT runs its command. -/
theorem step_command {w : Word} {i : Instr} (hd : decode w = some i) (s : State)
    (es : List HostEvent) (hp : s.phase ≠ .halt) :
    step { s with pending := .command w :: es } = exec i { s with pending := es } := by
  simp only [step, takeEvent]
  rw [takeCommand_run (s := { s with pending := es }) (.inl hp) hd]

/-- In HALT a run of words other than SRST's changes nothing. -/
theorem runSteps_halt (ws : List Word) (hw : ∀ w ∈ ws, w ≠ srstWord) (s : State)
    (es : List HostEvent) (hp : s.phase = .halt)
    (hq : s.pending = ws.map HostEvent.command ++ es) :
    runSteps ws.length s = .next { s with pending := es } := by
  induction ws generalizing s with
  | nil => simp at hq; subst hq; rfl
  | cons w ws ih =>
    have hs : step s = .next { s with pending := ws.map HostEvent.command ++ es } := by
      simp only [step, takeEvent, hq, List.map_cons, List.cons_append]
      rw [takeCommand_ignored (s := { s with pending := ws.map HostEvent.command ++ es }) hp
        (hw w List.mem_cons_self)]
    rw [List.length_cons, runSteps_succ _ hs]
    exact ih (fun w h => hw w (List.mem_cons_of_mem _ h)) _ hp rfl

end Sys2Proof.Machine
end

