-- ==== Sys2Proof/Laws/TreeInvariant.lean ====
section
/-! SUPPORT. The part of the tree's invariant that says nothing of the beam, and that expanding nodes
keeps it; the frontiers of such a tree (10_state.md R44, R45; 45_decoder.md R173, R174). -/

namespace Sys2Proof.Machine

/-- A draw of a generator of scope c has c bits. -/
theorem draw_lt (seed : Word) {c : Nat} (p : Nat) (hc : c ≤ 31) : draw seed c p < 2 ^ c := by
  have h1 := (rngState seed (p + 1)).isLt
  rw [draw, rngOut_eq_div _ hc, Nat.div_lt_iff_lt_mul (by positivity), ← pow_add]
  exact lt_of_lt_of_le h1 (Nat.pow_le_pow_right (by decide) (by omega))

/-- The most one chunk can add to a cost: L squared errors of at most `2^C - 1` each. -/
def symbolBound (s : State) : Nat := s.conf.l.toNat * (2 ^ s.conf.c.toNat - 1) ^ 2

/-- What holds of an open session's tree, whatever its beam. -/
structure TreeCore (s : State) : Prop where
  params : s.params.Legal
  conf : ConfLegal s.conf
  rxlen : s.sess.rxlen.toNat = s.sess.nchunk.toNat * s.conf.l.toNat
  cost_fits : s.sess.rxlen.toNat * (2 ^ s.conf.c.toNat - 1) ^ 2 < 2 ^ 64
  pos : 1 ≤ s.sess.arenalen.toNat
  cap : s.sess.arenalen.toNat ≤ s.params.arenaCap
  fits : Bounded s.mem.arena s.params.arenaCap
  rx_lt : ∀ t, t < s.sess.rxlen.toNat → (s.rxWord t).toNat < 2 ^ s.conf.c.toNat
  root_msg : (s.node 0).msg = 0
  root_spine : (s.node 0).spine = s.conf.seed
  root_cost : (s.node 0).cost = 0
  root_parent : (s.node 0).parent = Config.noneHandle
  root_depth : (s.node 0).depth = 0
  child : ∀ h, 0 < h → h < s.sess.arenalen.toNat → ChildOfParent s h
  expanded : ∀ h, h < s.sess.arenalen.toNat →
    (s.node h).cbase ≠ Config.noneHandle → OwnsChildren s h

/-- The part of the tree's invariant without the beam, of a state that meets the invariants. -/
theorem WholeInvariant.core {s : State} (h : WholeInvariant s) (hp : s.phase = .dec) : TreeCore s := by
  have h1 := h.registers
  have h2 := h1.dec_open hp
  have h3 := h.tree hp
  exact ⟨h1.params_legal, h1.ready_legal h2.ready, h2.rxlen, h2.cost_fits, h2.arena_pos, h2.arena_le,
    h.arena_fits, h3.rx_lt, h3.root_msg, h3.root_spine, h3.root_cost, h3.root_parent, h3.root_depth,
    h3.child, h3.expanded⟩

/-- It reads only these parts of the state. -/
theorem TreeCore.congr {s t : State} (h : TreeCore s) (e1 : t.params = s.params)
    (e2 : t.conf = s.conf) (e3 : t.sess.rxlen = s.sess.rxlen) (e4 : t.sess.nchunk = s.sess.nchunk)
    (e5 : t.sess.arenalen = s.sess.arenalen) (e6 : t.mem.arena = s.mem.arena)
    (e7 : t.mem.rx = s.mem.rx) (e8 : t.launch = s.launch) : TreeCore t := by
  have hn : t.node = s.node := by funext f; unfold State.node; rw [e6, e8]
  have hr : t.rxWord = s.rxWord := by funext f; unfold State.rxWord; rw [e7, e8]
  have hs : sse t = sse s := by funext a b; unfold sse; rw [e2, e4, hr]
  have hf : fanout t = fanout s := by unfold fanout; rw [e2]
  obtain ⟨a1, a2, a3, a4, a5, a6, a7, a8, a9, a10, a11, a12, a13, a14, a15⟩ := h
  constructor <;>
    simp only [ChildOfParent, OwnsChildren, e1, e2, e3, e4, e5, e6, hn, hr, hs, hf] <;> assumption

theorem noneHandle_toNat : Config.noneHandle.toNat = 2 ^ 32 - 1 := rfl

theorem TreeCore.arenaCap_lt {s : State} (h : TreeCore s) : s.params.arenaCap < 2 ^ 32 - 1 := by
  have := h.params.2.2.2.2.2.1; omega

/-! ## Costs -/

theorem sqdiff_le {a b n : Nat} (ha : a < n) (hb : b < n) : sqdiff a b ≤ (n - 1) ^ 2 := by
  unfold sqdiff; exact Nat.pow_le_pow_left (by omega) 2

/-- The cost of one chunk is bounded. -/
theorem TreeCore.sse_le {s : State} (h : TreeCore s) (sp : Word) {pos : Nat}
    (hp : pos < s.sess.nchunk.toNat) : sse s sp pos ≤ symbolBound s := by
  unfold sse symbolBound
  have := List.sum_le_card_nsmul ((List.range s.conf.l.toNat).map fun p =>
      sqdiff (s.rxWord (p * s.sess.nchunk.toNat + pos)).toNat (draw sp s.conf.c.toNat p))
    ((2 ^ s.conf.c.toNat - 1) ^ 2) (by
      intro x hx
      obtain ⟨p, hpm, rfl⟩ := List.mem_map.1 hx
      rw [List.mem_range] at hpm
      refine sqdiff_le (h.rx_lt _ ?_) (draw_lt sp p h.conf.2.2.2.2.2.1)
      rw [h.rxlen]
      calc _ < p * s.sess.nchunk.toNat + s.sess.nchunk.toNat := by omega
        _ = s.sess.nchunk.toNat * (p + 1) := by ring
        _ ≤ _ := Nat.mul_le_mul_left _ hpm)
  simpa using this

/-- A node's cost is at most its depth times the bound of one chunk. -/
theorem TreeCore.cost_le {s : State} (h : TreeCore s) (n : Nat) :
    ∀ f, f < s.sess.arenalen.toNat → (s.node f).depth.toNat = n → n ≤ s.sess.nchunk.toNat →
      (s.node f).cost.toNat ≤ n * symbolBound s := by
  induction n with
  | zero =>
    intro f hf hd hn
    rcases Nat.eq_zero_or_pos f with rfl | h0
    · rw [h.root_cost]; simp
    · have := (h.child f h0 hf).2.2.2.2.1; omega
  | succ n ih =>
    intro f hf hd hn
    rcases Nat.eq_zero_or_pos f with rfl | h0
    · rw [h.root_depth] at hd; simp at hd
    · obtain ⟨c1, c2, c3, c4, c5, c6, c7⟩ := h.child f h0 hf
      have hpd : (s.node (s.node f).parent.toNat).depth.toNat = n := by omega
      have h1 := ih _ (by omega) hpd (by omega)
      have h2 := h.sse_le (s.node f).spine (show n < s.sess.nchunk.toNat by omega)
      rw [c7, hpd, Nat.add_mul, Nat.one_mul]
      omega

/-! ## Expanding keeps it -/

/-- Expanding an unexpanded node keeps the tree. -/
theorem TreeCore.expand {s : State} (h : TreeCore s) {f : Nat} (hf : f < s.sess.arenalen.toNat)
    (hc : (s.node f).cbase = Config.noneHandle)
    (hd : (s.node f).depth.toNat + 1 ≤ s.sess.nchunk.toNat)
    (hfit : s.sess.arenalen.toNat + fanout s ≤ s.params.arenaCap) : TreeCore (expand s f) := by
  have ho := expand_onlyTree s f
  have hn := expand_node s hf
  have hcl := h.arenaCap_lt
  have hal : (Machine.expand s f).sess.arenalen.toNat = s.sess.arenalen.toNat + fanout s := by
    rw [expand_arenalen, word_toNat (by omega)]
  have hlow : ∀ g, g < s.sess.arenalen.toNat → (Machine.expand s f).node g =
      if g = f then { s.node f with cbase := s.sess.arenalen } else s.node g := by
    intro g hg; rw [hn]; split
    · rfl
    · rw [if_neg (by omega)]
  have hlow2 : ∀ g, g < s.sess.arenalen.toNat →
      ((Machine.expand s f).node g).msg = (s.node g).msg ∧
      ((Machine.expand s f).node g).spine = (s.node g).spine ∧
      ((Machine.expand s f).node g).cost = (s.node g).cost ∧
      ((Machine.expand s f).node g).parent = (s.node g).parent ∧
      ((Machine.expand s f).node g).depth = (s.node g).depth := by
    intro g hg; rw [hlow g hg]; split
    · subst_vars; exact ⟨rfl, rfl, rfl, rfl, rfl⟩
    · exact ⟨rfl, rfl, rfl, rfl, rfl⟩
  have hhigh : ∀ m, m < fanout s →
      (Machine.expand s f).node (s.sess.arenalen.toNat + m) = childNode s f m := by
    intro m hm; rw [hn, if_neg (by omega), if_pos (by omega)]; simp
  have h0 := hlow2 0 h.pos
  refine ⟨by rw [ho.params]; exact h.params, by rw [ho.conf]; exact h.conf,
    by rw [ho.rxlen, ho.nchunk, ho.conf]; exact h.rxlen,
    by rw [ho.rxlen, ho.conf]; exact h.cost_fits, by rw [hal]; have := h.pos; omega,
    by rw [hal, ho.params]; exact hfit,
    bounded_putCells (bounded_putCells h.fits (by simpa using hfit)) (by simp; have := h.cap; omega),
    by rw [ho.rxlen, ho.conf, ho.rxWord]; exact h.rx_lt,
    by rw [h0.1, h.root_msg], by rw [h0.2.1, ho.conf, h.root_spine], by rw [h0.2.2.1, h.root_cost],
    by rw [h0.2.2.2.1, h.root_parent], by rw [h0.2.2.2.2, h.root_depth], ?_, ?_⟩
  · intro g hg0 hg
    rw [hal] at hg
    by_cases hgl : g < s.sess.arenalen.toNat
    · obtain ⟨c1, c2, c3, c4, c5, c6, c7⟩ := h.child g hg0 hgl
      have hpf : (s.node g).parent.toNat ≠ f := by
        intro e; rw [e, hc, noneHandle_toNat] at c2; omega
      obtain ⟨e1, e2, e3, e4, e5⟩ := hlow2 g hgl
      have ep : (Machine.expand s f).node (s.node g).parent.toNat =
          s.node (s.node g).parent.toNat := by rw [hlow _ (by omega), if_neg hpf]
      unfold ChildOfParent
      rw [e4, ep, e1, e2, e3, e5, ho.sse, ho.params, ho.conf, ho.fanout]
      exact ⟨c1, c2, c3, c4, c5, c6, c7⟩
    · obtain ⟨m, rfl⟩ : ∃ m, g = s.sess.arenalen.toNat + m :=
        ⟨g - s.sess.arenalen.toNat, by omega⟩
      have hm : m < fanout s := by omega
      have e := hhigh m hm
      have ef := hlow f hf
      rw [if_pos rfl] at ef
      have wf : (word f).toNat = f := word_toNat (by omega)
      have wm : (word m).toNat = m := word_toNat (by omega)
      unfold ChildOfParent
      rw [e]
      simp only [childNode, wf, ef, wm]
      refine ⟨by omega, by omega, by rw [ho.fanout]; omega, by omega,
        word_toNat (by have := s.sess.nchunk.isLt; omega), by rw [ho.params, ho.conf], ?_⟩
      rw [ho.sse]
      have hcf := h.cost_le _ f hf rfl (by omega)
      have hs := h.sse_le (spineNext s.params.hash (s.node f).spine (word m) s.conf.v.toNat)
        (show (s.node f).depth.toNat < s.sess.nchunk.toNat by omega)
      have hb : ((s.node f).depth.toNat + 1) * symbolBound s < 2 ^ 64 := by
        calc _ ≤ s.sess.nchunk.toNat * symbolBound s := Nat.mul_le_mul_right _ hd
          _ = s.sess.rxlen.toNat * (2 ^ s.conf.c.toNat - 1) ^ 2 := by
            rw [h.rxlen]; unfold symbolBound; ring
          _ < _ := h.cost_fits
      rw [Nat.add_mul, Nat.one_mul] at hb
      rw [BitVec.toNat_add, BitVec.toNat_ofNat, Nat.add_mod_mod, Nat.mod_eq_of_lt (by omega)]
  · intro g hg hgc
    rw [hal] at hg
    unfold OwnsChildren
    rw [ho.fanout, hal]
    by_cases hgl : g < s.sess.arenalen.toNat
    · by_cases hgf : g = f
      · subst hgf
        have e := hlow g hgl
        rw [if_pos rfl] at e
        rw [e]
        refine ⟨hgl, le_rfl, fun m hm => ?_⟩
        rw [hhigh m hm]; exact word_toNat (by omega)
      · have e := hlow g hgl
        rw [if_neg hgf] at e
        rw [e] at hgc ⊢
        obtain ⟨o1, o2, o3⟩ := h.expanded g hgl hgc
        refine ⟨o1, by omega, fun m hm => ?_⟩
        rw [(hlow2 _ (by omega)).2.2.2.1]; exact o3 m hm
    · obtain ⟨m, rfl⟩ : ∃ m, g = s.sess.arenalen.toNat + m :=
        ⟨g - s.sess.arenalen.toNat, by omega⟩
      rw [hhigh m (by omega)] at hgc
      exact absurd rfl hgc

/-- Expanding a list of distinct unexpanded nodes keeps the tree. -/
theorem TreeCore.expandAll (fs : List Nat) : ∀ {s : State}, TreeCore s →
    (∀ f ∈ fs, f < s.sess.arenalen.toNat ∧ (s.node f).cbase = Config.noneHandle ∧
      (s.node f).depth.toNat + 1 ≤ s.sess.nchunk.toNat) → fs.Nodup →
    s.sess.arenalen.toNat + fs.length * fanout s ≤ s.params.arenaCap →
    TreeCore (expandAll s fs).1 := by
  induction fs with
  | nil => intro s h _ _ _; exact h
  | cons f fs ih =>
    intro s h hf hnd hfit
    obtain ⟨hnf, hnd⟩ := List.nodup_cons.1 hnd
    simp only [List.length_cons, Nat.add_mul, Nat.one_mul] at hfit
    obtain ⟨a1, a2, a3⟩ := hf f List.mem_cons_self
    have ho := expand_onlyTree s f
    have hcl := h.arenaCap_lt
    have hal : (Machine.expand s f).sess.arenalen.toNat = s.sess.arenalen.toNat + fanout s := by
      rw [expand_arenalen, word_toNat (by omega)]
    refine ih (h.expand a1 a2 a3 (by omega)) (fun g hg => ?_) hnd
      (by rw [hal, ho.fanout, ho.params]; omega)
    obtain ⟨b1, b2, b3⟩ := hf g (List.mem_cons_of_mem _ hg)
    have : (Machine.expand s f).node g = s.node g := by
      rw [expand_node s a1, if_neg (fun (e : g = f) => hnf (e ▸ hg)), if_neg (by omega)]
    rw [this, hal, ho.nchunk]
    exact ⟨by omega, b2, b3⟩

/-- The nodes that expanding a list makes lie one deeper. -/
theorem expandAll_child_depth {s : State} {fs : List Nat}
    (hlt : ∀ f ∈ fs, f < s.sess.arenalen.toNat) (hnd : fs.Nodup)
    (hfit : s.sess.arenalen.toNat + fs.length * fanout s < 2 ^ 32) (n : Nat)
    (hd : ∀ f ∈ fs, (s.node f).depth.toNat = n) (hn : n + 1 < 2 ^ 32) :
    ∀ c ∈ (expandAll s fs).2, ((expandAll s fs).1.node c).depth.toNat = n + 1 := by
  obtain ⟨h1, -, h3⟩ := expandAll_spec s fs hlt hnd hfit
  have ho := expandAll_onlyTree s fs
  intro c hc
  rw [h1] at hc
  obtain ⟨f, hf, hc⟩ := List.mem_flatMap.1 hc
  obtain ⟨base, b1, b2, b3, b4⟩ := h3 f hf
  simp only [children, List.mem_map, List.mem_range, b3, ho.fanout] at hc
  obtain ⟨m, hm, rfl⟩ := hc
  rw [word_toNat (by omega), b4 m hm]
  simp only [childNode, hd f hf]
  exact word_toNat hn

/-- Growing the tree level after level keeps it. -/
theorem TreeCore.growLevels (d : Nat) : ∀ {s : State} {fs : List Nat} {n : Nat}, TreeCore s →
    Complete s fs 0 → (∀ f ∈ fs, (s.node f).depth.toNat = n) → n + d ≤ s.sess.nchunk.toNat →
    s.sess.arenalen.toNat + fs.length * subtreeSize s.conf.k.toNat d ≤ s.params.arenaCap →
    TreeCore (growLevels d s fs).1 := by
  induction d with
  | zero => intro s fs n h _ _ _ _; exact h
  | succ d ih =>
    intro s fs n h hc hd hn hfit
    have hcl := h.arenaCap_lt
    have hlen : fs.length * subtreeSize s.conf.k.toNat (d + 1) =
        fs.length * fanout s + fs.length * fanout s * subtreeSize s.conf.k.toNat d := by
      rw [subtreeSize_succ, fanout]; ring
    have hlt : ∀ f ∈ fs, f < s.sess.arenalen.toNat := fun f hf =>
      hc.lt f hf 0 (Nat.le_refl _) f (by simp [frontier])
    have hnd : fs.Nodup := by simpa [frontiers_zero] using hc.nodup
    have hfit1 : s.sess.arenalen.toNat + fs.length * fanout s < 2 ^ 32 := by omega
    have ho := expandAll_onlyTree s fs
    have hnc := s.sess.nchunk.isLt
    simp only [Machine.growLevels]
    refine ih (n := n + 1)
      (TreeCore.expandAll fs h (fun f hf => ⟨hlt f hf, hc.leaves f hf f (by simp [frontier]),
        by rw [hd f hf]; omega⟩) hnd (by omega))
      (expandAll_leaves hc hfit1).1 (expandAll_child_depth hlt hnd hfit1 n hd (by omega))
      (by rw [ho.nchunk]; omega) ?_
    rw [expandAll_arenalen, word_toNat hfit1, expandAll_length, ho.conf, ho.params]
    omega

/-! ## The frontiers of such a tree -/

/-- A child of an expanded node. -/
theorem TreeCore.child_mem {s : State} (h : TreeCore s) {f c : Nat} (hf : f < s.sess.arenalen.toNat)
    (hc : (s.node f).cbase ≠ Config.noneHandle) (hm : c ∈ children s f) :
    c < s.sess.arenalen.toNat ∧ f < c ∧ (s.node c).parent.toNat = f ∧
      (s.node c).depth.toNat = (s.node f).depth.toNat + 1 ∧ ChildOfParent s c := by
  obtain ⟨o1, o2, o3⟩ := h.expanded f hf hc
  simp only [children, List.mem_map, List.mem_range] at hm
  obtain ⟨m, hm, rfl⟩ := hm
  have hlt : (s.node f).cbase.toNat + m < s.sess.arenalen.toNat := by omega
  have hch := h.child _ (by omega) hlt
  have hp := o3 m hm
  refine ⟨hlt, by omega, hp, ?_, hch⟩
  rw [hch.2.2.2.2.1, hp]

/-- Where the nodes above it are expanded, a frontier lies in the arena, j levels deeper. -/
theorem TreeCore.frontier_facts {s : State} (h : TreeCore s) {t : Nat}
    (ht : t < s.sess.arenalen.toNat) (j : Nat)
    (hin : ∀ i, i < j → ∀ f ∈ frontier s t i, (s.node f).cbase ≠ Config.noneHandle) :
    ∀ f ∈ frontier s t j, f < s.sess.arenalen.toNat ∧
      (s.node f).depth.toNat = (s.node t).depth.toNat + j := by
  induction j with
  | zero =>
    intro f hf
    obtain rfl : f = t := by simpa [frontier] using hf
    exact ⟨ht, rfl⟩
  | succ j ih =>
    intro f hf
    rw [frontier_succ] at hf
    obtain ⟨g, hg, hf⟩ := List.mem_flatMap.1 hf
    obtain ⟨g1, g2⟩ := ih (fun i hi => hin i (by omega)) g hg
    obtain ⟨a, -, b, c, -⟩ := h.child_mem g1 (hin j (by omega) g hg) hf
    exact ⟨a, by omega⟩

/-- The frontiers of distinct nodes are distinct nodes. -/
theorem TreeCore.frontiers_nodup {s : State} (h : TreeCore s) {ts : List Nat} (hn : ts.Nodup)
    (ht : ∀ t ∈ ts, t < s.sess.arenalen.toNat) (j : Nat)
    (hin : ∀ t ∈ ts, ∀ i, i < j → ∀ f ∈ frontier s t i, (s.node f).cbase ≠ Config.noneHandle) :
    (frontiers s ts j).Nodup := by
  induction j with
  | zero => rwa [frontiers_zero]
  | succ j ih =>
    have ih := ih (fun t ht i hi => hin t ht i (by omega))
    have e : frontiers s ts (j + 1) = (frontiers s ts j).flatMap (children s) := by
      simp only [frontiers, frontier_succ, List.flatMap_assoc]
    have hfr : ∀ f ∈ frontiers s ts j,
        f < s.sess.arenalen.toNat ∧ (s.node f).cbase ≠ Config.noneHandle := by
      intro f hf
      obtain ⟨t, htm, hf⟩ := mem_frontiers.1 hf
      exact ⟨(h.frontier_facts (ht t htm) j (fun i hi => hin t htm i (by omega)) f hf).1,
        hin t htm j (by omega) f hf⟩
    rw [e, List.nodup_flatMap]
    refine ⟨fun f hf => ?_, ?_⟩
    · exact List.nodup_range.map fun a b hab => by simpa using hab
    · refine ih.imp_of_mem fun {f g} hf hg hfg => ?_
      intro c hcf hcg
      have a := (h.child_mem (hfr f hf).1 (hfr f hf).2 hcf).2.2.1
      have b := (h.child_mem (hfr g hg).1 (hfr g hg).2 hcg).2.2.1
      omega

/-- Distinct nodes whose subtrees are expanded to exactly depth d are complete. -/
theorem TreeCore.complete {s : State} (h : TreeCore s) {ts : List Nat} (hn : ts.Nodup)
    (ht : ∀ t ∈ ts, t < s.sess.arenalen.toNat) {d : Nat}
    (hin : ∀ t ∈ ts, ∀ i, i < d → ∀ f ∈ frontier s t i, (s.node f).cbase ≠ Config.noneHandle)
    (hl : ∀ t ∈ ts, ∀ f ∈ frontier s t d, (s.node f).cbase = Config.noneHandle) :
    Complete s ts d :=
  ⟨fun t htm i hi f hf =>
      (h.frontier_facts (ht t htm) i (fun i' hi' => hin t htm i' (by omega)) f hf).1,
    hin, hl, h.frontiers_nodup hn ht d hin⟩

/-- The beam of a state that meets the invariants is complete to depth D. -/
theorem WholeInvariant.beam_complete {s : State} (h : WholeInvariant s) (hp : s.phase = .dec) :
    Complete s (beamHandles s) s.conf.d.toNat :=
  (h.core hp).complete (h.tree hp).beam_nodup (h.tree hp).beam_lt (h.tree hp).inner
    (h.tree hp).leaves

theorem frontiers_length (s : State) (ts : List Nat) (d : Nat) :
    (frontiers s ts d).length = ts.length * fanout s ^ d := by
  simp [frontiers, List.length_flatMap, frontier_length]

end Sys2Proof.Machine
end

