-- ==== Sys2Proof/Tests/Slice0.lean ====
section
/-! SUPPORT. Tests. Expected values are those of the spec: the encodings of 30_encoding.md, the vectors
V1.1 to V7.2 of 95_test_vectors.md, or a hand count from the rule named. The last part shows, for each
statement with hypotheses, concrete values that meet them. -/

-- One theorem at a time: elaborating all of them at once asks for more threads than a check has room for.
set_option Elab.async false

namespace Sys2Proof.Tests

open Sys2Proof Sys2Proof.Machine Sys2Proof.Claims

/-! ## Helpers -/

/-- The command ends in a next state of which p holds. -/
def after (o : Host.Outcome State Fault Refusal) (p : State → Bool) : Bool :=
  match o with
  | .next t => p t
  | .fault _ => false
  | .refused _ => false

/-- The next state of an outcome. -/
def nextOf (o : Host.Outcome State Fault Refusal) : State :=
  match o with
  | .next t => t
  | .fault _ => State.reset
  | .refused _ => State.reset

/-- An outcome that is a next state is the next state of `nextOf`. -/
theorem eq_next (o : Host.Outcome State Fault Refusal) (h : after o (fun _ => true) = true) :
    o = .next (nextOf o) := by
  cases o
  · rfl
  · exact absurd h Bool.false_ne_true
  · exact absurd h Bool.false_ne_true

/-- The command raises: ERR, EINFO, ECMD as given, and HALT. -/
def raised (o : Host.Outcome State Fault Refusal) (code info cmd : Nat) : Bool :=
  after o fun t => t.error = { err := word code, einfo := word info, ecmd := word cmd } ∧
    t.phase = .halt

/-- The command completes: its next state is not in HALT. -/
def completes (o : Host.Outcome State Fault Refusal) : Bool := after o fun t => t.phase ≠ .halt

/-- The registers from x0 on hold the given values, the rest what they held. -/
def withX (s : State) (vs : List (Reg × Nat)) : State :=
  vs.foldl (fun t p => t.setX p.1 (word p.2)) s

/-- The configuration CSRs K, V, C, L, B, D with SEED 0. -/
def confOf (k v c l b d : Nat) : Conf :=
  { k := word k, v := word v, c := word c, l := word l, b := word b, d := word d, seed := 0 }

/-- IBUF holds the bytes and ILEN is their number. -/
def withInput (s : State) (bytes : List Nat) : State :=
  { s.putIbuf 0 (bytes.map (BitVec.ofNat 8)) with ilen := word bytes.length }

/-- A configured, not yet constructed engine. -/
def configured (k v c l b d : Nat) : State := { State.reset with conf := confOf k v c l b d }

/-- A constructed engine with an input. -/
def constructed (k v c l b d : Nat) (bytes : List Nat) : State :=
  withInput { configured k v c l b d with ready := true } bytes

/-- CHUNK holds the entries and CLEN is their number. -/
def withChunk (s : State) (xs : List Nat) : State :=
  { s.putChunk 0 (xs.map word) with clen := word xs.length }

/-- The C-config and H-config of V6.8. -/
def cConfig : State := constructed 2 16 4 2 2 2 [0x53, 0x30, 0x2C, 0x52]

/-- H-config of V6.8 with some K, L, D, and ILEN bytes. -/
def hConfig (k l d ilen : Nat) : State := constructed k 32 6 l 16 d (List.replicate ilen 7)

/-- A constructed state with other capacities. -/
def withParams (s : State) (f : Config.Params → Config.Params) : State :=
  { s with params := f s.params }

/-! ## Commands that have no encoding -/

theorem test_wf_csrr : (Instr.csrr 1 0xFFF).WellFormed = true ∧
    (Instr.csrr 1 0x1000).WellFormed = false := by decide

theorem test_wf_csrw : (Instr.csrw 1 0xFFF).WellFormed = true ∧
    (Instr.csrw 1 0x1000).WellFormed = false := by decide

theorem test_wf_ldb : (Instr.ldb 1 2 15 0xFFF).WellFormed = true ∧
    (Instr.ldb 1 2 16 0).WellFormed = false ∧ (Instr.ldb 1 2 0 0x1000).WellFormed = false := by decide

theorem test_wf_stb : (Instr.stb 1 2 15 0xFFF).WellFormed = true ∧
    (Instr.stb 1 2 16 0).WellFormed = false ∧ (Instr.stb 1 2 0 0x1000).WellFormed = false := by decide

theorem test_wf_ldw : (Instr.ldw 1 2 15 0xFFF).WellFormed = true ∧
    (Instr.ldw 1 2 16 0).WellFormed = false ∧ (Instr.ldw 1 2 0 0x1000).WellFormed = false := by decide

theorem test_wf_stw : (Instr.stw 1 2 15 0xFFF).WellFormed = true ∧
    (Instr.stw 1 2 16 0).WellFormed = false ∧ (Instr.stw 1 2 0 0x1000).WellFormed = false := by decide

/-! ## Decoding: each command's word, written field by field from its format (30_encoding.md R86 to
R92: opcode in 31:24, then the fields down to bit 0) -/

/-- Format Z. -/
theorem test_decode_nop : decode (0x00#8 ++ 0#24) = some .nop := by decide +kernel

/-- Format I: rd, zero, imm16. -/
theorem test_decode_li : decode (0x01#8 ++ 1#4 ++ 0#4 ++ 0xBEEF#16) = some (.li 1 0xBEEF) := by
  decide +kernel

theorem test_decode_lui : decode (0x02#8 ++ 15#4 ++ 0#4 ++ 0xFFFF#16) = some (.lui 15 0xFFFF) := by
  decide +kernel

/-- Format C: rd or rs, zero, csr. -/
theorem test_decode_csrr : decode (0x08#8 ++ 2#4 ++ 0#8 ++ 0xF00#12) = some (.csrr 2 0xF00) := by
  decide +kernel

theorem test_decode_csrw : decode (0x09#8 ++ 3#4 ++ 0#8 ++ 0x020#12) = some (.csrw 3 0x020) := by
  decide +kernel

/-- Format M: rt, rs1, space, off12. -/
theorem test_decode_ldb : decode (0x10#8 ++ 6#4 ++ 7#4 ++ 1#4 ++ 0x123#12) =
    some (.ldb 6 7 1 0x123) := by decide +kernel

theorem test_decode_stb : decode (0x11#8 ++ 5#4 ++ 0#4 ++ 2#4 ++ 0x003#12) =
    some (.stb 5 0 2 3) := by decide +kernel

theorem test_decode_ldw : decode (0x12#8 ++ 4#4 ++ 2#4 ++ 15#4 ++ 0x006#12) =
    some (.ldw 4 2 15 6) := by decide +kernel

theorem test_decode_stw : decode (0x13#8 ++ 9#4 ++ 8#4 ++ 2#4 ++ 0xFFF#12) =
    some (.stw 9 8 2 0xFFF) := by decide +kernel

theorem test_decode_bmov : decode (0x14#8 ++ 0#24) = some .bmov := by decide +kernel

/-- Format R1: rs, zero. -/
theorem test_decode_bpDiv : decode (0x20#8 ++ 1#4 ++ 0#20) = some (.bpDiv 1) := by decide +kernel

theorem test_decode_bpPack : decode (0x21#8 ++ 14#4 ++ 0#20) = some (.bpPack 14) := by decide +kernel

/-- Format G: rd, rs1, rs2, zero, g; RSEED has no rd, RNEXT has only rd. -/
theorem test_decode_rseed : decode (0x28#8 ++ 0#4 ++ 2#4 ++ 3#4 ++ 0#11 ++ 1#1) =
    some (.rseed 1 2 3) := by decide +kernel

theorem test_decode_rnext : decode (0x29#8 ++ 4#4 ++ 0#4 ++ 0#4 ++ 0#11 ++ 1#1) =
    some (.rnext 4 1) := by decide +kernel

/-- Format R3: rd, rs1, rs2, zero. -/
theorem test_decode_hash : decode (0x30#8 ++ 3#4 ++ 1#4 ++ 2#4 ++ 0#12) = some (.hash 3 1 2) := by
  decide +kernel

theorem test_decode_spine : decode (0x31#8 ++ 15#4 ++ 14#4 ++ 13#4 ++ 0#12) =
    some (.spine 15 14 13) := by decide +kernel

theorem test_decode_construct : decode (0x38#8 ++ 0#24) = some .construct := by decide +kernel

theorem test_decode_encode : decode (0x40#8 ++ 0#24) = some .encode := by decide +kernel

theorem test_decode_decInit : decode (0x48#8 ++ 0#24) = some .decInit := by decide +kernel

theorem test_decode_decStep : decode (0x49#8 ++ 0#24) = some .decStep := by decide +kernel

theorem test_decode_decTerm : decode (0x4A#8 ++ 0#24) = some .decTerm := by decide +kernel

theorem test_decode_decAbort : decode (0x4B#8 ++ 0#24) = some .decAbort := by decide +kernel

theorem test_decode_decode : decode (0x4C#8 ++ 0#24) = some .decode := by decide +kernel

theorem test_decode_srst : decode (0xFF#8 ++ 0#24) = some .srst := by decide +kernel

/-- The illegal words of V7.1. -/
theorem test_decode_illegal :
    ([0x00000001, 0x01110000, 0x03000000, 0x30312001, 0x28123000, 0x28023002, 0x29410000, 0x29400002,
      0x08101010, 0x20110000, 0x38000001, 0x4D000000, 0x80000000, 0xFFFFFFFF, 0xFF000001].map decode) =
      List.replicate 15 none := by decide +kernel

/-- A table word is read as the 32 bits it numbers: V7.1, `STW x15, space 15 [x15 + 0xFFF]`. -/
theorem test_decodeTableWord : decodeTableWord 32 0x13FFFFFF = some (.stw 15 15 15 0xFFF) := by
  decide +kernel

/-! ## Steps: the word issued after reset is the one that runs -/

/-- V1.2: the word of `CSRR x1, IMPID`. -/
theorem test_step_runs_word :
    after (step (State.reset.withFetchWord 32 0x08100F00)) (fun t => t.getX 1 = 0x53504331) = true := by
  decide +kernel

/-- V7.2: an illegal word from reset; SRST leaves HALT, and only the exact word does. -/
theorem test_step_halt :
    raised (step (State.reset.withFetchWord 32 0x00000001)) 0x01 0 0x00000001 = true ∧
    raised (step ((nextOf (step (State.reset.withFetchWord 32 1))).withFetchWord 32 0xFF000001))
      0x01 0 0x00000001 = true ∧
    after (step ((nextOf (step (State.reset.withFetchWord 32 1))).withFetchWord 32 0xFF000000))
      (fun t => statusWord t = 0 ∧ t.error.err = 0) = true := by decide +kernel

/-! ## Operand, CSR and memory commands (V1.1 to V1.5) -/

theorem test_nop : after (execNop (withX State.reset [(1, 7)])) (fun t => t.getX 1 = 7) = true := by
  decide +kernel

/-- V1.1: LI zero-extends and clears the upper half. -/
theorem test_li : after (execLi 2 0xFFFF (withX State.reset [(2, 0xDEADBEEF)]))
    (fun t => t.getX 2 = 0x0000FFFF) = true := by decide +kernel

/-- V1.1: LUI keeps the low half. -/
theorem test_lui : after (execLui 1 0xDEAD (withX State.reset [(1, 0x5555BEEF)]))
    (fun t => t.getX 1 = 0xDEADBEEF) = true := by decide +kernel

/-- V1.2, V1.3; R24 at the ends of its runs of addresses. -/
theorem test_csrr :
    after (execCsrr 1 0xF00 State.reset) (fun t => t.getX 1 = 0x53504331) = true ∧
    raised (execCsrr 1 0x007 State.reset) 0x02 0x7 0x08100007 = true ∧
    [0x000, 0x006, 0x010, 0x013, 0x020, 0x023, 0x030, 0x037].map
      (fun a => completes (execCsrr 1 a State.reset)) = List.replicate 8 true ∧
    [0x00F, 0x014, 0x01F, 0x024, 0x02F, 0x038, 0xEFF, 0xF01].map
      (fun a => raised (execCsrr 0 a State.reset) 0x02 a (0x08000000 + a)) =
        List.replicate 8 true := by decide +kernel

/-- V1.2: SEED is written and read back; a configuration write clears READY (R28). -/
theorem test_csrw :
    after (execCsrw 2 0x006 (withX { State.reset with ready := true } [(2, 0x12345678)]))
      (fun t => t.conf.seed = 0x12345678 ∧ t.ready = false) = true ∧
    after (execCsrw 1 0x022 (withX { State.reset with ready := true } [(1, 524288)]))
      (fun t => t.clen = 524288 ∧ t.ready = true) = true := by decide +kernel

/-- V1.3 and V6.8: read-only, above BUF_CAP, equal to BUF_CAP, above CHUNK_CAP, in a session. -/
theorem test_csrw_checks :
    raised (execCsrw 1 0x021 State.reset) 0x02 0x21 0x09100021 = true ∧
    raised (execCsrw 1 0x020 (withX State.reset [(1, 65537)])) 0x03 0x10001 0x09100020 = true ∧
    after (execCsrw 1 0x020 (withX State.reset [(1, 65536)])) (fun t => t.ilen = 65536) = true ∧
    raised (execCsrw 1 0x022 (withX State.reset [(1, 524289)])) 0x03 524289 0x09100022 = true ∧
    raised (execCsrw 1 0x000 { State.reset with ready := true, phase := .dec }) 0x05 3 0x09100000 =
      true ∧
    completes (execCsrw 1 0x020 { State.reset with phase := .dec }) = true := by decide +kernel

/-- V1.4: the guard of OBUF, a word space, and the last byte of IBUF and the one after it. -/
theorem test_ldb :
    raised (execLdb 1 0 1 0 State.reset) 0x04 0 0x10101000 = true ∧
    raised (execLdb 1 0 2 0 State.reset) 0x04 0 0x10102000 = true ∧
    after (execLdb 2 1 0 1 (withX (State.reset.putIbuf 65535 [0xAB]) [(1, 65534)]))
      (fun t => t.getX 2 = 0xAB) = true ∧
    raised (execLdb 2 1 0 1 (withX State.reset [(1, 65535)])) 0x04 65536 0x10210001 = true ∧
    after (execLdb 2 0 1 2 { State.reset.putObuf 2 [0xF0] with olen := 3 })
      (fun t => t.getX 2 = 0xF0) = true ∧
    raised (execLdb 2 0 1 3 { State.reset with olen := 3 }) 0x04 3 0x10201003 = true := by
  decide +kernel

/-- V1.4: the low byte is stored; OBUF is not writable by the host; the end of IBUF. -/
theorem test_stb :
    after (execStb 1 0 0 5 (withX State.reset [(1, 0x1AB)])) (fun t => t.ibufByte 5 = 0xAB) = true ∧
    raised (execStb 1 0 1 0 State.reset) 0x04 0 0x11101000 = true ∧
    completes (execStb 1 2 0 0 (withX State.reset [(2, 65535)])) = true ∧
    raised (execStb 1 2 0 0 (withX State.reset [(2, 65536)])) 0x04 65536 0x11120000 = true := by
  decide +kernel

/-- V1.4: a byte space, a reserved space, no wrap of the address. -/
theorem test_ldw_checks :
    raised (execLdw 1 0 0 0 State.reset) 0x04 0 0x12100000 = true ∧
    raised (execLdw 1 0 15 0 State.reset) 0x04 0 0x1210F000 = true ∧
    raised (execLdw 2 1 2 0 (withX State.reset [(1, 0xFFFFFFFF)])) 0x04 0xFFFFFFFF 0x12212000 = true ∧
    raised (execLdw 2 1 2 1 (withX State.reset [(1, 0xFFFFFFFF)])) 0x04 0 0x12212001 = true := by
  decide +kernel

/-- The last admitted cell of each word space and the one after it; ARENA word 7 reads 0 (R44). -/
theorem test_ldw :
    let s := { (((State.reset.putChunk 524287 [0xCAFEF00D]).putRx 0 [9]).putNodes 0
                 [rootNode 0x1234]).putBeam 0 [5] with
               sess := { Session.closed with rxlen := 1, arenalen := 1, beamlen := 1 } }
    after (execLdw 2 1 2 0 (withX s [(1, 524287)])) (fun t => t.getX 2 = 0xCAFEF00D) = true ∧
    raised (execLdw 2 1 2 1 (withX s [(1, 524287)])) 0x04 524288 0x12212001 = true ∧
    after (execLdw 2 0 3 0 s) (fun t => t.getX 2 = 9) = true ∧
    raised (execLdw 2 0 3 1 s) 0x04 1 0x12203001 = true ∧
    after (execLdw 2 0 4 1 s) (fun t => t.getX 2 = 0x1234) = true ∧
    after (execLdw 2 0 4 7 s) (fun t => t.getX 2 = 0) = true ∧
    raised (execLdw 2 0 4 8 s) 0x04 8 0x12204008 = true ∧
    after (execLdw 2 0 5 0 s) (fun t => t.getX 2 = 5) = true ∧
    raised (execLdw 2 0 5 1 s) 0x04 1 0x12205001 = true := by decide +kernel

/-- V1.4: the whole cell is stored; only CHUNK is writable; the end of CHUNK. -/
theorem test_stw :
    after (execStw 1 0 2 9 (withX State.reset [(1, 0xCAFEF00D)]))
      (fun t => t.chunkWord 9 = 0xCAFEF00D) = true ∧
    raised (execStw 1 0 3 0 { State.reset with sess := { Session.closed with rxlen := 1 } })
      0x04 0 0x13103000 = true ∧
    completes (execStw 1 2 2 0 (withX State.reset [(2, 524287)])) = true ∧
    raised (execStw 1 2 2 0 (withX State.reset [(2, 524288)])) 0x04 524288 0x13122000 = true := by
  decide +kernel

/-- V1.5. -/
theorem test_bmov :
    after (execBmov { State.reset.putObuf 0 [0xAD, 0x13, 0xE2] with olen := 3 })
      (fun t => t.ilen = 3 ∧ t.ibufBytes 3 = [0xAD, 0x13, 0xE2] ∧ t.olen = 3) = true ∧
    after (execBmov State.reset) (fun t => t.ilen = 0) = true := by decide +kernel

/-! ## BitPacker (V2.1 to V2.5) -/

theorem test_bpDiv :
    after (execBpDiv 1 (withX (withInput State.reset [0xDE, 0xAD, 0xBE, 0xEF]) [(1, 32)]))
      (fun t => chunkInts t 1 = [0xDEADBEEF] ∧ t.clen = 1) = true ∧
    after (execBpDiv 1 (withX (withInput State.reset [0xAB, 0xCD, 0xEF]) [(1, 6)]))
      (fun t => chunkInts t 4 = [0x2A, 0x3C, 0x37, 0x2F] ∧ t.clen = 4) = true ∧
    after (execBpDiv 1 (withX (withInput State.reset [0xFF]) [(1, 1)])) (fun t => t.clen = 8) = true := by
  decide +kernel

/-- V2.5; CHUNK_CAP is tested too (R122). -/
theorem test_bpDiv_checks :
    raised (execBpDiv 1 (withX State.reset [(1, 0)])) 0x06 0 0x20100000 = true ∧
    raised (execBpDiv 1 (withX State.reset [(1, 33)])) 0x06 0x21 0x20100000 = true ∧
    raised (execBpDiv 1 (withX (withInput State.reset [1, 2, 3]) [(1, 5)])) 0x20 3 0x20100000 = true ∧
    raised (execBpDiv 1 (withX (withParams (withInput State.reset [1, 2, 3])
      (fun p => { p with chunkCap := 3 })) [(1, 6)])) 0x30 2 0x20100000 = true := by decide +kernel

theorem test_bpPack :
    after (execBpPack 3 (withX (withChunk State.reset [0xFFFF, 1]) [(3, 16)]))
      (fun t => t.obufBytes 4 = [0xFF, 0xFF, 0x00, 0x01] ∧ t.olen = 4) = true ∧
    after (execBpPack 3 (withX (withChunk State.reset [5, 2, 7, 4, 6, 7, 5, 7]) [(3, 3)]))
      (fun t => t.obufBytes 3 = [0xAB, 0xCD, 0xEF] ∧ t.olen = 3) = true := by decide +kernel

/-- V2.5. -/
theorem test_bpPack_checks :
    raised (execBpPack 3 (withX State.reset [(3, 0)])) 0x06 0 0x21300000 = true ∧
    raised (execBpPack 3 (withX State.reset [(3, 33)])) 0x06 33 0x21300000 = true ∧
    raised (execBpPack 3 (withX (withChunk State.reset [0x2A, 0x40, 0, 0]) [(3, 6)]))
      0x07 1 0x21300000 = true ∧
    raised (execBpPack 3 (withX (withChunk State.reset [0, 0, 0]) [(3, 6)])) 0x21 3 0x21300000 = true ∧
    raised (execBpPack 3 (withX (withParams (withChunk State.reset [0xFFFF, 0xFFFF])
      (fun p => { p with bufCap := 2 })) [(3, 16)])) 0x30 1 0x21300000 = true := by decide +kernel

/-! ## DeterministicRNG (V3.1 to V3.4) -/

theorem test_rseed :
    after (execRseed 0 2 3 (withX State.reset [(3, 6)])) (fun t => t.getG 0 =
      { valid := true, c := 6, state := 0x0005DEECE66D }) = true ∧
    after (execRseed 1 2 3 (withX State.reset [(2, 0xDEADBEEF), (3, 31)])) (fun t => t.getG 1 =
      { valid := true, c := 31, state := 0x000500415882 }) = true ∧
    raised (execRseed 0 2 3 (withX State.reset [(3, 32)])) 0x06 0x20 0x28023000 = true := by
  decide +kernel

theorem test_rnext :
    after (execRnext 4 0 (State.reset.setG 0 { valid := true, c := 6, state := 0x0005DEECE66D }))
      (fun t => t.getX 4 = 0x2E ∧ (t.getG 0).state = 0xBB20B4600A74) = true ∧
    after (execRnext 11 0 (State.reset.setG 0 { valid := true, c := 0, state := 0x000500415882 }))
      (fun t => t.getX 11 = 0 ∧ (t.getG 0).state = 0x21E4252F7B65) = true ∧
    raised (execRnext 1 1 State.reset) 0x05 0 0x29100001 = true := by decide +kernel

theorem test_draw : (List.range 4).map (draw 0 6) = [0x2E, 0x35, 0x0F, 0x26] ∧
    draw 0xDEADBEEF 31 0 = 0x10F21297 ∧ draw 0 16 0 = 0xBB20 := by decide +kernel

/-! ## SpineChain (V4.1 to V4.3) -/

theorem test_hash :
    after (execHash 3 1 2 (withX State.reset [(1, 0x12345678), (2, 0x9ABCDEF0)]))
      (fun t => t.getX 3 = 0x1AA2D8D9) = true ∧
    after (execHash 7 5 4 (withX State.reset [(5, 1)])) (fun t => t.getX 7 = 0x98ADB391) = true := by
  decide +kernel

theorem test_spine :
    after (execSpine 10 4 5 (withX (configured 0 16 0 0 0 0) [(5, 1)]))
      (fun t => t.getX 10 = 0xBEE6) = true ∧
    after (execSpine 11 4 5 (withX (configured 0 1 0 0 0 0) [(5, 1)])) (fun t => t.getX 11 = 0) = true ∧
    after (execSpine 12 12 5 (withX (configured 0 32 0 0 0 0) [(5, 1), (12, 0x009DBEE6)]))
      (fun t => t.getX 12 = 0xEB07D27A) = true ∧
    raised (execSpine 3 1 2 State.reset) 0x11 0 0x31312000 = true ∧
    raised (execSpine 3 1 2 (configured 0 33 0 0 0 0)) 0x11 33 0x31312000 = true := by decide +kernel

theorem test_spineChain : spineChain .oneAtATime 32 0 [4, 8, 6, 9] =
    [0x552B683F, 0xDC63F7EC, 0x120F85F5, 0x22958DA5] := by decide +kernel

/-! ## CONSTRUCT and the Encoder (V5.1 to V5.4) -/

theorem test_construct :
    after (execConstruct (configured 31 32 31 1 1 1)) (fun t => statusWord t = 1) = true ∧
    after (execConstruct (configured 1 1 1 1 1 1)) (fun t => statusWord t = 1) = true := by
  decide +kernel

theorem test_construct_checks :
    raised (execConstruct State.reset) 0x10 0 0x38000000 = true ∧
    raised (execConstruct (configured 32 32 6 1 1 1)) 0x10 0x20 0x38000000 = true ∧
    raised (execConstruct (configured 4 0 6 1 1 1)) 0x11 0 0x38000000 = true ∧
    raised (execConstruct (configured 4 33 32 1 1 1)) 0x11 0x21 0x38000000 = true ∧
    raised (execConstruct (configured 4 32 0 1 1 1)) 0x12 0 0x38000000 = true ∧
    raised (execConstruct (configured 4 32 32 1 1 1)) 0x12 32 0x38000000 = true ∧
    raised (execConstruct (configured 4 32 6 0 1 1)) 0x13 0 0x38000000 = true ∧
    raised (execConstruct (configured 4 32 6 1 0 1)) 0x14 0 0x38000000 = true ∧
    raised (execConstruct (configured 4 32 6 1 1 0)) 0x15 0 0x38000000 = true ∧
    raised (execConstruct { configured 4 32 6 1 1 1 with phase := .dec }) 0x05 2 0x38000000 = true := by
  decide +kernel

/-- V5.2. -/
theorem test_padcount : (List.range 7).map (fun m => padcount m 3) = [0, 2, 1, 0, 2, 1, 0] ∧
    (List.range 7).map (fun m => padcount m 12) = [0, 2, 1, 0, 2, 1, 0] ∧
    (List.range 7).map (fun m => padcount m 31) = [0, 30, 29, 28, 27, 26, 25] := by decide +kernel

theorem test_encode :
    after (execEncode (constructed 4 32 6 1 1 1 [0x48, 0x69]))
      (fun t => t.obufBytes 3 = [0xAD, 0x13, 0xE2] ∧ t.olen = 3 ∧ t.padcnt = 0) = true ∧
    after (execEncode (constructed 2 16 4 2 1 1 [0xB4]))
      (fun t => t.obufBytes 4 = [0x53, 0x30, 0x2C, 0x52] ∧ t.olen = 4) = true ∧
    after (execEncode (constructed 3 16 8 2 1 1 [0xA5])) (fun t => t.olen = 16 ∧ t.padcnt = 2) =
      true := by decide +kernel

/-- V5.4. -/
theorem test_encode_checks :
    raised (execEncode State.reset) 0x05 0 0x40000000 = true ∧
    raised (execEncode (constructed 4 32 6 1 16 1 [0x48])) 0x21 2 0x40000000 = true ∧
    after (execEncode (constructed 4 32 6 1 16 1 [])) (fun t => t.olen = 0 ∧ t.padcnt = 0) = true ∧
    raised (execEncode (withParams (constructed 4 32 8 3 1 1 [0x48, 0, 0])
      (fun p => { p with chunkCap := 17 }))) 0x30 2 0x40000000 = true ∧
    raised (execEncode (withParams (constructed 4 32 6 1 16 1 [0x48, 0])
      (fun p => { p with bufCap := 2 }))) 0x30 1 0x40000000 = true := by decide +kernel

/-! ## The Decoder (V6.1 to V6.8) -/

/-- V6.1: DEC.INIT. -/
theorem test_decInit :
    after (execDecInit cConfig) (fun t => t.sess.arenalen = 21 ∧ t.sess.nsteps = 3 ∧
      (List.range 8).map t.rxWord = [5, 3, 3, 0, 2, 12, 5, 2] ∧ beamHandles t = [0]) = true := by
  decide +kernel

/-- 45_decoder.md R191: breadth first, so the root's children 1 to 4 have theirs at 5, 9, 13, 17. -/
theorem test_decInit_handles : after (execDecInit cConfig) (fun t =>
    ([0, 1, 2, 3, 4, 5].map fun h => (t.node h).cbase) = [1, 5, 9, 13, 17, Config.noneHandle]) = true := by
  decide +kernel

/-- V6.8, and the two capacities the table leaves out. -/
theorem test_decInit_checks :
    raised (execDecInit { cConfig with phase := .dec }) 0x05 3 0x48000000 = true ∧
    raised (execDecInit (hConfig 4 1 1 1)) 0x20 1 0x48000000 = true ∧
    raised (execDecInit (hConfig 4 3 1 3)) 0x20 3 0x48000000 = true ∧
    raised (execDecInit (withParams (hConfig 4 1 1 3) (fun p => { p with chunkCap := 3 })))
      0x30 2 0x48000000 = true ∧
    raised (execDecInit (hConfig 4 1 3 3)) 0x16 4 0x48000000 = true ∧
    raised (execDecInit (hConfig 4 1 1 0)) 0x16 0 0x48000000 = true ∧
    raised (execDecInit (hConfig 3 1 1 3)) 0x21 4 0x48000000 = true ∧
    raised (execDecInit (withParams (hConfig 4 1 1 3) (fun p => { p with bufCap := 1 })))
      0x30 1 0x48000000 = true ∧
    raised (execDecInit (constructed 1 32 31 1 1 1 (List.replicate 31 9))) 0x30 5 0x48000000 = true ∧
    raised (execDecInit (withParams (hConfig 4 1 2 3) (fun p => { p with arenaCap := 100 })))
      0x30 3 0x48000000 = true := by decide +kernel

/-- The all-ties session of V6.2, just opened. -/
def allTies : State := nextOf (execDecInit (constructed 2 8 2 1 2 1 [0xAA]))

/-- V6.2: after one DEC.STEP the beam is [1, 2] and the arena has 21 nodes. -/
theorem test_decStep : after (execDecStep allTies)
    (fun t => t.sess.arenalen = 21 ∧ beamHandles t = [1, 2] ∧ t.sess.step = 1) = true := by
  decide +kernel

/-- V6.1, 45_decoder.md R191: scores 200, 83, 0, 38 put candidates 3 and 4 into the beam. -/
theorem test_decStep_sorts : after (execDecStep (nextOf (execDecInit cConfig)))
    (fun t => t.sess.arenalen = 85 ∧ beamHandles t = [3, 4]) = true := by
  decide +kernel

/-- 45_decoder.md R191: the first DEC.STEP expands 5, 6, ... 20 in this order, from handle 21 on. -/
theorem test_decStep_handles : after (execDecStep (nextOf (execDecInit cConfig))) (fun t =>
    ([5, 6, 8, 9, 13, 17, 20, 21].map fun h => (t.node h).cbase) =
      [21, 25, 33, 37, 53, 69, 81, Config.noneHandle]) = true := by
  decide +kernel

/-- V6.8. -/
theorem test_decStep_checks :
    raised (execDecStep cConfig) 0x05 1 0x49000000 = true ∧
    raised (execDecStep { allTies with sess := { allTies.sess with step := 3 } })
      0x05 3 0x49000000 = true ∧
    raised (execDecStep (withParams allTies (fun p => { p with arenaCap := 20 })))
      0x30 3 0x49000000 = true ∧
    raised (execDecStep (withParams allTies (fun p => { p with candCap := 3 })))
      0x30 4 0x49000000 = true ∧
    raised (execDecStep (withParams allTies (fun p => { p with beamCap := 1 })))
      0x30 4 0x49000000 = true := by decide +kernel

/-- V6.8. -/
theorem test_decTerm_checks :
    raised (execDecTerm cConfig) 0x05 1 0x4A000000 = true ∧
    raised (execDecTerm allTies) 0x05 3 0x4A000000 = true := by decide +kernel

/-- V6.8. -/
theorem test_decAbort :
    raised (execDecAbort cConfig) 0x05 1 0x4B000000 = true ∧
    after (execDecAbort allTies) (fun t => statusWord t = 1 ∧ t.sess = Session.closed) = true := by
  decide +kernel

/-- V6.2 run as one DECODE: the first leaf wins every tie. -/
theorem test_decode : after (execDecode (constructed 2 8 2 1 2 1 [0xAA]))
    (fun t => t.obufBytes 1 = [0x00] ∧ t.olen = 1 ∧ t.bcost = 0 ∧ t.phase = .idle) = true := by
  decide +kernel

/-- V6.8: the fourth step does not fit; no session is left open. -/
theorem test_decode_raises :
    raised (execDecode (withParams (constructed 2 8 2 1 2 1 [0xAA]) (fun p => { p with beamCap := 1 })))
      0x30 4 0x4C000000 = true ∧
    after (execDecode (withParams (constructed 2 8 2 1 2 1 [0xAA]) (fun p => { p with beamCap := 1 })))
      (fun t => t.sess = Session.closed ∧ t.olen = 0) = true := by decide +kernel

/-! ## Reset (46_system.md R200, 70_reset_and_hazards.md R230) -/

theorem test_srst : after (execSrst (withX allTies [(3, 9)]))
    (fun t => t.getX 3 = 0 ∧ statusWord t = 0 ∧ t.sess = Session.closed ∧ t.ibufByte 0 = 0xAA) = true := by
  decide +kernel

/-! ## Witnesses: values that meet the hypotheses of the statements -/

/-- The word w issued to s. -/
def issued (s : State) (w : Nat) : State := s.withFetchWord 32 w

theorem witness_DecodeReadsBackEveryEncodedCommand :
    (Instr.stw 15 15 15 0xFFF).WellFormed = true ∧ Instr.srst.WellFormed = true := by decide

theorem witness_LegalWordIsTheWordOfItsCommand :
    decode 0x28023001 = some (.rseed 1 2 3) := by decide +kernel

/-- The first and the last row of the opcode map, and a row with operands. -/
theorem witness_WordMatchesOneRowByMask :
    [(0x00000000, 0), (0x01F0FFFF, 1), (0xFF000000, 23)].map
      (fun p => (opcodeMap[p.2]?).map fun r =>
        decide (word p.1 &&& r.mask = matchValue r.opcode)) = List.replicate 3 (some true) := by
  decide +kernel

theorem witness_StepRunsTheDecodedCommand :
    ((issued State.reset 0x0110BEEF).pending = [.command 0x0110BEEF] ∧
      decode 0x0110BEEF = some (.li 1 0xBEEF) ∧ (issued State.reset 0x0110BEEF).phase ≠ .halt) ∧
    ((issued { State.reset with phase := .halt } 0xFF000000).pending = [.command 0xFF000000] ∧
      decode 0xFF000000 = some .srst) := by decide +kernel

theorem witness_HaltIgnoresEveryWordButSrst :
    (issued { State.reset with phase := .halt } 0xFF000001).pending = [.command 0xFF000001] ∧
    (issued { State.reset with phase := .halt } 0xFF000001).phase = .halt ∧
    (0xFF000001 : Word) ≠ 0xFF000000 := by decide +kernel

theorem witness_IllegalWordRaisesIllcmd :
    (issued State.reset 0x03000000).pending = [.command 0x03000000] ∧
    (issued State.reset 0x03000000).phase ≠ .halt ∧ decode 0x03000000 = none := by decide +kernel

theorem witness_HardwareResetSetsEveryResetValue :
    { allTies with pending := [.hardwareReset] }.pending = [.hardwareReset] ∧
    after (step { allTies with pending := [.hardwareReset] })
      (fun t => t.phase = .idle ∧ t.launch = 1) = true := by decide +kernel

theorem witness_WaitingEngineHoldsItsState : State.reset.pending = [] := by decide

/-- An error raised in a session. -/
theorem witness_ErrorsArePrecise :
    allTies.phase ≠ .halt ∧ raised (exec .decTerm allTies) 0x05 3 0x4A000000 = true := by
  decide +kernel

/-- Each kind of move: none, an error, opening a session, closing one. -/
theorem witness_PhaseMovesOnlyAsTheTransitionsSay :
    State.reset.phase ≠ .halt ∧ allTies.phase ≠ .halt ∧
    after (exec .nop State.reset) (fun t => t.phase = .idle) = true ∧
    after (exec .encode State.reset) (fun t => t.phase = .halt) = true ∧
    after (exec .decInit cConfig) (fun t => t.phase = .dec) = true ∧
    after (exec .decAbort allTies) (fun t => t.phase = .idle) = true := by decide +kernel

/-- A command that writes a register, one that writes memory, and one that writes neither. -/
theorem witness_RegistersAndMemoriesAreWritten :
    exec (.li 1 5) State.reset = .next (State.reset.setX 1 5) ∧
    after (exec (.stb 1 0 0 5) State.reset) (fun t => t.mem.ibuf ≠ []) = true ∧
    after (exec .construct (configured 4 32 6 1 1 1)) (fun t => t.ready = true) = true :=
  ⟨rfl, by decide +kernel⟩

/-- Both clauses of CsrrReadsTheCsrMap, at the ends of the map and next to them. -/
theorem witness_CsrrReadsTheCsrMap :
    (0x000, 0) ∈ csrTable State.reset ∧ (0xF00, 0x53504331) ∈ csrTable State.reset ∧
    0x007 ∉ (csrTable State.reset).map Prod.fst ∧ 0xEFF ∉ (csrTable State.reset).map Prod.fst := by
  decide +kernel

/-- The clauses of BP.DIV are met at their boundaries in `test_bpDiv` and `test_bpDiv_checks`. -/
theorem witness_BpDivCutsTheInputStream : State.reset.params.Legal ∧
    ((withInput State.reset [1, 2, 3]).params.Legal ∧
      8 * (withInput State.reset [1, 2, 3]).ilen.toNat % 6 = 0) := by decide +kernel

/-- The three outcomes of BP.PACK past its first checks: entry 1 of V2.5, and none. -/
theorem witness_BpPackGluesTheOutputStream :
    State.reset.params.Legal ∧
    (withChunk State.reset [0x2A, 0x40, 0, 0]).chunkWord 1 = 0x40 ∧
    (withChunk State.reset [0x2A, 0x40, 0, 0]).chunkWord 0 = 0x2A ∧
    (∀ j, j < 4 → ((withChunk State.reset [0x2A, 0x3F, 0, 0]).chunkWord j).toNat < 2 ^ 6) := by
  decide +kernel

/-- Widths 1 and 32. -/
theorem witness_DivideAndPackAreInverse :
    ((∀ x ∈ [1, 0, 1, 1, 0, 0, 1, 0], x < 2 ^ 1) ∧ [1, 0, 1, 1, 0, 0, 1, 0].length * 1 % 8 = 0) ∧
    ((∀ x ∈ [0xFFFFFFFF, 0], x < 2 ^ 32) ∧ [0xFFFFFFFF, 0].length * 32 % 8 = 0) ∧
    8 * ([1, 2, 3, 4] : List Byte).length % 32 = 0 := by decide

/-- RSEED and then two RNEXT complete. -/
theorem witness_RnextAfterRseedReturnsTheDraws :
    let s := withX State.reset [(3, 31)]
    (s.getX 3).toNat < 32 ∧ completes (exec (.rseed 0 2 3) s) = true ∧
    (([4, 5] : List Reg).foldlM (m := Option) (fun st r => match exec (.rnext r 0) st with
      | .next st' => some st' | _ => none) (nextOf (exec (.rseed 0 2 3) s))).isSome = true := by
  decide +kernel

theorem witness_DrawsAreBoundedPrefixes : (0 : Nat) ≤ 31 ∧ (31 : Nat) ≤ 31 := by decide

/-- k at both ends of its range. -/
theorem witness_PadcountIsTheLeastThatAligns : 1 ≤ 1 ∧ 1 ≤ 31 ∧ 31 ≤ 31 := by decide

/-- Encoding A of 44_encoder.md R162. -/
def hiConfig (x1 : Nat) : State := withX (constructed 4 32 6 1 16 1 [0x48, 0x69]) [(1, x1)]

theorem witness_EncodeWritesThePackedSymbolStream : EncodeAdmits (hiConfig 0) := by
  constructor <;> decide +kernel

/-- Each clause of ENCODE's checks (V5.4). -/
theorem witness_EncodeRaisesInOrder :
    State.reset.ready = false ∧
    symbolCount (constructed 4 32 6 1 16 1 [0x48]) * 6 % 8 ≠ 0 ∧
    (symbolCount (constructed 4 32 8 3 1 1 [0x48, 0, 0]) * 8 % 8 = 0 ∧
      symbolCount (constructed 4 32 8 3 1 1 [0x48, 0, 0]) > 17) ∧
    (symbolCount (hiConfig 0) * 6 % 8 = 0 ∧ symbolCount (hiConfig 0) ≤ 524288 ∧
      symbolCount (hiConfig 0) * 6 / 8 > 2) := by decide +kernel

/-- The same message and K, V, C, L, SEED with another register, another B and another D. -/
def otherDecoder : State :=
  withX (constructed 4 32 6 1 7 2 [0x48, 0x69]) [(1, 5)]

theorem otherDecoder_admits : EncodeAdmits otherDecoder := by
  constructor <;> decide +kernel

theorem witness_EncodeDependsOnlyOnMessageAndConfiguration :
    EncodeAdmits (hiConfig 0) ∧ EncodeAdmits otherDecoder ∧
    (hiConfig 0).conf.b ≠ otherDecoder.conf.b ∧ (hiConfig 0).conf.d ≠ otherDecoder.conf.d ∧
    { (hiConfig 0).conf with b := 0, d := 0 } = { otherDecoder.conf with b := 0, d := 0 } ∧
    (hiConfig 0).ilen = otherDecoder.ilen ∧ (hiConfig 0).getX 1 ≠ otherDecoder.getX 1 ∧
    (∀ a, a < 2 → (hiConfig 0).ibufByte a = otherDecoder.ibufByte a) ∧
    completes (exec .encode (hiConfig 0)) = true ∧ completes (exec .encode otherDecoder) = true := by
  refine ⟨witness_EncodeWritesThePackedSymbolStream, otherDecoder_admits, ?_⟩
  decide +kernel

/-! ### Sessions with K = V = C = L = B = D = 1 and the input FE. Spine 0 has two children of spine 0
(R152, and bit 0 of H(0, 1) = 0x009DBEE6), and draw(0, 1, 0) = 1 (R140: the top bit of 0xBB20B4600A74),
so every node's spine is 0; RX is seven ones and a zero, and only the last chunk costs 1. -/

/-- The session whose nodes `expanded` have been expanded in that order, with beam [h] at step i. -/
def session (expanded : List Nat) (h i : Nat) : State :=
  let s1 := (constructed 1 1 1 1 1 1 [0xFE]).putRx 0 [1, 1, 1, 1, 1, 1, 1, 0]
  let s2 := { s1 with phase := .dec
                      sess := { Session.closed with rxlen := 8, nchunk := 8, nsteps := 8 } }
  let s3 := (expandAll (setArenaLen (s2.putNodes 0 [rootNode 0]) 1) expanded).1
  { s3.putBeam 0 [word h] with sess := { s3.sess with step := word i, beamlen := 1 } }

/-- As DEC.INIT leaves it: the root expanded, beam [0], STEP 0; the host issues DEC.STEP next. -/
def firstSession : State := issued (session [0] 0 0) 0x49000000

/-- As seven DEC.STEP leave it: every tie goes to the first child (R184), beam [23], STEP 7. -/
def lastSession : State := session [0, 1, 2, 3, 4, 7, 8, 11, 12, 15, 16, 19, 20, 23, 24] 23 7

theorem test_draw_bit : draw 0 1 0 = 1 ∧ spineNext .oneAtATime 0 1 1 = 0 := by decide +kernel

theorem test_firstSession :
    nextOf (exec .decInit (constructed 1 1 1 1 1 1 [0xFE])) = session [0] 0 0 := by
  decide +kernel

/-- The path of seven and one zero chunks costs 1 (R170), and OBUF is their byte. -/
theorem test_decTerm : after (execDecTerm lastSession)
    (fun t => t.obufBytes 1 = [0x00] ∧ t.olen = 1 ∧ t.bcost = 1 ∧ t.phase = .idle) = true := by
  decide +kernel

theorem firstSession_invariant : Invariant firstSession := by
  constructor
  case dec_open => intro; constructor <;> decide +kernel
  all_goals decide +kernel

theorem lastSession_invariant : Invariant lastSession := by
  constructor
  case dec_open => intro; constructor <;> decide +kernel
  all_goals decide +kernel

/-- The nodes below 31 hang below their parents. -/
theorem lastSession_child : ∀ h, h < 31 → 0 < h → ChildOfParent lastSession h := by
  unfold ChildOfParent
  decide +kernel

theorem firstSession_child : ∀ h, h < 3 → 0 < h → ChildOfParent firstSession h := by
  unfold ChildOfParent
  decide +kernel

theorem lastSession_expanded : ∀ h, h < 31 →
    (lastSession.node h).cbase ≠ Config.noneHandle → OwnsChildren lastSession h := by
  unfold OwnsChildren
  decide +kernel

theorem firstSession_expanded : ∀ h, h < 3 →
    (firstSession.node h).cbase ≠ Config.noneHandle → OwnsChildren firstSession h := by
  unfold OwnsChildren
  decide +kernel

theorem firstSession_tree : TreeInvariant firstSession := by
  constructor
  case child => exact fun h h0 hn => firstSession_child h hn h0
  case expanded => exact firstSession_expanded
  all_goals decide +kernel

theorem witness_TreeInvariantAtTheFirstStep : WholeInvariant firstSession :=
  ⟨firstSession_invariant, by decide +kernel, fun _ => firstSession_tree⟩

theorem lastSession_tree : TreeInvariant lastSession := by
  constructor
  case child => exact fun h h0 hn => lastSession_child h hn h0
  case expanded => exact lastSession_expanded
  all_goals decide +kernel

theorem witness_TreeInvariantAtTheLastStep : WholeInvariant lastSession :=
  ⟨lastSession_invariant, by decide +kernel, fun _ => lastSession_tree⟩

/-- Node 1 of the session just opened can be expanded. -/
theorem witness_ExpandMakesEveryChild :
    firstSession.params.Legal ∧ 1 < firstSession.sess.arenalen.toNat ∧
    firstSession.sess.arenalen.toNat + fanout firstSession ≤ firstSession.params.arenaCap ∧
    (firstSession.node 1).depth.toNat + 1 < 2 ^ 32 := by decide +kernel

theorem cConfig_admits : InitAdmits cConfig := by
  constructor <;> decide +kernel

theorem hConfig_admits : InitAdmits (hConfig 4 1 2 3) := by
  constructor <;> decide +kernel

/-- V6.1, and the boundary case of V6.8 (2 * 2 <= 4 + 1). -/
theorem witness_DecInitOpensTheSession : InitAdmits cConfig ∧ InitAdmits (hConfig 4 1 2 3) :=
  ⟨cConfig_admits, hConfig_admits⟩

theorem firstSession_admits : StepAdmits firstSession := by
  constructor <;> decide +kernel

theorem witness_DecStepAdvancesTheSession :
    StepAdmits firstSession ∧ 1 ≤ firstSession.conf.d.toNat :=
  ⟨firstSession_admits, by decide +kernel⟩

theorem witness_DecStepKeepsTheBestCandidates :
    StepAdmits firstSession ∧ WholeInvariant firstSession :=
  ⟨firstSession_admits, witness_TreeInvariantAtTheFirstStep⟩

/-- DEC.TERM outside a session, before the last step, and at it. -/
theorem witness_DecTermWritesTheBestPath :
    State.reset.phase ≠ .dec ∧
    raised (step (issued State.reset 0x4A000000)) 0x05 0 0x4A000000 = true ∧ firstSession.phase = .dec ∧
    lastSession.params.Legal ∧ 1 ≤ lastSession.sess.beamlen.toNat ∧
    lastSession.sess.nchunk.toNat * lastSession.conf.k.toNat / 8 ≤ lastSession.params.bufCap ∧
    lastSession.phase = .dec ∧
    lastSession.sess.step.toNat + 1 = lastSession.sess.nsteps.toNat ∧
    firstSession.sess.step.toNat + 1 ≠ firstSession.sess.nsteps.toNat := by decide +kernel

/-- For DecodedPathHasAllItsChunks and BcostIsTheReencodingDistance; BCOST is 1 there
(`test_decTerm`). -/
theorem witness_SessionAtItsLastStep :
    WholeInvariant lastSession ∧ lastSession.phase = .dec ∧
    lastSession.sess.step.toNat + 1 = lastSession.sess.nsteps.toNat ∧
    beamLeaves lastSession = [27, 28] :=
  ⟨witness_TreeInvariantAtTheLastStep, by decide +kernel⟩

/-- The engine of the sessions above, before DEC.INIT. -/
def beforeSession : State := constructed 1 1 1 1 1 1 [0xFE]

theorem beforeSession_invariant : Invariant beforeSession := by
  constructor
  case dec_open => exact fun h => absurd h (by decide +kernel)
  all_goals decide +kernel

/-- DECODE that completes; the same without READY raises, and so does DECODE in a session, where STATUS is
READY and PHASE = 1, so 3 (R26; V6.8, V5.4). -/
theorem witness_DecodeIsItsCommandSequence :
    Invariant beforeSession ∧ beforeSession.phase = .idle ∧ beforeSession.pending = [] ∧
    after (step (issued beforeSession 0x4C000000)) (fun t => t.phase = .idle ∧ t.olen = 1) = true ∧
    raised (step (issued State.reset 0x4C000000)) 0x05 0 0x4C000000 = true ∧
    Invariant firstSession ∧ firstSession.phase = .dec ∧
    raised (step (issued firstSession 0x4C000000)) 0x05 3 0x4C000000 = true :=
  ⟨beforeSession_invariant, by decide +kernel, by decide +kernel, by decide +kernel, by decide +kernel,
    firstSession_invariant, by decide +kernel⟩

theorem beforeSession_admits : InitAdmits beforeSession := by
  constructor <;> decide +kernel

theorem beforeSession_fits : SessionFits beforeSession := by
  constructor <;> decide +kernel

theorem witness_DecodeCompletesWhenTheSessionFits :
    InitAdmits beforeSession ∧ SessionFits beforeSession :=
  ⟨beforeSession_admits, beforeSession_fits⟩

/-- For the two statements on every step: a session state that meets the invariants, and its step. -/
theorem witness_EveryStepKeepsTheInvariants :
    WholeInvariant firstSession ∧ Invariant firstSession ∧
    step firstSession = .next (nextOf (step firstSession)) ∧
    (nextOf (step firstSession)).sess.step = 1 :=
  ⟨witness_TreeInvariantAtTheFirstStep, firstSession_invariant, eq_next _ (by decide +kernel),
    by decide +kernel⟩

end Sys2Proof.Tests
end

section
/-! The statements of 00_scope.md: the sort of PRUNE (R13), and the step that runs a decoded command
(R2, R16). -/

namespace Sys2Proof.Proofs

open Sys2Proof Sys2Proof.Machine

/-! ## The stable sort (R13) -/

theorem stableSortByScore_perm (xs : List (Nat × Nat)) : (stableSortByScore xs).Perm xs :=
  List.perm_insertionSort _ xs

/-- Scores are totally and transitively ordered, so insertion leaves them ascending. -/
theorem stableSortByScore_pairwise (xs : List (Nat × Nat)) :
    (stableSortByScore xs).Pairwise (fun a b => a.2 ≤ b.2) := by
  have : Std.Total (fun a b : Nat × Nat => a.2 ≤ b.2) := ⟨fun a b => Nat.le_total a.2 b.2⟩
  have : IsTrans (Nat × Nat) (fun a b => a.2 ≤ b.2) := ⟨fun _ _ _ => Nat.le_trans⟩
  exact List.pairwise_insertionSort _ xs

/-- Entries of equal key are ascending as they stand, so the sort keeps them as a subsequence. -/
theorem filter_key_sublist_stableSortByScore (xs : List (Nat × Nat)) (k : Nat) :
    (xs.filter fun p => p.2 == k).Sublist (stableSortByScore xs) := by
  have hkey : ∀ p ∈ xs.filter (fun p => p.2 == k), p.2 = k := fun p hp =>
    beq_iff_eq.mp (List.mem_filter.mp hp).2
  have hasc : (xs.filter fun p => p.2 == k).Pairwise (fun a b => a.2 ≤ b.2) :=
    List.pairwise_of_forall_mem_list fun a ha b hb => ((hkey a ha).trans (hkey b hb).symm).le
  exact List.sublist_insertionSort hasc List.filter_sublist

/-- The entries of key k that were there are a subsequence of those after the sort, and a permutation has
as many of them before as after. -/
theorem stableSortByScore_filter_key (xs : List (Nat × Nat)) (k : Nat) :
    (stableSortByScore xs).filter (fun p => p.2 == k) = xs.filter (fun p => p.2 == k) := by
  have hsub : (xs.filter fun p => p.2 == k).Sublist
      ((stableSortByScore xs).filter fun p => p.2 == k) := by
    simpa [List.filter_filter] using
      (filter_key_sublist_stableSortByScore xs k).filter fun p => p.2 == k
  have hlen := ((stableSortByScore_perm xs).filter fun p => p.2 == k).length_eq
  exact (hsub.eq_of_length hlen.symm).symm

/-- Settles O45: the sort by insertion is the library's, and stability is `stableSortByScore_filter_key`. -/
theorem stableSortIsAscendingAndStable : Obligations.StableSortIsAscendingAndStable := fun xs =>
  ⟨stableSortByScore_perm xs, stableSortByScore_pairwise xs, stableSortByScore_filter_key xs⟩

/-! ## The row a legal word selects (R93) -/

/-- What decoding to a command says: the opcode selects a row of the map, and the word matches it. -/
theorem decode_eq_some {w : Word} {i : Instr} (h : decode w = some i) :
    ∃ r ∈ opcodeMap, r.opcode = slice w 31 24 ∧ w &&& r.mask = matchValue r.opcode ∧
      i = r.build w := by
  unfold decode at h
  split at h
  next => cases h
  next r hr =>
    split_ifs at h with hm
    have hop : (r.opcode == slice w 31 24) = true :=
      List.find?_some (p := fun r : OpcodeRow => r.opcode == slice w 31 24) hr
    exact ⟨r, List.mem_of_find?_eq_some hr, beq_iff_eq.mp hop, hm, (Option.some.inj h).symm⟩

/-- SRST is built by the last row of the map alone, whose format has no operand bit. -/
theorem opcodeMap_build_srst {w : Word} :
    ∀ r ∈ opcodeMap, r.build w = .srst → r.opcode = 0xFF ∧ r.mask = 0xFFFFFFFF := by
  simp [opcodeMap]

/-- Only one word is SRST, the word that is taken in HALT (60_exceptions.md R211). -/
theorem eq_srstWord_of_decode {w : Word} (h : decode w = some .srst) : w = srstWord := by
  obtain ⟨r, hr, -, hmatch, hbuild⟩ := decode_eq_some h
  obtain ⟨hop, hmask⟩ := opcodeMap_build_srst r hr hbuild.symm
  rw [hop, hmask] at hmatch
  have hones : w &&& 0xFFFFFFFF = w := BitVec.and_allOnes
  exact hones.symm.trans hmatch

/-! ## The step on a command word (R16) -/

theorem takeEvent_command {s : State} {w : Word} {es : List HostEvent}
    (hp : s.pending = .command w :: es) : takeEvent s = takeCommand w { s with pending := es } := by
  unfold takeEvent
  rw [hp]

theorem step_of_takeEvent_run {s t : State} {i : Instr} (h : takeEvent s = .run i t) :
    step s = exec i t := by
  unfold step
  rw [h]

/-- Settles O6: outside HALT every word is decoded, and in HALT the word that decodes to SRST is the
exact word that is taken. -/
theorem stepRunsTheDecodedCommand : Obligations.StepRunsTheDecodedCommand := by
  intro s w i es hp hd hi
  have htaken : s.phase ≠ .halt ∨ w = srstWord :=
    hi.imp_right fun (h : i = .srst) => eq_srstWord_of_decode (h ▸ hd)
  exact step_of_takeEvent_run ((takeEvent_command hp).trans (takeCommand_run htaken hd))

end Sys2Proof.Proofs
end

section
/-! The invariant of the registers and memories (10_state.md R28 to R33): one lemma for each kind of
change a command makes to them, then the command, then the step. -/

namespace Sys2Proof.Machine

/-- A number that is bounded is stored below the bound. -/
theorem word_toNat_le {n b : Nat} (h : n ≤ b) : (word n).toNat ≤ b :=
  (BitVec.toNat_ofNat ..).trans_le ((Nat.mod_le _ _).trans h)

/-! ## The memories (20_memory.md R60) -/

/-- What `Invariant` says of the memories: canonical form, and no cell listed at or beyond a capacity. -/
structure MemoryFits (p : Config.Params) (m : Memory) : Prop where
  wf : m.wf
  ibuf : Bounded m.ibuf p.bufCap
  obuf : Bounded m.obuf p.bufCap
  chunk : Bounded m.chunk p.chunkCap
  rx : Bounded m.rx p.chunkCap
  beam : Bounded m.beam p.beamCap

theorem Invariant.memoryFits {s : State} (h : Invariant s) : MemoryFits s.params s.mem :=
  ⟨h.mem_wf, h.ibuf_fits, h.obuf_fits, h.chunk_fits, h.rx_fits, h.beam_fits⟩

theorem memoryFits_unwritten (p : Config.Params) : MemoryFits p Memory.unwritten :=
  ⟨unwritten_wf, List.forall_mem_nil _, List.forall_mem_nil _, List.forall_mem_nil _,
    List.forall_mem_nil _, List.forall_mem_nil _⟩

section
variable {p : Config.Params} {m : Memory} {a : Nat}

theorem MemoryFits.putIbuf (h : MemoryFits p m) {bs : List Byte} (ha : a + bs.length ≤ p.bufCap) :
    MemoryFits p { m with ibuf := putCells m.ibuf a bs } :=
  { h with
    wf := ⟨canonical_putCells h.wf.1 a bs, h.wf.2⟩
    ibuf := bounded_putCells h.ibuf ha }

theorem MemoryFits.putObuf (h : MemoryFits p m) {bs : List Byte} (ha : a + bs.length ≤ p.bufCap) :
    MemoryFits p { m with obuf := putCells m.obuf a bs } := by
  obtain ⟨hi, ho, hrest⟩ := h.wf
  exact { h with
    wf := ⟨hi, canonical_putCells ho a bs, hrest⟩
    obuf := bounded_putCells h.obuf ha }

theorem MemoryFits.putChunk (h : MemoryFits p m) {ws : List Word} (ha : a + ws.length ≤ p.chunkCap) :
    MemoryFits p { m with chunk := putCells m.chunk a ws } := by
  obtain ⟨hi, ho, hc, hrest⟩ := h.wf
  exact { h with
    wf := ⟨hi, ho, canonical_putCells hc a ws, hrest⟩
    chunk := bounded_putCells h.chunk ha }

theorem MemoryFits.putRx (h : MemoryFits p m) {ws : List Word} (ha : a + ws.length ≤ p.chunkCap) :
    MemoryFits p { m with rx := putCells m.rx a ws } := by
  obtain ⟨hi, ho, hc, hr, hrest⟩ := h.wf
  exact { h with
    wf := ⟨hi, ho, hc, canonical_putCells hr a ws, hrest⟩
    rx := bounded_putCells h.rx ha }

theorem MemoryFits.putBeam (h : MemoryFits p m) {ws : List Word} (ha : a + ws.length ≤ p.beamCap) :
    MemoryFits p { m with beam := putCells m.beam a ws } := by
  obtain ⟨hi, ho, hc, hr, hn, hb⟩ := h.wf
  exact { h with
    wf := ⟨hi, ho, hc, hr, hn, canonical_putCells hb a ws⟩
    beam := bounded_putCells h.beam ha }

theorem MemoryFits.setArena (h : MemoryFits p m) {ns : CellMap Node} (hns : Canonical ns) :
    MemoryFits p { m with arena := ns } := by
  obtain ⟨hi, ho, hc, hr, -, hb⟩ := h.wf
  exact { h with wf := ⟨hi, ho, hc, hr, hns, hb⟩ }

end

/-! ## Changes that keep the invariant -/

section
variable {s t : State}

theorem SessionOpen.congr (h : SessionOpen s) (hready : t.ready = s.ready) (hconf : t.conf = s.conf)
    (hparams : t.params = s.params) (hsess : t.sess = s.sess) : SessionOpen t := by
  obtain ⟨ready, rxlen, rxfits, nsteps, depth, step, bpos, ble, apos, ale, aligned, out, cost⟩ := h
  constructor <;> simp only [hready, hconf, hparams, hsess] <;> assumption

/-- X, the contexts, BCOST, the launch and the host's events are free. -/
theorem Invariant.frame (h : Invariant s)
    (e : t = { s with x := t.x, g := t.g, bcost := t.bcost, launch := t.launch,
                      pending := t.pending }) : Invariant t := by
  rw [e]
  exact { h with dec_open := fun hp => (h.dec_open hp).congr rfl rfl rfl rfl }

/-- IBUF, OBUF and CHUNK with ILEN, OLEN, CLEN and PADCNT, each within its bound (R30, R31). -/
theorem Invariant.setBuffers (h : Invariant s)
    (e : t = { s with mem := t.mem, ilen := t.ilen, olen := t.olen, clen := t.clen,
                      padcnt := t.padcnt })
    (hmem : MemoryFits s.params t.mem) (hilen : t.ilen.toNat ≤ s.params.bufCap)
    (holen : t.olen.toNat ≤ s.params.bufCap) (hclen : t.clen.toNat ≤ s.params.chunkCap)
    (hpad : t.padcnt.toNat ≤ 30) : Invariant t := by
  rw [e]
  exact { h with
    mem_wf := hmem.wf, ibuf_fits := hmem.ibuf, obuf_fits := hmem.obuf, chunk_fits := hmem.chunk
    rx_fits := hmem.rx, beam_fits := hmem.beam
    ilen_le := hilen, olen_le := holen, clen_le := hclen, padcnt_le := hpad
    dec_open := fun hp => (h.dec_open hp).congr rfl rfl rfl rfl }

/-- The configuration and READY outside a session (R28). -/
theorem Invariant.setConf (h : Invariant s) (e : t = { s with conf := t.conf, ready := t.ready })
    (hdec : s.phase ≠ .dec) (hlegal : t.ready = true → ConfLegal t.conf) : Invariant t := by
  rw [e]
  exact { h with ready_legal := hlegal, dec_open := fun hp => absurd hp hdec }

/-- A session that is opened or goes on (R32, R33). -/
theorem Invariant.setSession (h : Invariant s) (hhalt : s.phase ≠ .halt)
    (e : t = { s with mem := t.mem, sess := t.sess, phase := .dec })
    (hmem : MemoryFits s.params t.mem) (hopen : SessionOpen t) : Invariant t := by
  have hphase : t.phase = .dec := by rw [e]
  have herr : ¬ s.error.err ≠ 0 := mt h.err_iff_halt.1 hhalt
  rw [e]
  exact { h with
    mem_wf := hmem.wf, ibuf_fits := hmem.ibuf, obuf_fits := hmem.obuf, chunk_fits := hmem.chunk
    rx_fits := hmem.rx, beam_fits := hmem.beam
    err_iff_halt := iff_of_false herr (by simp)
    idle_closed := fun hp => by cases hp
    dec_open := fun _ => e ▸ hopen }

theorem Invariant.closeSession (h : Invariant s) (hdec : s.phase = .dec) :
    Invariant (closeSession s) := by
  have herr : ¬ s.error.err ≠ 0 := mt h.err_iff_halt.1 (by rw [hdec]; simp)
  exact { h with
    err_iff_halt := iff_of_false herr (by simp)
    idle_closed := fun _ => rfl
    dec_open := fun hp => by cases hp }

/-- The codes of 60_exceptions.md R206 are nonzero bytes. -/
theorem Err.code_pos_lt (e : Err) : 0 < e.code ∧ e.code < 2 ^ 8 := by
  cases e <;> simp [Err.code]

theorem Err.word_code_toNat (e : Err) : (word e.code).toNat = e.code :=
  word_toNat (lt_trans e.code_pos_lt.2 (by decide))

/-- Error entry sets ERR and enters HALT together (R29). -/
theorem Invariant.errorEntry (h : Invariant s) (e : Err) (cmd : Word) :
    Invariant (errorEntry e cmd s) := by
  have hne : word e.code ≠ 0 := fun h0 => by
    have h1 := e.word_code_toNat
    rw [h0] at h1
    exact absurd e.code_pos_lt.1 (by rw [← h1]; simp)
  exact { h with
    err_iff_halt := iff_of_true hne rfl
    err_byte := e.word_code_toNat.trans_lt e.code_pos_lt.2
    idle_closed := fun hp => by cases hp
    dec_open := fun hp => by cases hp }

/-- The reset values (R50) meet the invariant over any memories that fit. -/
theorem invariant_softwareReset (hp : s.params.Legal) (hm : MemoryFits s.params s.mem) :
    Invariant (softwareReset s) where
  params_legal := hp
  mem_wf := hm.wf
  ibuf_fits := hm.ibuf
  obuf_fits := hm.obuf
  chunk_fits := hm.chunk
  rx_fits := hm.rx
  beam_fits := hm.beam
  ilen_le := Nat.zero_le _
  olen_le := Nat.zero_le _
  clen_le := Nat.zero_le _
  padcnt_le := Nat.zero_le _
  err_iff_halt := by simp [softwareReset, ErrorRecord.none]
  err_byte := by simp [softwareReset, ErrorRecord.none]
  ready_legal := fun hr => by cases hr
  idle_closed := fun _ => rfl
  dec_open := fun hd => by cases hd

/-- Hardware reset is the software reset of the memories unwritten (R50, R51). -/
theorem hardwareReset_eq (s : State) : hardwareReset s =
    softwareReset { s with mem := Memory.unwritten, launch := s.launch + 1 } := rfl

theorem State.reset_eq : State.reset = softwareReset State.reset := rfl

theorem invariant_hardwareReset (hp : s.params.Legal) : Invariant (hardwareReset s) := by
  rw [hardwareReset_eq]
  exact invariant_softwareReset hp (memoryFits_unwritten _)

end

end Sys2Proof.Machine
end

section
/-! What opening, advancing and ending a session does to the registers and memories (45_decoder.md R174,
R180, R181, R185). -/

namespace Sys2Proof.Machine

open Sys2Proof.Claims

/-! ## Growing the tree, whatever it starts from -/

section
variable {P : State → Prop} (hP : ∀ s f, P s → P (expand s f))
include hP

/-- What every `expand` keeps, expanding a list of nodes keeps. -/
theorem expandAll_keeps (fs : List Nat) : ∀ {s : State}, P s → P (expandAll s fs).1 := by
  induction fs with
  | nil => exact id
  | cons f fs ih => intro s h; rw [expandAll]; exact ih (hP s f h)

theorem growLevels_keeps (d : Nat) :
    ∀ {s : State} (fs : List Nat), P s → P (growLevels d s fs).1 := by
  induction d with
  | zero => exact fun _ h => h
  | succ d ih => intro s fs h; rw [growLevels]; exact ih _ (expandAll_keeps hP fs h)

theorem scoreChildren_keeps (ts : List Nat) : ∀ {s : State}, P s → P (scoreChildren s ts).1 := by
  induction ts with
  | nil => exact id
  | cons t ts ih => intro s h; rw [scoreChildren]; exact ih (expandAll_keeps hP _ h)

theorem scoreBeam_keeps (hs : List Nat) : ∀ {s : State}, P s → P (scoreBeam s hs).1 := by
  induction hs with
  | nil => exact id
  | cons t ts ih => intro s h; rw [scoreBeam]; exact ih (scoreChildren_keeps hP _ h)

end

theorem expand_canonical (s : State) (f : Nat) (h : Canonical s.mem.arena) :
    Canonical (expand s f).mem.arena :=
  canonical_putCells (canonical_putCells h _ _) _ _

/-! ## DEC.INIT -/

/-- The state DEC.INIT grows the tree in: RX filled, the arena holding the root alone (R180). -/
def planted (s : State) : State :=
  let rx := (divide (s.ibufBytes s.ilen.toNat) s.conf.c.toNat).map word
  let s1 := { s.putRx 0 rx with
              sess := { s.sess with
                rxlen := word (received s), nchunk := word (streamChunks s)
                nsteps := word (streamSteps s), step := 0 } }
  setArenaLen (s1.putNodes 0 [rootNode s.conf.seed]) 1

/-- The tree DEC.INIT grows. -/
def grown (s : State) : State := (growLevels s.conf.d.toNat (planted s) [0]).1

theorem grown_onlyTree (s : State) : OnlyTree (planted s) (grown s) := growLevels_onlyTree _ _ _

theorem grown_arenalen (s : State) :
    (grown s).sess.arenalen = word (1 + subtreeSize s.conf.k.toNat s.conf.d.toNat) := by
  rw [grown, growLevels_arenalen]
  simp [planted, setArenaLen]

@[simp] theorem ibufBytes_length (s : State) (n : Nat) : (s.ibufBytes n).length = n := by
  simp [State.ibufBytes]

@[simp] theorem obufBytes_length (s : State) (n : Nat) : (s.obufBytes n).length = n := by
  simp [State.obufBytes]

section
variable {s t : State}

theorem SessionOnly.eq_of_phase (h : SessionOnly s t) (hp : t.phase = .dec) :
    t = { s with mem := t.mem, sess := t.sess, phase := .dec } := by
  rw [SessionOnly, hp] at h
  rw [h]

/-- DEC.INIT makes the root the beam of the tree it has grown. -/
theorem DidInit.eq_grown (hi : DidInit s t) :
    t = { (grown s).putBeam 0 [0] with
          sess := { (grown s).sess with beamlen := 1 }, phase := .dec } := hi.eq

theorem DidInit.phase (hi : DidInit s t) : t.phase = .dec := by rw [hi.eq_grown]

theorem DidInit.sess (hi : DidInit s t) :
    t.sess =
      { rxlen := word (received s), nchunk := word (streamChunks s), nsteps := word (streamSteps s)
        step := 0, beamlen := 1
        arenalen := word (1 + subtreeSize s.conf.k.toNat s.conf.d.toNat) } := by
  rw [hi.eq_grown, ← grown_arenalen]
  simp only []
  rw [grown_onlyTree]
  rfl

theorem DidInit.mem (hi : DidInit s t) :
    t.mem =
      { s.mem with
        rx := putCells s.mem.rx 0 ((divide (s.ibufBytes s.ilen.toNat) s.conf.c.toNat).map word)
        arena := (grown s).mem.arena
        beam := putCells s.mem.beam 0 [0] } := by
  rw [hi.eq_grown]
  simp only [State.putBeam]
  rw [grown_onlyTree]
  rfl

theorem DidInit.sessionOnly (hi : DidInit s t) : SessionOnly s t :=
  hi.eq ▸ openSession_sessionOnly _ _ _ _

theorem DidInit.memoryFits (h : Invariant s) (hi : DidInit s t) : MemoryFits s.params t.mem := by
  have harena : Canonical (grown s).mem.arena := by
    obtain ⟨-, -, -, -, hold, -⟩ := h.mem_wf
    exact growLevels_keeps (P := fun u => Canonical u.mem.arena) expand_canonical _ _
      (canonical_putCells hold 0 _)
  have hbeam : 0 + [(0 : Word)].length ≤ s.params.beamCap := by
    obtain ⟨-, -, -, -, -, -, hb, -⟩ := h.params_legal
    exact hb
  have hrx : 0 + ((divide (s.ibufBytes s.ilen.toNat) s.conf.c.toNat).map word).length ≤
      s.params.chunkCap := by
    simpa using hi.symbols
  rw [hi.mem]
  exact ((h.memoryFits.putRx hrx).setArena harena).putBeam hbeam

/-- The decision depth is reached, and no step is missing (R180 (b)). -/
theorem DidInit.depth_le (hlegal : ConfLegal s.conf) (hi : DidInit s t) :
    s.conf.d.toNat ≤ streamSteps s ∧ streamSteps s + s.conf.d.toNat = streamChunks s + 1 := by
  obtain ⟨-, -, -, -, -, -, -, -, hd⟩ := hlegal
  have := hi.depth
  unfold streamSteps streamChunks received
  omega

theorem DidInit.received_eq (hi : DidInit s t) :
    received s = streamChunks s * s.conf.l.toNat :=
  (Nat.div_mul_cancel (Nat.dvd_of_mod_eq_zero hi.passes)).symm

/-- The session DEC.INIT opens, its counts small enough for their CSRs. -/
theorem DidInit.counts (h : Invariant s) (hi : DidInit s t) :
    t.sess.rxlen.toNat = received s ∧ t.sess.nchunk.toNat = streamChunks s ∧
    t.sess.nsteps.toNat = streamSteps s ∧ t.sess.step = 0 ∧ t.sess.beamlen = 1 ∧
    t.sess.arenalen.toNat = 1 + subtreeSize s.conf.k.toNat s.conf.d.toNat := by
  obtain ⟨-, -, -, hchunk, -, harena, -⟩ := h.params_legal
  obtain ⟨hsteps, hsum⟩ := hi.depth_le (h.ready_legal hi.ready)
  have hsym : received s ≤ s.params.chunkCap := hi.symbols
  have hle : streamChunks s ≤ received s := Nat.div_le_self _ _
  have hdepth : 2 * s.conf.d.toNat ≤ streamChunks s + 1 := hi.depth
  have hnodes := hi.nodes
  obtain ⟨-, -, -, -, -, -, -, -, hd⟩ := h.ready_legal hi.ready
  rw [hi.sess]
  exact ⟨word_toNat (by omega), word_toNat (by omega), word_toNat (by omega), rfl, rfl,
    word_toNat (by omega)⟩

/-- The registers of the session DEC.INIT opens (R180; R32, R33). -/
theorem DidInit.sessionOpen (h : Invariant s) (hi : DidInit s t) : SessionOpen t := by
  obtain ⟨hrx, hchunks, hsteps, hstep, hbeam, harena⟩ := hi.counts h
  obtain ⟨hdle, hsum⟩ := hi.depth_le (h.ready_legal hi.ready)
  obtain ⟨-, -, -, -, -, -, hbcap, -⟩ := h.params_legal
  obtain ⟨-, -, -, -, -, -, -, hb, hd⟩ := h.ready_legal hi.ready
  have hframe := hi.sessionOnly
  have hready : t.ready = true := by rw [hframe]; exact hi.ready
  have hconf : t.conf = s.conf := by rw [hframe]
  have hparams : t.params = s.params := by rw [hframe]
  constructor <;> simp only [hready, hconf, hparams, hrx, hchunks, hsteps, hstep, hbeam, harena]
  case rxlen => exact hi.received_eq
  case rxfits => exact hi.symbols
  case nsteps => exact hsum
  case depth_le => exact hdle
  case step_lt => exact hd.trans hdle
  case beam_pos => exact le_rfl
  case beam_le => exact le_min hb hbcap
  case arena_pos => exact Nat.le_add_right _ _
  case arena_le => exact hi.nodes
  case out_aligned => exact hi.aligned
  case out_fits => exact hi.bytes
  case cost_fits => exact hi.cost

theorem DidInit.invariant (h : Invariant s) (hi : DidInit s t) : Invariant t :=
  h.setSession (by rw [hi.idle]; simp) (hi.sessionOnly.eq_of_phase hi.phase) (hi.memoryFits h)
    (hi.sessionOpen h)

/-! ## DEC.STEP -/

theorem DidStep.eq_update (h : DidStep s t) :
    t = { s with
          mem := { s.mem with arena := t.mem.arena, beam := t.mem.beam }
          sess := { s.sess with
            step := s.sess.step + 1, beamlen := t.sess.beamlen, arenalen := t.sess.arenalen } } := by
  rw [h.eq, prune_eq, scoreBeam_onlyTree]

/-- The handles PRUNE keeps, best score first (R184). -/
def kept (s : State) : List Nat :=
  ((stableSortByScore (scoreBeam s (beamHandles s)).2).take
    (min s.conf.b.toNat (scoreBeam s (beamHandles s)).2.length)).map Prod.fst

/-- One candidate for each child of the beam, of which PRUNE keeps at most B (R181, R184). -/
theorem kept_length (s : State) :
    (kept s).length = min s.conf.b.toNat (s.sess.beamlen.toNat * 2 ^ s.conf.k.toNat) := by
  simp [kept, stableSortByScore, List.length_insertionSort, scoreBeam_length, fanout]

theorem DidStep.beam_eq (h : DidStep s t) :
    t.mem.beam = putCells s.mem.beam 0 ((kept s).map word) := by
  have ho := scoreBeam_onlyTree s (beamHandles s)
  rw [h.eq, prune_eq]
  simp only [ho.conf, ho.beam, kept, List.map_map, Function.comp_def]

theorem DidStep.beamlen (hlegal : s.params.Legal) (h : DidStep s t) :
    t.sess.beamlen.toNat = (kept s).length := by
  obtain ⟨-, -, -, -, -, -, -, hcap, -⟩ := hlegal
  have hbeam := h.beam
  have hconf := (scoreBeam_onlyTree s (beamHandles s)).conf
  rw [h.eq, prune_eq, kept_length]
  simp only [hconf, scoreBeam_length, beamHandles_length, fanout]
  exact word_toNat (by omega)

/-- The arena grows by a whole level below each candidate (R174). -/
theorem DidStep.arenalen (hlegal : s.params.Legal) (hd : 1 ≤ s.conf.d.toNat) (h : DidStep s t) :
    t.sess.arenalen.toNat = s.sess.arenalen.toNat +
      s.sess.beamlen.toNat * 2 ^ (s.conf.k.toNat * (s.conf.d.toNat + 1)) := by
  obtain ⟨-, -, -, -, -, harena, -⟩ := hlegal
  have hnodes := h.nodes
  have hpow : fanout s * (fanout s ^ (s.conf.d.toNat - 1) * fanout s) =
      2 ^ (s.conf.k.toNat * (s.conf.d.toNat + 1)) := by
    rw [← fanout_pow, ← pow_succ, ← pow_succ', Nat.sub_add_cancel hd]
  rw [h.eq, prune_eq]
  simp only [scoreBeam_arenalen, beamHandles_length, hpow]
  exact word_toNat (by omega)

theorem DidStep.memoryFits (hi : Invariant s) (h : DidStep s t) : MemoryFits s.params t.mem := by
  have ho := scoreBeam_onlyTree s (beamHandles s)
  have harena : Canonical (scoreBeam s (beamHandles s)).1.mem.arena := by
    obtain ⟨-, -, -, -, hold, -⟩ := hi.mem_wf
    exact scoreBeam_keeps (P := fun u => Canonical u.mem.arena) expand_canonical _ hold
  have hmem : t.mem = { s.mem with arena := (scoreBeam s (beamHandles s)).1.mem.arena
                                   beam := putCells s.mem.beam 0 ((kept s).map word) } := by
    rw [← h.beam_eq, h.eq, prune_eq, ho]
  rw [hmem]
  refine (hi.memoryFits.setArena harena).putBeam ?_
  rw [Nat.zero_add, List.length_map, kept_length]
  exact h.beam

theorem DidStep.step_toNat (h : DidStep s t) : t.sess.step.toNat = s.sess.step.toNat + 1 := by
  have hleft := h.left
  have := s.sess.nsteps.isLt
  rw [h.eq_update, BitVec.toNat_add]
  exact Nat.mod_eq_of_lt (show s.sess.step.toNat + 1 < 2 ^ 32 by omega)

/-- The registers of a session that has advanced (R181; R32, R33). -/
theorem DidStep.sessionOpen (hi : Invariant s) (h : DidStep s t) : SessionOpen t := by
  have hopen := hi.dec_open h.dec
  obtain ⟨-, -, -, -, -, -, -, hb, hd⟩ := hi.ready_legal hopen.ready
  have hleft := h.left
  have hstep := h.step_toNat
  have hbeam := (h.beamlen hi.params_legal).trans (kept_length s)
  have harena := h.arenalen hi.params_legal hd
  have hpos : 1 ≤ s.sess.beamlen.toNat * 2 ^ s.conf.k.toNat :=
    Nat.mul_pos hopen.beam_pos Nat.one_le_two_pow
  have hcap := h.beam
  have hframe := h.eq_update
  exact {
    ready := by rw [hframe]; exact hopen.ready
    rxlen := by rw [hframe]; exact hopen.rxlen
    rxfits := by rw [hframe]; exact hopen.rxfits
    nsteps := by rw [hframe]; exact hopen.nsteps
    depth_le := by rw [hframe]; exact hopen.depth_le
    step_lt := by rw [hstep, hframe]; exact hleft
    beam_pos := by rw [hbeam]; exact le_min hb hpos
    beam_le := by rw [hbeam, hframe]; exact le_min (min_le_left _ _) hcap
    arena_pos := by rw [harena]; exact hopen.arena_pos.trans (Nat.le_add_right _ _)
    arena_le := by rw [harena, hframe]; exact h.nodes
    out_aligned := by rw [hframe]; exact hopen.out_aligned
    out_fits := by rw [hframe]; exact hopen.out_fits
    cost_fits := by rw [hframe]; exact hopen.cost_fits }

theorem DidStep.invariant (hi : Invariant s) (h : DidStep s t) : Invariant t :=
  hi.setSession (by rw [h.dec]; simp) (h.sessionOnly.eq_of_phase h.phase) (h.memoryFits hi)
    (h.sessionOpen hi)

theorem DidSteps.invariant {n : Nat} (h : DidSteps n s t) : Invariant s → Invariant t := by
  induction h with
  | zero s => exact id
  | succ hstep _ ih => exact fun hi => ih (hstep.invariant hi)

/-! ## DEC.TERM -/

/-- The decoded message has at most the bytes that fit (R180). -/
theorem DidTerm.invariant (hi : Invariant s) (h : DidTerm s t) : Invariant t := by
  obtain ⟨hdec, -, rfl⟩ := h
  have hopen := hi.dec_open hdec
  have hfits := hopen.out_fits
  have hbytes : 0 + (pack (pathChunks s (bestLeaf s (beamLeaves s))) s.conf.k.toNat).length ≤
      s.params.bufCap := by
    rw [Nat.zero_add, pack_length]
    exact (Nat.div_le_div_right (Nat.mul_le_mul_right _ (pathChunks_length s _))).trans hfits
  have holen : (word (s.sess.nchunk.toNat * s.conf.k.toNat / 8)).toNat ≤ s.params.bufCap :=
    word_toNat_le hfits
  have hbuf : Invariant { s.putObuf 0 (pack (pathChunks s (bestLeaf s (beamLeaves s))) s.conf.k.toNat)
      with olen := word (s.sess.nchunk.toNat * s.conf.k.toNat / 8) } :=
    hi.setBuffers rfl (hi.memoryFits.putObuf hbytes) hi.ilen_le holen hi.clen_le hi.padcnt_le
  exact (hbuf.frame (t := { s.putObuf 0 _ with olen := _, bcost := _ }) rfl).closeSession hdec

end

end Sys2Proof.Machine
end

section
/-! Every command and every step keeps the invariant of the registers and memories (10_state.md R28 to
R33); the invariants at reset. -/

namespace Sys2Proof.Machine

variable {s t : State}

/-! ## Memory commands -/

/-- STB and STW write within the capacity of the one space of their kind (R62, R110). -/
theorem memcheck_storeB_lt {space ea : Nat} {sp : Space} (h : memcheck s .storeB space ea = .ok sp) :
    ea < s.params.bufCap := by
  obtain ⟨-, hbyte, hlt⟩ := memcheck_eq_ok.1 h
  cases sp <;> simp_all [AccessKind.isByte, isByteSpace, accessBound, storeBound]

theorem memcheck_storeW_lt {space ea : Nat} {sp : Space} (h : memcheck s .storeW space ea = .ok sp) :
    ea < s.params.chunkCap := by
  obtain ⟨-, hbyte, hlt⟩ := memcheck_eq_ok.1 h
  cases sp <;> simp_all [AccessKind.isByte, isByteSpace, accessBound, storeBound]

/-! ## CSRW -/

/-- A writable CSR is ILEN, CLEN or one of the configuration (R24, R25). -/
theorem isWritableCsr_cases {c : Csr} (h : isWritableCsr c = true) :
    c = .ILEN ∨ c = .CLEN ∨ isConfigCsr c = true := by
  simp only [isWritableCsr, Bool.or_eq_true, beq_iff_eq] at h
  tauto

theorem writeCsr_ILEN (s : State) (v : Word) : writeCsr s .ILEN v = { s with ilen := v } := rfl

theorem writeCsr_CLEN (s : State) (v : Word) : writeCsr s .CLEN v = { s with clen := v } := rfl

theorem writeCsr_config {c : Csr} (h : isConfigCsr c = true) (s : State) (v : Word) :
    writeCsr s c v = { s with conf := writeConf s.conf c v, ready := false } := by
  unfold writeCsr
  split
  · cases h
  · cases h
  · exact if_pos h

/-! ## ENCODE -/

/-- PADCNT is at most 30 (R30), as K is at most 31. -/
theorem padcount_le {mlen k : Nat} (hk : 1 ≤ k) (hk' : k ≤ 31) : padcount mlen k ≤ 30 := by
  have hgcd : Nat.gcd 8 k ∣ k := Nat.gcd_dvd_right 8 k
  have hpos : 0 < k / Nat.gcd 8 k :=
    Nat.div_pos (Nat.le_of_dvd hk hgcd) (Nat.gcd_pos_of_pos_right 8 hk)
  have hle : k / Nat.gcd 8 k ≤ k := Nat.div_le_self _ _
  have hlt : padcount mlen k < k / Nat.gcd 8 k := Nat.mod_lt _ hpos
  omega

/-- The length of the Encoder's output (44_encoder.md R159). -/
theorem encodeFn_length (hp : Config.HashPrimitive) (msg : List Byte) (k v c l : Nat) (seed : Word) :
    (encodeFn hp msg k v c l seed).length =
      l * (8 * (msg.length + padcount msg.length k) / k) * c / 8 := by
  simp [encodeFn, messageSymbols, padded]

/-! ## The command -/

/-- A command's own effect keeps the invariant. -/
theorem Does.invariant {i : Instr} (h : Invariant s) (hd : Does s t i) : Invariant t := by
  have hm := h.memoryFits
  cases i
  case nop => exact hd ▸ h
  case li | lui | hash => subst hd; exact h.frame rfl
  case csrr | ldb | ldw => obtain ⟨_, -, rfl⟩ := hd; exact h.frame rfl
  case rseed | rnext => obtain ⟨-, rfl⟩ := hd; exact h.frame rfl
  case spine => obtain ⟨-, -, rfl⟩ := hd; exact h.frame rfl
  case csrw =>
    obtain ⟨c, -, hw, hdec, hilen, hclen, rfl⟩ := hd
    rcases isWritableCsr_cases hw with rfl | rfl | hc
    · rw [writeCsr_ILEN]
      exact h.setBuffers rfl hm (hilen rfl) h.olen_le h.clen_le h.padcnt_le
    · rw [writeCsr_CLEN]
      exact h.setBuffers rfl hm h.ilen_le h.olen_le (hclen rfl) h.padcnt_le
    · rw [writeCsr_config hc]
      exact h.setConf rfl (fun hp => hdec ⟨hc, hp⟩) (fun hr => by cases hr)
  case stb =>
    obtain ⟨sp, hc, rfl⟩ := hd
    exact h.setBuffers rfl (hm.putIbuf (memcheck_storeB_lt hc)) h.ilen_le h.olen_le h.clen_le
      h.padcnt_le
  case stw =>
    obtain ⟨sp, hc, rfl⟩ := hd
    exact h.setBuffers rfl (hm.putChunk (memcheck_storeW_lt hc)) h.ilen_le h.olen_le h.clen_le
      h.padcnt_le
  case bmov =>
    subst hd
    exact h.setBuffers rfl (hm.putIbuf (by simpa using h.olen_le)) h.olen_le h.olen_le h.clen_le
      h.padcnt_le
  case bpDiv =>
    obtain ⟨-, -, -, hcap, rfl⟩ := hd
    exact h.setBuffers rfl (hm.putChunk (by simpa using hcap)) h.ilen_le h.olen_le (word_toNat_le hcap)
      h.padcnt_le
  case bpPack =>
    obtain ⟨-, -, -, hcap, -, rfl⟩ := hd
    exact h.setBuffers rfl (hm.putObuf (by simpa [chunkInts] using hcap)) h.ilen_le (word_toNat_le hcap)
      h.clen_le h.padcnt_le
  case construct =>
    obtain ⟨hidle, hlegal, rfl⟩ := hd
    exact h.setConf rfl (by rw [hidle]; simp) (fun _ => hlegal)
  case encode =>
    obtain ⟨-, hready, hcap, rfl⟩ := hd
    obtain ⟨hk, hk', -⟩ := h.ready_legal hready
    exact h.setBuffers rfl (hm.putObuf (by rw [encodeFn_length]; simpa using hcap)) h.ilen_le
      (word_toNat_le hcap) h.clen_le (word_toNat_le (padcount_le hk hk'))
  case decInit => exact DidInit.invariant h hd
  case decStep => exact DidStep.invariant h hd
  case decTerm => exact DidTerm.invariant h hd
  case decAbort => obtain ⟨hdec, rfl⟩ := hd; exact h.closeSession hdec
  case decode =>
    obtain ⟨u, v, hinit, hsteps, hterm⟩ := hd
    exact hterm.invariant (hsteps.invariant (hinit.invariant h))
  case srst => subst hd; exact invariant_softwareReset h.params_legal hm

theorem exec_keeps_invariant {i : Instr} (h : Invariant s) (he : exec i s = .next t) :
    Invariant t := by
  rcases exec_cases he with hd | ⟨e, -, rfl⟩
  · exact hd.invariant h
  · exact h.errorEntry e _

/-- The host's events are free. -/
theorem Invariant.withPending (h : Invariant s) (es : List HostEvent) :
    Invariant { s with pending := es } := h.frame rfl

end Sys2Proof.Machine

namespace Sys2Proof.Proofs

open Sys2Proof Sys2Proof.Machine

/-- Settles O59: waiting, hardware reset, an ignored word, an illegal word and a command each keep it. -/
theorem everyStepKeepsTheInvariant : Obligations.EveryStepKeepsTheInvariant := by
  intro s t h hstep
  rcases step_cases hstep with ⟨-, rfl⟩ | ⟨es, -, rfl⟩ | ⟨w, es, -, -, -, rfl⟩ |
    ⟨w, es, -, -, -, rfl⟩ | ⟨w, es, i, -, -, -, he⟩
  · exact h
  · exact invariant_hardwareReset h.params_legal
  · exact h.withPending es
  · exact (h.withPending es).errorEntry _ _
  · exact exec_keeps_invariant (h.withPending es) he

/-- Settles O58: no session is open at reset and no cell is listed. -/
theorem invariantsHoldAtReset : Obligations.InvariantsHoldAtReset where
  registers := by
    rw [State.reset_eq]
    exact invariant_softwareReset (by decide) (memoryFits_unwritten _)
  arena_fits := List.forall_mem_nil _
  tree := fun hp => by cases hp

end Sys2Proof.Proofs
end

section
/-! Every step keeps the invariant of the session's tree (10_state.md R43 to R46): the parts of the state
it reads, the tree DEC.INIT plants and grows, and the beam DEC.STEP moves one level down. -/

namespace Sys2Proof.Machine

open Sys2Proof.Claims Sys2Proof.Proofs

/-! ## What the tree's invariant reads -/

/-- t has the parameters, the configuration, the session CSRs, RX, ARENA and BEAM of s. -/
structure SameSession (s t : State) : Prop where
  params : t.params = s.params
  conf : t.conf = s.conf
  sess : t.sess = s.sess
  rx : t.mem.rx = s.mem.rx
  arena : t.mem.arena = s.mem.arena
  beam : t.mem.beam = s.mem.beam
  launch : t.launch = s.launch

section
variable {s t : State}

theorem node_congr (harena : t.mem.arena = s.mem.arena) (hlaunch : t.launch = s.launch) :
    t.node = s.node := by
  funext f; unfold State.node; rw [harena, hlaunch]

theorem SameSession.fanout (h : SameSession s t) : fanout t = fanout s := by
  unfold Machine.fanout; rw [h.conf]

theorem SameSession.node (h : SameSession s t) : t.node = s.node := node_congr h.arena h.launch

theorem SameSession.rxWord (h : SameSession s t) : t.rxWord = s.rxWord := by
  funext a; unfold State.rxWord; rw [h.rx, h.launch]

theorem SameSession.sse (h : SameSession s t) : sse t = Machine.sse s := by
  funext sp pos; unfold Machine.sse; rw [h.conf, h.sess, h.rxWord]

theorem SameSession.frontier (h : SameSession s t) : frontier t = Machine.frontier s := by
  funext f j; exact frontier_congr h.fanout fun _ _ _ _ => by rw [h.node]

theorem SameSession.beamHandles (h : SameSession s t) : beamHandles t = Machine.beamHandles s := by
  unfold Machine.beamHandles State.beamWord; rw [h.sess, h.beam, h.launch]

/-- The tree's invariant reads only these parts of the state. -/
theorem TreeInvariant.congr (h : TreeInvariant s) (e : SameSession s t) : TreeInvariant t := by
  obtain ⟨a1, a2, a3, a4, a5, a6, a7, a8, a9, a10, a11, a12, a13⟩ := h
  constructor <;>
    simp only [ChildOfParent, OwnsChildren, e.params, e.conf, e.sess, e.node, e.rxWord, e.sse, e.fanout,
      e.frontier, e.beamHandles] <;> assumption

/-! ## A tree with its beam -/

/-- A run of cells written from BEAM[0] on is the beam. -/
theorem beamHandles_of_putCells {m : CellMap Word} {ws : List Word}
    (hbeam : t.mem.beam = putCells m 0 ws) (hlen : t.sess.beamlen.toNat = ws.length) :
    beamHandles t = ws.map BitVec.toNat := by
  refine List.ext_getElem (by simpa using hlen) fun i hi hi' => ?_
  have hi'' : i < ws.length := by simpa using hi'
  have hcell := cellAt?_putCells_in m 0 ws hi''
  rw [Nat.zero_add] at hcell
  simp [beamHandles, State.beamWord, hbeam, hcell]

/-- t is s but for the beam, STEP and PHASE. -/
def OnlyBeam (s t : State) : Prop :=
  t = { s with
    phase := t.phase
    mem := { s.mem with beam := t.mem.beam }
    sess := { s.sess with step := t.sess.step, beamlen := t.sess.beamlen } }

theorem prune_onlyBeam (s : State) (cands : List (Nat × Nat)) : OnlyBeam s (prune s cands) := rfl

theorem OnlyBeam.arena_fits (e : OnlyBeam s t) (h : TreeCore s) :
    Bounded t.mem.arena t.params.arenaCap := by
  rw [e]
  exact h.fits

/-- A tree whose beam is moved to hs, distinct nodes of depth STEP below which the tree is complete to
exactly depth D. -/
theorem TreeCore.withBeam (h : TreeCore s) (e : OnlyBeam s t) {hs : List Nat}
    (hbeam : beamHandles t = hs) (hnodup : hs.Nodup) (hlt : ∀ c ∈ hs, c < s.sess.arenalen.toNat)
    (hdepth : ∀ c ∈ hs, (s.node c).depth = t.sess.step)
    (hinner : ∀ c ∈ hs, ∀ j, j < s.conf.d.toNat → ∀ f ∈ frontier s c j,
      (s.node f).cbase ≠ Config.noneHandle)
    (hleaves : ∀ c ∈ hs, ∀ f ∈ frontier s c s.conf.d.toNat, (s.node f).cbase = Config.noneHandle) :
    TreeInvariant t := by
  have hconf : t.conf = s.conf := by rw [e]
  have hlen : t.sess.arenalen = s.sess.arenalen := by rw [e]
  have hnode : t.node = s.node := node_congr (by rw [e]) (by rw [e])
  have hfrontier : frontier t = frontier s := by
    funext f j
    exact frontier_congr (by unfold fanout; rw [hconf]) fun _ _ _ _ => by rw [hnode]
  have hcore : TreeCore t := h.congr (by rw [e]) hconf (by rw [e]) (by rw [e]) hlen (by rw [e])
    (by rw [e]) (by rw [e])
  exact { hcore with
    beam_nodup := by rwa [hbeam]
    beam_lt := by rwa [hbeam, hlen]
    beam_depth := by rwa [hbeam, hnode]
    inner := by rwa [hbeam, hconf, hnode, hfrontier]
    leaves := by rwa [hbeam, hconf, hnode, hfrontier] }

end

/-! ## DEC.INIT -/

theorem planted_node_zero (s : State) : (planted s).node 0 = rootNode s.conf.seed := by
  have hcell : cellAt? (putCells s.mem.arena 0 [rootNode s.conf.seed]) 0 =
      some (rootNode s.conf.seed) :=
    cellAt?_putCells_in s.mem.arena 0 [rootNode s.conf.seed] Nat.zero_lt_one
  show (cellAt? (putCells s.mem.arena 0 [rootNode s.conf.seed]) 0).getD _ = _
  rw [hcell]
  rfl

/-- The received symbols are C-bit values (R43). -/
theorem planted_rxWord_lt (s : State) {a : Nat} (ha : a < received s) :
    ((planted s).rxWord a).toNat < 2 ^ s.conf.c.toNat := by
  have hlen : a < ((divide (s.ibufBytes s.ilen.toNat) s.conf.c.toNat).map word).length := by
    simpa [received] using ha
  have hcell := cellAt?_putCells_in s.mem.rx 0 _ hlen
  rw [Nat.zero_add] at hcell
  show ((cellAt? (putCells s.mem.rx 0 _) a).getD _).toNat < _
  rw [hcell, Option.getD_some, List.getElem_map]
  exact (BitVec.toNat_ofNat ..).trans_lt
    ((Nat.mod_le _ _).trans_lt (divide_lt (List.getElem_mem _)))

/-- Before the first level is grown the root is the whole tree. -/
theorem complete_planted (s : State) : Complete (planted s) [0] 0 where
  lt c hc i hi f hf := by
    obtain rfl : c = 0 := by simpa using hc
    obtain rfl : i = 0 := by omega
    obtain rfl : f = 0 := by simpa [frontier] using hf
    exact Nat.zero_lt_one
  inner _ _ i hi := by omega
  leaves c hc f hf := by
    obtain rfl : c = 0 := by simpa using hc
    obtain rfl : f = 0 := by simpa [frontier] using hf
    rw [planted_node_zero]
    rfl
  nodup := by rw [frontiers_zero]; exact List.nodup_singleton 0

section
variable {s t : State}

theorem DidInit.core_planted (h : WholeInvariant s) (hi : DidInit s t) : TreeCore (planted s) := by
  have hroot := planted_node_zero s
  obtain ⟨-, -, -, -, hcap, -⟩ := h.registers.params_legal
  obtain ⟨hrx, hchunks, -⟩ := hi.counts h.registers
  rw [hi.sess] at hrx hchunks
  have hrx : (planted s).sess.rxlen.toNat = received s := hrx
  have hchunks : (planted s).sess.nchunk.toNat = streamChunks s := hchunks
  have hone : (planted s).sess.arenalen.toNat = 1 := rfl
  exact {
    params := h.registers.params_legal
    conf := h.registers.ready_legal hi.ready
    rxlen := by rw [hrx, hchunks]; exact hi.received_eq
    cost_fits := by rw [hrx]; exact hi.cost
    pos := hone.ge
    cap := hone.trans_le hcap
    fits := bounded_putCells h.arena_fits hcap
    rx_lt := fun a ha => planted_rxWord_lt s (ha.trans_eq hrx)
    root_msg := by rw [hroot]; rfl
    root_spine := by rw [hroot]; rfl
    root_cost := by rw [hroot]; rfl
    root_parent := by rw [hroot]; rfl
    root_depth := by rw [hroot]; rfl
    child := fun f h0 hf => by omega
    expanded := fun f hf hc => by
      obtain rfl : f = 0 := by omega
      rw [hroot] at hc
      exact absurd rfl hc }

/-- The grown tree fits, and is complete to exactly depth D below the root (R174, R180). -/
theorem DidInit.core_grown (h : WholeInvariant s) (hi : DidInit s t) :
    TreeCore (grown s) ∧ Complete (grown s) [0] s.conf.d.toNat := by
  have hplanted := hi.core_planted h
  have hcap := hplanted.arenaCap_lt
  have hnodes : (planted s).sess.arenalen.toNat +
      [0].length * subtreeSize s.conf.k.toNat s.conf.d.toNat ≤ (planted s).params.arenaCap := by
    simpa [planted, setArenaLen] using hi.nodes
  have hdepth : 0 + s.conf.d.toNat ≤ (planted s).sess.nchunk.toNat := by
    obtain ⟨-, hchunks, -⟩ := hi.counts h.registers
    obtain ⟨hdle, hsum⟩ := hi.depth_le (h.registers.ready_legal hi.ready)
    rw [hi.sess] at hchunks
    have hchunks : (planted s).sess.nchunk.toNat = streamChunks s := hchunks
    omega
  have hroot : ∀ f ∈ [0], ((planted s).node f).depth.toNat = 0 := fun f hf => by
    obtain rfl : f = 0 := by simpa using hf
    rw [planted_node_zero]
    rfl
  exact ⟨hplanted.growLevels s.conf.d.toNat (complete_planted s) hroot hdepth hnodes,
    (growLevels_complete (complete_planted s) (hnodes.trans_lt (by omega))).1⟩

theorem DidInit.wholeInvariant (h : WholeInvariant s) (hi : DidInit s t) : WholeInvariant t := by
  obtain ⟨hcore, hcomplete⟩ := hi.core_grown h
  have hconf : (grown s).conf = s.conf := (grown_onlyTree s).conf
  have hzero : ∀ {c}, c ∈ [0] → c = 0 := List.mem_singleton.1
  have honly : OnlyBeam (grown s) t := by
    rw [hi.eq_grown]
    generalize grown s = u
    rfl
  refine ⟨hi.invariant h.registers, honly.arena_fits hcore, fun _ => ?_⟩
  refine hcore.withBeam honly (hs := [0]) ?_ (List.nodup_singleton 0) ?_ ?_ ?_ ?_
  · exact beamHandles_of_putCells (ws := [0]) (congrArg Memory.beam hi.mem) (by rw [hi.sess]; rfl)
  · exact fun c hc => hzero hc ▸ hcore.pos
  · intro c hc
    rw [hzero hc, hcore.root_depth, hi.sess]
  · rw [hconf]
    exact hcomplete.inner
  · rw [hconf]
    exact hcomplete.leaves

/-! ## DEC.STEP -/

/-- Expanding all the leaves changes no frontier down to their own. -/
theorem Grown.frontier_eq {as : List Nat} {d c i : Nat} (h : Grown s as d) (hc : c ∈ as)
    (hi : i ≤ d) :
    frontier (expandAll s (frontiers s as d)).1 c i = frontier s c i :=
  frontier_congr (expandAll_onlyTree s _).fanout fun j hj f hf => by
    rw [h.inner_node (h.lt c hc j (by omega) f hf) (h.inner c hc j (by omega) f hf)]

/-- Expanding all the leaves of depth d, no node down to depth d is a leaf. -/
theorem Grown.expand_inner {as : List Nat} {d : Nat} (h : Grown s as d) :
    ∀ c ∈ as, ∀ i, i < d + 1 → ∀ f ∈ frontier (expandAll s (frontiers s as d)).1 c i,
      ((expandAll s (frontiers s as d)).1.node f).cbase ≠ Config.noneHandle := by
  intro c hc i hi f hf
  rw [h.frontier_eq hc (by omega)] at hf
  rcases Nat.lt_succ_iff_lt_or_eq.1 hi with hlt | rfl
  · have hinner := h.inner c hc i hlt f hf
    rwa [h.inner_node (h.lt c hc i hlt.le f hf) hinner]
  · obtain ⟨-, -, hmade⟩ := h.spec
    obtain ⟨base, -, hbase, hnode, -⟩ := hmade f (mem_frontiers.2 ⟨c, hc, hf⟩)
    have hfits := h.fits
    have hfan : 1 ≤ fanout s := Nat.one_le_two_pow
    rw [hnode]
    intro hnone
    have hval := congrArg BitVec.toNat hnone
    rw [word_toNat (by omega), noneHandle_toNat] at hval
    omega

/-- The new leaves lie one level below the old. -/
theorem Grown.expand_leaves {as : List Nat} {d : Nat} (h : Grown s as d) :
    ∀ c ∈ as, ∀ f ∈ frontier (expandAll s (frontiers s as d)).1 c (d + 1),
      ((expandAll s (frontiers s as d)).1.node f).cbase = Config.noneHandle := by
  intro c hc f hf
  rw [frontier_succ, h.frontier_eq hc le_rfl] at hf
  obtain ⟨g, hg, hf⟩ := List.mem_flatMap.1 hf
  obtain ⟨-, -, hmade⟩ := h.spec
  obtain ⟨base, -, hbase, hnode, hchild⟩ := hmade g (mem_frontiers.2 ⟨c, hc, hg⟩)
  have hfits := h.fits
  have hfan : 1 ≤ fanout s := Nat.one_le_two_pow
  simp only [Machine.children, hnode, (expandAll_onlyTree s _).fanout, List.mem_map,
    List.mem_range] at hf
  obtain ⟨m, hm, rfl⟩ := hf
  rw [word_toNat (by omega), hchild m hm]
  rfl

/-- Expanding changes no node's depth. -/
theorem Grown.depth_eq {as : List Nat} {d f : Nat} (h : Grown s as d) (hf : f < s.sess.arenalen.toNat) :
    ((expandAll s (frontiers s as d)).1.node f).depth = (s.node f).depth := by
  obtain ⟨-, hstays, hmade⟩ := h.spec
  by_cases hm : f ∈ frontiers s as d
  · obtain ⟨base, -, -, hnode, -⟩ := hmade f hm
    rw [hnode]
  · rw [hstays f hm (.inl hf)]

/-- The subtree roots a step chooses among: the children of the beam (R181). -/
def candidates (s : State) : List Nat := (beamHandles s).flatMap (children s)

/-- The tree after EXPAND: every leaf below the beam expanded (R182). -/
def expanded (s : State) : State :=
  (expandAll s (frontiers s (candidates s) (s.conf.d.toNat - 1))).1

theorem DidStep.conf_legal (h : WholeInvariant s) (hd : DidStep s t) : ConfLegal s.conf :=
  h.registers.ready_legal (h.registers.dec_open hd.dec).ready

theorem DidStep.depth_pos (h : WholeInvariant s) (hd : DidStep s t) :
    s.conf.d.toNat - 1 + 1 = s.conf.d.toNat := by
  obtain ⟨-, -, -, -, -, -, -, -, hpos⟩ := hd.conf_legal h
  omega

theorem DidStep.grown_beam (h : WholeInvariant s) (hd : DidStep s t) :
    Grown s (beamHandles s) (s.conf.d.toNat - 1 + 1) := by
  rw [hd.depth_pos h]
  refine ⟨h.beam_complete hd.dec, ?_⟩
  have hcap := (h.core hd.dec).arenaCap_lt
  have hnodes := hd.nodes
  rw [frontiers_length, beamHandles_length, Nat.mul_assoc, ← pow_succ, fanout_pow]
  omega

theorem DidStep.grown_candidates (h : WholeInvariant s) (hd : DidStep s t) :
    Grown s (candidates s) (s.conf.d.toNat - 1) := (hd.grown_beam h).children

/-- EXPAND and SCORE: the leaves below the candidates are expanded, and each candidate gets one score. -/
theorem DidStep.scoreBeam_eq (h : WholeInvariant s) (hd : DidStep s t) :
    (scoreBeam s (beamHandles s)).1 = expanded s ∧
      (scoreBeam s (beamHandles s)).2.map Prod.fst = candidates s := by
  rw [Machine.scoreBeam_eq rfl (hd.grown_beam h)]
  have hscore := scoreChildren_eq rfl (hd.grown_candidates h)
  unfold candidates at hscore
  rw [hscore]
  exact ⟨rfl, by simp [candidates, Function.comp_def]⟩

theorem DidStep.core_expanded (h : WholeInvariant s) (hd : DidStep s t) : TreeCore (expanded s) := by
  have hcore := h.core hd.dec
  have htree := h.tree hd.dec
  have hopen := h.registers.dec_open hd.dec
  have hgrown := hd.grown_beam h
  have hleaves : frontiers s (candidates s) (s.conf.d.toNat - 1) =
      frontiers s (beamHandles s) s.conf.d.toNat := by
    rw [candidates, frontiers_children, hd.depth_pos h]
  rw [hd.depth_pos h] at hgrown
  unfold expanded
  rw [hleaves]
  refine hcore.expandAll _ (fun f hf => ?_) hgrown.nodup ?_
  · obtain ⟨c, hc, hf⟩ := mem_frontiers.1 hf
    obtain ⟨hlt, hdepth⟩ := hcore.frontier_facts (htree.beam_lt c hc) _ (htree.inner c hc) f hf
    refine ⟨hlt, htree.leaves c hc f hf, ?_⟩
    have hsteps := hopen.nsteps
    have hleft := hd.left
    rw [hdepth, htree.beam_depth c hc]
    omega
  · rw [frontiers_length, beamHandles_length, Nat.mul_assoc, ← pow_succ, fanout_pow]
    exact hd.nodes

theorem DidStep.candidate_facts (h : WholeInvariant s) (hd : DidStep s t) :
    ∀ c ∈ candidates s, c < s.sess.arenalen.toNat ∧
      (s.node c).depth.toNat = s.sess.step.toNat + 1 := by
  intro c hc
  have htree := h.tree hd.dec
  obtain ⟨b, hb, hc⟩ := List.mem_flatMap.1 hc
  have hexp := (hd.grown_beam h).inner b hb 0 (Nat.zero_lt_succ _) b (List.mem_singleton_self b)
  obtain ⟨hlt, -, -, hdepth, -⟩ := (h.core hd.dec).child_mem (htree.beam_lt b hb) hexp hc
  exact ⟨hlt, by rw [hdepth, htree.beam_depth b hb]⟩

theorem DidStep.candidates_nodup (h : WholeInvariant s) (hd : DidStep s t) : (candidates s).Nodup := by
  have htree := h.tree hd.dec
  have hnodup := (h.core hd.dec).frontiers_nodup htree.beam_nodup htree.beam_lt 1 fun b hb i hi =>
    (hd.grown_beam h).inner b hb i (by omega)
  rwa [← frontiers_children, frontiers_zero] at hnodup

/-- PRUNE keeps distinct candidates. -/
theorem DidStep.kept_facts (h : WholeInvariant s) (hd : DidStep s t) :
    (kept s).Nodup ∧ ∀ c ∈ kept s, c ∈ candidates s := by
  have hperm := (stableSortByScore_perm (scoreBeam s (beamHandles s)).2).map Prod.fst
  rw [(hd.scoreBeam_eq h).2] at hperm
  have hsub : (kept s).Sublist ((stableSortByScore (scoreBeam s (beamHandles s)).2).map Prod.fst) :=
    (List.take_sublist _ _).map Prod.fst
  exact ⟨hsub.nodup (hperm.nodup_iff.2 (hd.candidates_nodup h)),
    fun c hc => hperm.mem_iff.1 (hsub.subset hc)⟩

theorem DidStep.beamHandles_eq (h : WholeInvariant s) (hd : DidStep s t) : beamHandles t = kept s := by
  have hlen := hd.beamlen h.registers.params_legal
  rw [beamHandles_of_putCells hd.beam_eq (by rw [hlen, List.length_map]), List.map_map]
  refine (List.map_congr_left fun c hc => ?_).trans (List.map_id _)
  have hlt := (hd.candidate_facts h c ((hd.kept_facts h).2 c hc)).1
  exact word_toNat (hlt.trans s.sess.arenalen.isLt)

/-- DEC.STEP grows the tree below the candidates and makes the kept ones the beam (R181 to R184). -/
theorem DidStep.wholeInvariant (h : WholeInvariant s) (hd : DidStep s t) : WholeInvariant t := by
  have hcore := hd.core_expanded h
  have hgrown := hd.grown_candidates h
  have hconf : (expanded s).conf = s.conf := (expandAll_onlyTree s _).conf
  have honly : OnlyBeam (expanded s) t := by
    rw [← (hd.scoreBeam_eq h).1, hd.eq]
    exact prune_onlyBeam _ _
  obtain ⟨hnodup, hmem⟩ := hd.kept_facts h
  have hcand : ∀ c ∈ kept s, c < s.sess.arenalen.toNat ∧
      (s.node c).depth.toNat = s.sess.step.toNat + 1 := fun c hc => hd.candidate_facts h c (hmem c hc)
  refine ⟨hd.invariant h.registers, honly.arena_fits hcore, fun _ => ?_⟩
  refine hcore.withBeam honly (hs := kept s) (hd.beamHandles_eq h) hnodup ?_ ?_ ?_ ?_
  · intro c hc
    have hle : s.sess.arenalen.toNat ≤ (expanded s).sess.arenalen.toNat := by
      rw [expanded, hgrown.arenalen]
      exact Nat.le_add_right _ _
    exact (hcand c hc).1.trans_le hle
  · intro c hc
    refine BitVec.eq_of_toNat_eq ?_
    rw [expanded, hgrown.depth_eq (hcand c hc).1, (hcand c hc).2, hd.step_toNat]
  · rw [hconf, ← hd.depth_pos h]
    exact fun c hc => hgrown.expand_inner c (hmem c hc)
  · rw [hconf, ← hd.depth_pos h]
    exact fun c hc => hgrown.expand_leaves c (hmem c hc)

theorem DidSteps.wholeInvariant {n : Nat} (hd : DidSteps n s t) :
    WholeInvariant s → WholeInvariant t := by
  induction hd with
  | zero s => exact id
  | succ hstep _ ih => exact fun h => ih (hstep.wholeInvariant h)

/-! ## The other commands -/

/-- t has the nodes of s, and if a session is open in t it is that of s. -/
structure LeavesTree (s t : State) : Prop where
  arena : t.mem.arena = s.mem.arena
  params : t.params = s.params
  session : t.phase = .dec → s.phase = .dec ∧ SameSession s t

/-- A change outside PHASE, the configuration, the session CSRs and RX, ARENA and BEAM. -/
theorem LeavesTree.frame
    (e : t = { s with
      x := t.x, ready := t.ready, error := t.error, ilen := t.ilen, olen := t.olen, clen := t.clen
      padcnt := t.padcnt, bcost := t.bcost, g := t.g, pending := t.pending
      mem := { s.mem with ibuf := t.mem.ibuf, obuf := t.mem.obuf, chunk := t.mem.chunk } }) :
    LeavesTree s t := by
  rw [e]
  exact ⟨rfl, rfl, fun hp => ⟨hp, rfl, rfl, rfl, rfl, rfl, rfl, rfl⟩⟩

/-- Without a session the nodes are all there is to leave. -/
theorem LeavesTree.closed (harena : t.mem.arena = s.mem.arena) (hparams : t.params = s.params)
    (hphase : t.phase ≠ .dec) : LeavesTree s t :=
  ⟨harena, hparams, fun hp => absurd hp hphase⟩

theorem LeavesTree.wholeInvariant (hl : LeavesTree s t) (h : WholeInvariant s) (ht : Invariant t) :
    WholeInvariant t where
  registers := ht
  arena_fits := by rw [hl.arena, hl.params]; exact h.arena_fits
  tree hp := (h.tree (hl.session hp).1).congr (hl.session hp).2

/-- The commands other than DEC.INIT, DEC.STEP and DECODE leave the tree: with a session open they write
neither the configuration nor RX, ARENA or BEAM (R25, R43 to R46), and those that end it leave its nodes
listed (log 6). -/
theorem Does.leavesTree {i : Instr} (hd : Does s t i) (hinit : i ≠ .decInit) (hstep : i ≠ .decStep)
    (hdecode : i ≠ .decode) : LeavesTree s t := by
  cases i
  case nop | li | lui | bmov | hash => subst hd; exact .frame rfl
  case csrr | ldb | stb | ldw | stw => obtain ⟨_, -, rfl⟩ := hd; exact .frame rfl
  case rseed | rnext => obtain ⟨-, rfl⟩ := hd; exact .frame rfl
  case spine | construct => obtain ⟨-, -, rfl⟩ := hd; exact .frame rfl
  case csrw =>
    obtain ⟨c, -, hw, hdec, -, -, rfl⟩ := hd
    rcases isWritableCsr_cases hw with rfl | rfl | hc
    · exact .frame rfl
    · exact .frame rfl
    · rw [writeCsr_config hc]
      exact .closed rfl rfl fun hp => hdec ⟨hc, hp⟩
  case bpDiv => obtain ⟨-, -, -, -, rfl⟩ := hd; exact .frame rfl
  case bpPack => obtain ⟨-, -, -, -, -, rfl⟩ := hd; exact .frame rfl
  case encode => obtain ⟨-, -, -, rfl⟩ := hd; exact .frame rfl
  case decInit => exact absurd rfl hinit
  case decStep => exact absurd rfl hstep
  case decode => exact absurd rfl hdecode
  case decTerm => obtain ⟨-, -, rfl⟩ := hd; exact .closed rfl rfl (by simp [terminated])
  case decAbort => obtain ⟨-, rfl⟩ := hd; exact .closed rfl rfl (by simp)
  case srst => subst hd; exact .closed rfl rfl (by simp [softwareReset])

theorem DidTerm.wholeInvariant (h : WholeInvariant s) (hd : DidTerm s t) : WholeInvariant t :=
  (Does.leavesTree (i := .decTerm) hd (by simp) (by simp) (by simp)).wholeInvariant h
    (hd.invariant h.registers)

/-- A command's own effect keeps the invariants. -/
theorem Does.wholeInvariant {i : Instr} (h : WholeInvariant s) (hd : Does s t i) :
    WholeInvariant t := by
  by_cases hinit : i = .decInit
  · subst hinit
    exact DidInit.wholeInvariant h hd
  by_cases hstep : i = .decStep
  · subst hstep
    exact DidStep.wholeInvariant h hd
  by_cases hdecode : i = .decode
  · subst hdecode
    obtain ⟨u, v, hi, hs, ht⟩ := hd
    exact ht.wholeInvariant (hs.wholeInvariant (hi.wholeInvariant h))
  exact (hd.leavesTree hinit hstep hdecode).wholeInvariant h (hd.invariant h.registers)

theorem WholeInvariant.errorEntry (h : WholeInvariant s) (e : Err) (cmd : Word) :
    WholeInvariant (errorEntry e cmd s) :=
  LeavesTree.wholeInvariant (s := s) (.closed rfl rfl (by simp)) h (h.registers.errorEntry e cmd)

theorem WholeInvariant.withPending (h : WholeInvariant s) (es : List HostEvent) :
    WholeInvariant { s with pending := es } :=
  LeavesTree.wholeInvariant (s := s) (.frame rfl) h (h.registers.withPending es)

theorem exec_keeps_wholeInvariant {i : Instr} (h : WholeInvariant s) (he : exec i s = .next t) :
    WholeInvariant t := by
  rcases exec_cases he with hd | ⟨e, -, rfl⟩
  · exact hd.wholeInvariant h
  · exact h.errorEntry e _

/-- Hardware reset lists no cell and opens no session. -/
theorem wholeInvariant_hardwareReset (hp : s.params.Legal) : WholeInvariant (hardwareReset s) where
  registers := invariant_hardwareReset hp
  arena_fits := List.forall_mem_nil _
  tree := fun hdec => by cases hdec

end

end Sys2Proof.Machine

namespace Sys2Proof.Proofs

open Sys2Proof Sys2Proof.Machine

/-- Settles O60: waiting, hardware reset, an ignored word, an illegal word and a command each keep the
invariants; of the commands only DEC.INIT and DEC.STEP, alone or in DECODE, touch the tree. -/
theorem everyStepKeepsTheTreeInvariant : Obligations.EveryStepKeepsTheTreeInvariant := by
  intro s t h hstep
  rcases step_cases hstep with ⟨-, rfl⟩ | ⟨es, -, rfl⟩ | ⟨w, es, -, -, -, rfl⟩ |
    ⟨w, es, -, -, -, rfl⟩ | ⟨w, es, i, -, -, -, he⟩
  · exact h
  · exact wholeInvariant_hardwareReset h.registers.params_legal
  · exact h.withPending es
  · exact (h.withPending es).errorEntry _ _
  · exact exec_keeps_wholeInvariant (h.withPending es) he

end Sys2Proof.Proofs
end

section
/-! Which command moves PHASE, and which writes which register and which memory (10_state.md R21, R24 to
R34, R40 to R43, R46). -/

namespace Sys2Proof.Machine

variable {s t : State}

/-! ## The CSR map by address (R24) -/

theorem csrAddr_of_csrOfAddr {a : Nat} {c : Csr} (h : csrOfAddr a = some c) : csrAddr c = a :=
  beq_iff_eq.1 (List.find?_some (p := fun c => csrAddr c == a) h)

/-- The configuration CSRs have the addresses 0 to 6 (R25). -/
theorem csrAddr_le_of_isConfigCsr {c : Csr} (h : isConfigCsr c = true) : csrAddr c ≤ 6 := by
  cases c <;> simp_all [isConfigCsr, csrAddr]

/-! ## PHASE (R27) -/

/-- A session's own commands move PHASE between IDLE and DEC, SRST to IDLE; DECODE opens and closes its
session, and no other command moves PHASE. -/
theorem Does.phase {i : Instr} (hd : Does s t i) :
    t.phase = s.phase ∨ (s.phase = .idle ∧ t.phase = .dec ∧ i = .decInit) ∨
      (s.phase = .dec ∧ t.phase = .idle ∧ (i = .decTerm ∨ i = .decAbort)) ∨
      (t.phase = .idle ∧ i = .srst) := by
  cases i
  case nop | li | lui | bmov | hash => subst hd; exact .inl rfl
  case csrr | ldb | stb | ldw | stw => obtain ⟨_, -, rfl⟩ := hd; exact .inl rfl
  case rseed | rnext => obtain ⟨-, rfl⟩ := hd; exact .inl rfl
  case spine | construct => obtain ⟨-, -, rfl⟩ := hd; exact .inl rfl
  case csrw =>
    obtain ⟨c, -, hw, -, -, -, rfl⟩ := hd
    rcases isWritableCsr_cases hw with rfl | rfl | hc
    · exact .inl rfl
    · exact .inl rfl
    · rw [writeCsr_config hc]; exact .inl rfl
  case bpDiv => obtain ⟨-, -, -, -, rfl⟩ := hd; exact .inl rfl
  case bpPack => obtain ⟨-, -, -, -, -, rfl⟩ := hd; exact .inl rfl
  case encode => obtain ⟨-, -, -, rfl⟩ := hd; exact .inl rfl
  case decInit => exact .inr (.inl ⟨DidInit.idle hd, DidInit.phase hd, rfl⟩)
  case decStep => exact .inl ((DidStep.phase hd).trans (DidStep.dec hd).symm)
  case decTerm => obtain ⟨hdec, -, rfl⟩ := hd; exact .inr (.inr (.inl ⟨hdec, rfl, .inl rfl⟩))
  case decAbort => obtain ⟨hdec, rfl⟩ := hd; exact .inr (.inr (.inl ⟨hdec, rfl, .inr rfl⟩))
  case decode => obtain ⟨u, v, hinit, -, -, -, rfl⟩ := hd; exact .inl hinit.idle.symm
  case srst => subst hd; exact .inr (.inr (.inr ⟨rfl, rfl⟩))

/-! ## Registers and CSRs -/

/-- Each register, CSR and context of t is as in s, or i is a command other than SRST that the spec names
as its writer (R21, R24, R25, R28 to R34, R40). -/
structure WritesNamedRegisters (i : Instr) (s t : State) : Prop where
  x : (∀ r, t.getX r = s.getX r) ∨ (∃ rd imm, i = .li rd imm) ∨ (∃ rd imm, i = .lui rd imm) ∨
    (∃ rd csr, i = .csrr rd csr) ∨ (∃ rd rs1 sp off, i = .ldb rd rs1 sp off) ∨
    (∃ rd rs1 sp off, i = .ldw rd rs1 sp off) ∨ (∃ rd g, i = .rnext rd g) ∨
    (∃ rd rs1 rs2, i = .hash rd rs1 rs2) ∨ (∃ rd rs1 rs2, i = .spine rd rs1 rs2)
  conf : t.conf = s.conf ∨ ∃ rs csr, csr ≤ 6 ∧ i = .csrw rs csr
  ready : t.ready = s.ready ∨ (t.ready = true ∧ i = .construct) ∨
    (t.ready = false ∧ ∃ rs csr, csr ≤ 6 ∧ i = .csrw rs csr)
  ilen : t.ilen = s.ilen ∨ (∃ rs, i = .csrw rs 0x020) ∨ i = .bmov
  olen : t.olen = s.olen ∨ (∃ rs, i = .bpPack rs) ∨ i = .encode ∨ i = .decTerm ∨ i = .decode
  clen : t.clen = s.clen ∨ (∃ rs, i = .csrw rs 0x022) ∨ ∃ rs, i = .bpDiv rs
  sess : t.sess = s.sess ∨ i = .decInit ∨ i = .decTerm ∨ i = .decAbort ∨ i = .decode ∨
    (i = .decStep ∧ t.sess = { s.sess with
      step := t.sess.step, beamlen := t.sess.beamlen, arenalen := t.sess.arenalen })
  padcnt : t.padcnt = s.padcnt ∨ i = .encode
  bcost : t.bcost = s.bcost ∨ i = .decTerm ∨ i = .decode
  g : (∀ g, t.getG g = s.getG g) ∨ (∃ g rs1 rs2, i = .rseed g rs1 rs2) ∨ ∃ rd g, i = .rnext rd g
  error : t.error = s.error ∨ t.phase = .halt

/-- Any command may write none of them. -/
theorem writesNamedRegisters_refl (i : Instr) (s : State) : WritesNamedRegisters i s s :=
  ⟨.inl fun _ => rfl, .inl rfl, .inl rfl, .inl rfl, .inl rfl, .inl rfl, .inl rfl, .inl rfl, .inl rfl,
    .inl fun _ => rfl, .inl rfl⟩

theorem SessionOnly.exists_eq (h : SessionOnly s t) :
    ∃ sess phase rx arena beam, t = { s with
      sess := sess, phase := phase, mem := { s.mem with rx := rx, arena := arena, beam := beam } } :=
  ⟨_, _, _, _, _, h⟩

theorem DidStep.exists_eq (h : DidStep s t) :
    ∃ beamlen arenalen arena beam, t = { s with
      mem := { s.mem with arena := arena, beam := beam }
      sess := { s.sess with
        step := s.sess.step + 1, beamlen := beamlen, arenalen := arenalen } } :=
  ⟨_, _, _, _, h.eq_update⟩

/-- Error entry writes the error record and enters HALT (R29). -/
theorem writesNamedRegisters_errorEntry (i : Instr) (e : Err) (cmd : Word) (s : State) :
    WritesNamedRegisters i s (errorEntry e cmd s) :=
  { writesNamedRegisters_refl i s with error := .inr rfl }

/-- Each command but SRST writes the registers named for it; the others are as they were. -/
theorem Does.writesNamedRegisters {i : Instr} (hd : Does s t i) (hi : i ≠ .srst) :
    WritesNamedRegisters i s t := by
  have same := writesNamedRegisters_refl i s
  cases i
  case nop => subst hd; exact same
  case stb | stw => obtain ⟨_, -, rfl⟩ := hd; exact { same with }
  case li | lui | hash => subst hd; exact { same with x := by simp }
  case csrr | ldb | ldw => obtain ⟨_, -, rfl⟩ := hd; exact { same with x := by simp }
  case spine => obtain ⟨-, -, rfl⟩ := hd; exact { same with x := by simp }
  case rseed => obtain ⟨-, rfl⟩ := hd; exact { same with g := by simp }
  case rnext => obtain ⟨-, rfl⟩ := hd; exact { same with x := by simp, g := by simp }
  case csrw rs csr =>
    obtain ⟨c, haddr, hw, -, -, -, rfl⟩ := hd
    obtain rfl := csrAddr_of_csrOfAddr haddr
    rcases isWritableCsr_cases hw with rfl | rfl | hc
    · exact { same with ilen := .inr (.inl ⟨rs, rfl⟩) }
    · exact { same with clen := .inr (.inl ⟨rs, rfl⟩) }
    · have hle := csrAddr_le_of_isConfigCsr hc
      rw [writeCsr_config hc]
      exact { same with
        conf := .inr ⟨rs, _, hle, rfl⟩
        ready := .inr (.inr ⟨rfl, rs, _, hle, rfl⟩) }
  case bmov => subst hd; exact { same with ilen := by simp }
  case bpDiv => obtain ⟨-, -, -, -, rfl⟩ := hd; exact { same with clen := by simp }
  case bpPack => obtain ⟨-, -, -, -, -, rfl⟩ := hd; exact { same with olen := by simp }
  case construct => obtain ⟨-, -, rfl⟩ := hd; exact { same with ready := by simp }
  case encode => obtain ⟨-, -, -, rfl⟩ := hd; exact { same with olen := by simp, padcnt := by simp }
  case decInit =>
    obtain ⟨sess, phase, rx, arena, beam, rfl⟩ := (DidInit.sessionOnly hd).exists_eq
    exact { same with sess := by simp, error := .inl rfl }
  case decStep =>
    obtain ⟨beamlen, arenalen, arena, beam, rfl⟩ := DidStep.exists_eq hd
    exact { same with sess := by simp, error := .inl rfl }
  case decTerm =>
    obtain ⟨-, -, rfl⟩ := hd
    exact { same with olen := by simp, sess := by simp, bcost := by simp, error := .inl rfl }
  case decAbort => obtain ⟨-, rfl⟩ := hd; exact { same with sess := by simp, error := .inl rfl }
  case decode =>
    obtain ⟨u, v, hinit, hsteps, -, -, rfl⟩ := hd
    obtain ⟨sess, phase, rx, arena, beam, rfl⟩ :=
      (hinit.sessionOnly.trans hsteps.sessionOnly).exists_eq
    exact { same with olen := by simp, sess := by simp, bcost := by simp, error := .inl rfl }
  case srst => exact absurd rfl hi

/-! ## Memories -/

/-- Each memory of t is as in s, or i is a command the spec names as its writer (R41 to R43, R46). -/
structure WritesNamedMemories (i : Instr) (s t : State) : Prop where
  ibuf : (∀ a, t.ibufByte a = s.ibufByte a) ∨ (∃ rs2 rs1 sp off, i = .stb rs2 rs1 sp off) ∨ i = .bmov
  obuf : (∀ a, t.obufByte a = s.obufByte a) ∨ (∃ rs, i = .bpPack rs) ∨ i = .encode ∨ i = .decTerm ∨
    i = .decode
  chunk : (∀ a, t.chunkWord a = s.chunkWord a) ∨ (∃ rs2 rs1 sp off, i = .stw rs2 rs1 sp off) ∨
    ∃ rs, i = .bpDiv rs
  rx : (∀ a, t.rxWord a = s.rxWord a) ∨ i = .decInit ∨ i = .decode
  arena : (∀ a, t.arenaWord a = s.arenaWord a) ∨ i = .decInit ∨ i = .decStep ∨ i = .decode
  beam : (∀ a, t.beamWord a = s.beamWord a) ∨ i = .decInit ∨ i = .decStep ∨ i = .decode

/-- A command that writes no memory. -/
theorem writesNamedMemories_of_mem_eq (i : Instr) (hmem : t.mem = s.mem)
    (hlaunch : t.launch = s.launch) : WritesNamedMemories i s t := by
  constructor <;> left <;> intro a <;>
    simp only [State.ibufByte, State.obufByte, State.chunkWord, State.rxWord, State.arenaWord, State.node,
      State.beamWord, hmem, hlaunch]

/-- Each command writes the memories named for it; every cell of the others, reachable or not, is as it
was (log 6). -/
theorem Does.writesNamedMemories {i : Instr} (hd : Does s t i) : WritesNamedMemories i s t := by
  have same : WritesNamedMemories i s s := writesNamedMemories_of_mem_eq i rfl rfl
  cases i
  case nop | li | lui | hash | srst => subst hd; exact writesNamedMemories_of_mem_eq _ rfl rfl
  case csrr | ldb | ldw => obtain ⟨_, -, rfl⟩ := hd; exact writesNamedMemories_of_mem_eq _ rfl rfl
  case rseed | rnext | decAbort =>
    obtain ⟨-, rfl⟩ := hd; exact writesNamedMemories_of_mem_eq _ rfl rfl
  case spine | construct => obtain ⟨-, -, rfl⟩ := hd; exact writesNamedMemories_of_mem_eq _ rfl rfl
  case csrw =>
    obtain ⟨c, -, hw, -, -, -, rfl⟩ := hd
    rcases isWritableCsr_cases hw with rfl | rfl | hc
    · exact writesNamedMemories_of_mem_eq _ rfl rfl
    · exact writesNamedMemories_of_mem_eq _ rfl rfl
    · rw [writeCsr_config hc]; exact writesNamedMemories_of_mem_eq _ rfl rfl
  case stb => obtain ⟨_, -, rfl⟩ := hd; exact { same with ibuf := by simp }
  case bmov => subst hd; exact { same with ibuf := by simp }
  case stw => obtain ⟨_, -, rfl⟩ := hd; exact { same with chunk := by simp }
  case bpDiv => obtain ⟨-, -, -, -, rfl⟩ := hd; exact { same with chunk := by simp }
  case bpPack => obtain ⟨-, -, -, -, -, rfl⟩ := hd; exact { same with obuf := by simp }
  case encode => obtain ⟨-, -, -, rfl⟩ := hd; exact { same with obuf := by simp }
  case decInit =>
    obtain ⟨sess, phase, rx, arena, beam, rfl⟩ := (DidInit.sessionOnly hd).exists_eq
    exact { same with rx := by simp, arena := by simp, beam := by simp }
  case decStep =>
    obtain ⟨beamlen, arenalen, arena, beam, rfl⟩ := DidStep.exists_eq hd
    exact { same with arena := by simp, beam := by simp }
  case decTerm => obtain ⟨-, -, rfl⟩ := hd; exact { same with obuf := by simp }
  case decode =>
    obtain ⟨u, v, hinit, hsteps, -, -, rfl⟩ := hd
    obtain ⟨sess, phase, rx, arena, beam, rfl⟩ :=
      (hinit.sessionOnly.trans hsteps.sessionOnly).exists_eq
    exact { same with obuf := by simp, rx := by simp, arena := by simp, beam := by simp }

end Sys2Proof.Machine

namespace Sys2Proof.Proofs

open Sys2Proof Sys2Proof.Machine

/-- Settles O16: a command that raises is in HALT, any other moves PHASE as `Does.phase` says. -/
theorem phaseMovesOnlyAsTheTransitionsSay : Obligations.PhaseMovesOnlyAsTheTransitionsSay := by
  intro i s t hhalt he
  rcases exec_cases he with hd | ⟨e, -, rfl⟩
  · rcases hd.phase with heq | hinit | ⟨hdec, hidle, hi⟩ | ⟨hidle, rfl⟩
    · exact .inl heq
    · exact .inr (.inr (.inl hinit))
    · exact .inr (.inr (.inr ⟨hdec, hidle, hi.imp_right .inl⟩))
    · cases hp : s.phase with
      | idle => exact .inl hidle
      | dec => exact .inr (.inr (.inr ⟨rfl, hidle, .inr (.inr rfl)⟩))
      | halt => exact absurd hp hhalt
  · exact .inr (.inl rfl)

/-- Settles O17, by the command's own effect or error entry. -/
theorem registersAreWrittenOnlyByTheirCommands : Obligations.RegistersAreWrittenOnlyByTheirCommands := by
  intro i s t he hi
  have h : WritesNamedRegisters i s t := by
    rcases exec_cases he with hd | ⟨e, -, rfl⟩
    · exact hd.writesNamedRegisters hi
    · exact writesNamedRegisters_errorEntry i e _ s
  exact ⟨h.x, h.conf, h.ready, h.ilen, h.olen, h.clen, h.sess, h.padcnt, h.bcost, h.g, h.error⟩

/-- Settles O18, by the command's own effect or error entry, which writes no memory. -/
theorem memoriesAreWrittenOnlyByTheirCommands : Obligations.MemoriesAreWrittenOnlyByTheirCommands := by
  intro i s t he
  have h : WritesNamedMemories i s t := by
    rcases exec_cases he with hd | ⟨e, -, rfl⟩
    · exact hd.writesNamedMemories
    · exact writesNamedMemories_of_mem_eq i rfl rfl
  exact ⟨h.ibuf, h.obuf, h.chunk, h.rx, h.arena, h.beam⟩

end Sys2Proof.Proofs
end

section
/-! What is seen at reset and at the observation port (10_state.md R20, R24, R50, R57). -/

namespace Sys2Proof.Machine

open Sys2Proof.Claims

/-- STATUS as the spec computes it (R26, R27). -/
theorem statusWord_eq (s : State) : statusWord s = word (statusNat s) := by
  unfold statusWord statusNat
  cases s.phase <;> cases s.ready <;> rfl

/-- BCOSTL and BCOSTH are the halves of BCOST (R34). -/
theorem setWidth_low (c : CostWord) : c.setWidth 32 = word (c.toNat % 2 ^ 32) := by
  apply BitVec.eq_of_toNat_eq
  simp

theorem setWidth_high (c : CostWord) : (c >>> 32).setWidth 32 = word (c.toNat / 2 ^ 32) := by
  apply BitVec.eq_of_toNat_eq
  simp [Nat.shiftRight_eq_div_pow]

/-- The CSRs in the order of the map, each with its address, read as the map says (R24). -/
theorem allCsrs_map_readCsr (s : State) :
    allCsrs.map (fun c => (csrAddr c, readCsr s c)) = csrTable s := by
  simp only [allCsrs, List.map_cons, List.map_nil, csrAddr, readCsr, statusWord_eq,
    setWidth_low s.bcost, setWidth_high s.bcost]
  rfl

end Sys2Proof.Machine

namespace Sys2Proof.Proofs

open Sys2Proof Sys2Proof.Machine

/-- Settles O10. -/
theorem observationShowsEveryRegisterAndCsr : Obligations.ObservationShowsEveryRegisterAndCsr := by
  intro s
  refine ⟨rfl, ?_⟩
  rw [observe, List.map_map]
  exact allCsrs_map_readCsr s

/-- Settles O13: of the CSRs only the constant IMPID, at 0xF00, is not 0 at reset. -/
theorem resetStateHoldsTheResetValues : Obligations.ResetStateHoldsTheResetValues :=
  ⟨by decide, by decide, rfl, rfl, by decide⟩

end Sys2Proof.Proofs
end

section
/-! The statements of 30_encoding.md: the opcode map as a table of formats (R86 to R92, R95), what decoding
says of a row (R93), and that no command is without a result (60_exceptions.md R209). -/

namespace Sys2Proof.Proofs

open Sys2Proof Sys2Proof.Machine

/-! ## The rows a word matches (R93) -/

theorem opcode_lt_of_mem : ∀ r ∈ opcodeMap, r.opcode < 256 := by decide

/-- Every mask holds the opcode bits. -/
theorem mask_and_opcodeBits : ∀ r ∈ opcodeMap, r.mask &&& 0xFF000000 = 0xFF000000 := by decide

theorem opcodes_nodup : (opcodeMap.map OpcodeRow.opcode).Nodup := by decide

/-- A word matches no row but the one of its opcode. -/
theorem slice_of_match {w : Word} {r : OpcodeRow} (hr : r ∈ opcodeMap)
    (hm : w &&& r.mask = matchValue r.opcode) : slice w 31 24 = r.opcode := by
  have hop := opcode_lt_of_mem r hr
  have hself : matchValue r.opcode &&& 0xFF000000 = matchValue r.opcode :=
    (maskMatch_M hop).mpr (Laws.wordZ_opcode hop)
  refine (maskMatch_M hop).mp ?_
  calc w &&& 0xFF000000
      = w &&& r.mask &&& 0xFF000000 := by rw [BitVec.and_assoc, mask_and_opcodeBits r hr]
    _ = matchValue r.opcode := by rw [hm, hself]

theorem find?_opcode {r : OpcodeRow} (hr : r ∈ opcodeMap) :
    opcodeMap.find? (fun q => q.opcode == r.opcode) = some r := by
  cases hf : opcodeMap.find? (fun q => q.opcode == r.opcode) with
  | none => simpa using List.find?_eq_none.mp hf r hr
  | some q =>
    have hop : q.opcode = r.opcode := by
      simpa using List.find?_some (p := fun q : OpcodeRow => q.opcode == r.opcode) hf
    rw [List.inj_on_of_nodup_map opcodes_nodup (List.mem_of_find?_eq_some hf) hr hop]

/-- A word that matches a row is that row's command. -/
theorem decode_of_match {w : Word} {r : OpcodeRow} (hr : r ∈ opcodeMap)
    (hm : w &&& r.mask = matchValue r.opcode) : decode w = some (r.build w) := by
  unfold decode
  rw [slice_of_match hr hm, find?_opcode hr]
  exact if_pos hm

theorem decode_eq_none_iff {w : Word} :
    decode w = none ↔ ¬ ∃ r ∈ opcodeMap, w &&& r.mask = matchValue r.opcode := by
  constructor
  · rintro h ⟨r, hr, hm⟩
    simp [decode_of_match hr hm] at h
  · intro h
    refine Option.eq_none_iff_forall_ne_some.mpr fun i hi => h ?_
    obtain ⟨r, hr, -, hm, -⟩ := decode_eq_some hi
    exact ⟨r, hr, hm⟩

/-- Settles O3: a row's opcode is the opcode byte of every word that matches it. -/
theorem wordMatchesOneRowByMask : Obligations.WordMatchesOneRowByMask := by
  refine ⟨fun w r hr hm => decode_of_match hr hm, fun w i hd => ?_, fun w r hr r' hr' hm hm' => ?_⟩
  · obtain ⟨r, hr, -, hm, hi⟩ := decode_eq_some hd
    exact ⟨r, hr, hm, hi⟩
  · exact (slice_of_match hr hm).symm.trans (slice_of_match hr' hm')

/-! ## The formats (R86 to R92) -/

/-- Format Z (R86). -/
def rowZ (op : Nat) (i : Instr) : OpcodeRow := ⟨op, 0xFFFFFFFF, fun _ => i⟩

/-- Format I (R87). -/
def rowI (op : Nat) (f : Reg → BitVec 16 → Instr) : OpcodeRow :=
  ⟨op, 0xFF0F0000, fun w => f (fieldA w) (fieldImm16 w)⟩

/-- Format R3 (R88). -/
def rowR3 (op : Nat) (f : Reg → Reg → Reg → Instr) : OpcodeRow :=
  ⟨op, 0xFF000FFF, fun w => f (fieldA w) (fieldB w) (fieldC w)⟩

/-- Format R1 (R89). -/
def rowR1 (op : Nat) (f : Reg → Instr) : OpcodeRow := ⟨op, 0xFF0FFFFF, fun w => f (fieldA w)⟩

/-- Format M (R90). -/
def rowM (op : Nat) (f : Reg → Reg → Nat → Nat → Instr) : OpcodeRow :=
  ⟨op, 0xFF000000, fun w => f (fieldA w) (fieldB w) (fieldSpace w) (fieldLow12 w)⟩

/-- Format C (R91). -/
def rowC (op : Nat) (f : Reg → Nat → Instr) : OpcodeRow :=
  ⟨op, 0xFF0FF000, fun w => f (fieldA w) (fieldLow12 w)⟩

/-- Format G (R92) as RSEED has it, without cmd[23:20]. -/
def rowRseed (op : Nat) (f : CtxNum → Reg → Reg → Instr) : OpcodeRow :=
  ⟨op, 0xFFF00FFE, fun w => f (fieldG w) (fieldB w) (fieldC w)⟩

/-- Format G (R92) as RNEXT has it, without cmd[19:12]. -/
def rowRnext (op : Nat) (f : Reg → CtxNum → Instr) : OpcodeRow :=
  ⟨op, 0xFF0FFFFE, fun w => f (fieldA w) (fieldG w)⟩

/-- The opcode map, each row by its format (R95). -/
theorem opcodeMap_eq_formats : opcodeMap =
    [ rowZ 0x00 .nop, rowI 0x01 .li, rowI 0x02 .lui, rowC 0x08 .csrr, rowC 0x09 .csrw,
      rowM 0x10 .ldb, rowM 0x11 .stb, rowM 0x12 .ldw, rowM 0x13 .stw, rowZ 0x14 .bmov,
      rowR1 0x20 .bpDiv, rowR1 0x21 .bpPack, rowRseed 0x28 .rseed, rowRnext 0x29 .rnext,
      rowR3 0x30 .hash, rowR3 0x31 .spine, rowZ 0x38 .construct, rowZ 0x40 .encode,
      rowZ 0x48 .decInit, rowZ 0x49 .decStep, rowZ 0x4A .decTerm, rowZ 0x4B .decAbort,
      rowZ 0x4C .decode, rowZ 0xFF .srst ] := rfl

/-! ## A word and its fields (R85, R94) -/

theorem fieldLow12_lt (w : Word) : fieldLow12 w < 2 ^ 12 := slice_lt w 11 0

theorem fieldSpace_lt (w : Word) : fieldSpace w < 2 ^ 4 := slice_lt w 15 12

theorem fieldImm16_toNat (w : Word) : (fieldImm16 w).toNat = slice w 15 0 := by
  simpa [fieldImm16] using slice_lt w 15 0

/-- The mask of a row admits exactly the words made of the row's own fields. -/
def MatchesItsWords (r : OpcodeRow) : Prop :=
  ∀ w, w &&& r.mask = matchValue r.opcode ↔ encode (r.build w) = w

section
variable {op : Nat} (hop : op < 256)
include hop

theorem rowZ_matchesItsWords {i : Instr} (he : encode i = wordZ op) : MatchesItsWords (rowZ op i) := by
  intro w
  have hw := w.isLt
  simp only [rowZ, he, maskMatch_Z hop, ← BitVec.toNat_inj, wordZ_toNat hop, slice]
  omega

theorem rowI_matchesItsWords {f : Reg → BitVec 16 → Instr}
    (he : ∀ a imm, encode (f a imm) = wordAL op a imm.toNat) : MatchesItsWords (rowI op f) := by
  intro w
  have hw := w.isLt
  simp only [rowI, he, maskMatch_I hop, ← BitVec.toNat_inj, wordAL_toNat hop _ (BitVec.isLt _)]
  simp only [fieldImm16_toNat, fieldA, regField, slice]
  omega

theorem rowC_matchesItsWords {f : Reg → Nat → Instr}
    (he : ∀ a csr, encode (f a csr) = wordAL op a csr) : MatchesItsWords (rowC op f) := by
  intro w
  have hw := w.isLt
  have hlow : fieldLow12 w < 2 ^ 16 := Nat.lt_trans (fieldLow12_lt w) (by decide)
  simp only [rowC, he, maskMatch_C hop, ← BitVec.toNat_inj, wordAL_toNat hop _ hlow]
  simp only [fieldLow12, fieldA, regField, slice]
  omega

theorem rowM_matchesItsWords {f : Reg → Reg → Nat → Nat → Instr}
    (he : ∀ a b sp off, encode (f a b sp off) = wordM op a b sp off) :
    MatchesItsWords (rowM op f) := by
  intro w
  have hw := w.isLt
  simp only [rowM, he, maskMatch_M hop, ← BitVec.toNat_inj,
    wordM_toNat hop _ _ (fieldSpace_lt w) (fieldLow12_lt w)]
  simp only [fieldSpace, fieldLow12, fieldA, fieldB, regField, slice]
  omega

theorem rowR1_matchesItsWords {f : Reg → Instr} (he : ∀ a, encode (f a) = wordR op a 0 0 0) :
    MatchesItsWords (rowR1 op f) := by
  intro w
  have hw := w.isLt
  simp only [rowR1, he, maskMatch_R1 hop, ← BitVec.toNat_inj, wordR_toNat hop, fieldA, regField,
    Fin.val_zero, slice]
  omega

theorem rowR3_matchesItsWords {f : Reg → Reg → Reg → Instr}
    (he : ∀ a b c, encode (f a b c) = wordR op a b c 0) : MatchesItsWords (rowR3 op f) := by
  intro w
  have hw := w.isLt
  simp only [rowR3, he, maskMatch_R3 hop, ← BitVec.toNat_inj, wordR_toNat hop, fieldA, fieldB, fieldC,
    regField, Fin.val_zero, slice]
  omega

theorem rowRseed_matchesItsWords {f : CtxNum → Reg → Reg → Instr}
    (he : ∀ g b c, encode (f g b c) = wordR op 0 b c g) : MatchesItsWords (rowRseed op f) := by
  intro w
  have hw := w.isLt
  simp only [rowRseed, he, maskMatch_RSEED hop, ← BitVec.toNat_inj, wordR_toNat hop, fieldG, fieldB,
    fieldC, regField, Fin.val_zero, slice]
  omega

theorem rowRnext_matchesItsWords {f : Reg → CtxNum → Instr}
    (he : ∀ a g, encode (f a g) = wordR op a 0 0 g) : MatchesItsWords (rowRnext op f) := by
  intro w
  have hw := w.isLt
  simp only [rowRnext, he, maskMatch_RNEXT hop, ← BitVec.toNat_inj, wordR_toNat hop, fieldA, fieldG,
    regField, Fin.val_zero, slice]
  omega

end

theorem opcodeMap_matchesItsWords : ∀ r ∈ opcodeMap, MatchesItsWords r := by
  simp only [opcodeMap_eq_formats, List.forall_mem_cons]
  exact ⟨
    rowZ_matchesItsWords (by decide) rfl,
    rowI_matchesItsWords (by decide) fun _ _ => rfl,
    rowI_matchesItsWords (by decide) fun _ _ => rfl,
    rowC_matchesItsWords (by decide) fun _ _ => rfl,
    rowC_matchesItsWords (by decide) fun _ _ => rfl,
    rowM_matchesItsWords (by decide) fun _ _ _ _ => rfl,
    rowM_matchesItsWords (by decide) fun _ _ _ _ => rfl,
    rowM_matchesItsWords (by decide) fun _ _ _ _ => rfl,
    rowM_matchesItsWords (by decide) fun _ _ _ _ => rfl,
    rowZ_matchesItsWords (by decide) rfl,
    rowR1_matchesItsWords (by decide) fun _ => rfl,
    rowR1_matchesItsWords (by decide) fun _ => rfl,
    rowRseed_matchesItsWords (by decide) fun _ _ _ => rfl,
    rowRnext_matchesItsWords (by decide) fun _ _ => rfl,
    rowR3_matchesItsWords (by decide) fun _ _ _ => rfl,
    rowR3_matchesItsWords (by decide) fun _ _ _ => rfl,
    rowZ_matchesItsWords (by decide) rfl,
    rowZ_matchesItsWords (by decide) rfl,
    rowZ_matchesItsWords (by decide) rfl,
    rowZ_matchesItsWords (by decide) rfl,
    rowZ_matchesItsWords (by decide) rfl,
    rowZ_matchesItsWords (by decide) rfl,
    rowZ_matchesItsWords (by decide) rfl,
    rowZ_matchesItsWords (by decide) rfl,
    List.forall_mem_nil _⟩

/-- The numbers a row reads from a word fit their fields. -/
theorem wellFormed_build (w : Word) : ∀ r ∈ opcodeMap, (r.build w).WellFormed = true := by
  simpa [opcodeMap, Instr.WellFormed] using
    And.intro (fieldLow12_lt w) (And.intro (fieldSpace_lt w) (fieldLow12_lt w))

/-- Settles O2: the row a legal word matches makes its command of all the fields of the word. -/
theorem legalWordIsTheWordOfItsCommand : Obligations.LegalWordIsTheWordOfItsCommand := by
  intro w i hd
  obtain ⟨r, hr, -, hm, rfl⟩ := decode_eq_some hd
  exact ⟨wellFormed_build w r hr, (opcodeMap_matchesItsWords r hr w).mp hm⟩

/-! ## The fields of an encoded word (R94) -/

/-- A row that reads a command's own fields from its word decodes that word: no other row matches. -/
theorem decode_encode_of_row {r : OpcodeRow} {i : Instr} (hr : r ∈ opcodeMap)
    (hb : r.build (encode i) = i) : decode (encode i) = some i := by
  have hm := (opcodeMap_matchesItsWords r hr (encode i)).mpr (by rw [hb])
  rw [decode_of_match hr hm, hb]

section
variable {op : Nat} (hop : op < 256) (a b c : Reg) (g : CtxNum)

theorem rowZ_build (i : Instr) : (rowZ op i).build (wordZ op) = i := rfl

include hop

theorem rowI_build (f : Reg → BitVec 16 → Instr) (imm : BitVec 16) :
    (rowI op f).build (wordAL op a imm.toNat) = f a imm := by
  obtain ⟨ha, himm⟩ : fieldA (wordAL op a imm.toNat) = a ∧
      fieldImm16 (wordAL op a imm.toNat) = imm := by
    have := imm.isLt
    simp only [fieldA, regField, Fin.ext_iff, ← BitVec.toNat_inj, fieldImm16_toNat, slice,
      wordAL_toNat hop a imm.isLt]
    omega
  simp only [rowI, ha, himm]

theorem rowC_build (f : Reg → Nat → Instr) {csr : Nat} (hcsr : csr < 2 ^ 12) :
    (rowC op f).build (wordAL op a csr) = f a csr := by
  obtain ⟨ha, hlow⟩ : fieldA (wordAL op a csr) = a ∧ fieldLow12 (wordAL op a csr) = csr := by
    simp only [fieldA, regField, Fin.ext_iff, fieldLow12, slice,
      wordAL_toNat hop a (Nat.lt_trans hcsr (by decide))]
    omega
  simp only [rowC, ha, hlow]

theorem rowM_build (f : Reg → Reg → Nat → Nat → Instr) {sp off : Nat} (hsp : sp < 2 ^ 4)
    (hoff : off < 2 ^ 12) : (rowM op f).build (wordM op a b sp off) = f a b sp off := by
  obtain ⟨ha, hb, hspace, hlow⟩ : fieldA (wordM op a b sp off) = a ∧
      fieldB (wordM op a b sp off) = b ∧ fieldSpace (wordM op a b sp off) = sp ∧
      fieldLow12 (wordM op a b sp off) = off := by
    simp only [fieldA, fieldB, regField, Fin.ext_iff, fieldSpace, fieldLow12, slice,
      wordM_toNat hop a b hsp hoff]
    omega
  simp only [rowM, ha, hb, hspace, hlow]

/-- The fields of the formats R3, R1 and G. -/
theorem wordR_fields : fieldA (wordR op a b c g) = a ∧ fieldB (wordR op a b c g) = b ∧
    fieldC (wordR op a b c g) = c ∧ fieldG (wordR op a b c g) = g := by
  simp only [fieldA, fieldB, fieldC, fieldG, regField, Fin.ext_iff, slice, wordR_toNat hop]
  omega

theorem rowR3_build (f : Reg → Reg → Reg → Instr) :
    (rowR3 op f).build (wordR op a b c 0) = f a b c := by
  obtain ⟨ha, hb, hc, -⟩ := wordR_fields hop a b c 0
  simp only [rowR3, ha, hb, hc]

theorem rowR1_build (f : Reg → Instr) : (rowR1 op f).build (wordR op a 0 0 0) = f a := by
  obtain ⟨ha, -⟩ := wordR_fields hop a 0 0 0
  simp only [rowR1, ha]

theorem rowRseed_build (f : CtxNum → Reg → Reg → Instr) :
    (rowRseed op f).build (wordR op 0 b c g) = f g b c := by
  obtain ⟨-, hb, hc, hg⟩ := wordR_fields hop 0 b c g
  simp only [rowRseed, hb, hc, hg]

theorem rowRnext_build (f : Reg → CtxNum → Instr) :
    (rowRnext op f).build (wordR op a 0 0 g) = f a g := by
  obtain ⟨ha, -, -, hg⟩ := wordR_fields hop a 0 0 g
  simp only [rowRnext, ha, hg]

end

/-- Settles O1: every command is built by a row of its format from the fields of its word. -/
theorem decodeReadsBackEveryEncodedCommand : Obligations.DecodeReadsBackEveryEncodedCommand := by
  intro i hwf
  cases i
  case nop | bmov | construct | encode | decInit | decStep | decTerm | decAbort | decode | srst =>
    exact decode_encode_of_row (by simp [opcodeMap_eq_formats]) (rowZ_build _)
  case li | lui =>
    exact decode_encode_of_row (by simp [opcodeMap_eq_formats]) (rowI_build (by decide) _ _ _)
  case csrr | csrw =>
    exact decode_encode_of_row (by simp [opcodeMap_eq_formats])
      (rowC_build (by decide) _ _ (of_decide_eq_true hwf))
  case ldb | stb | ldw | stw =>
    obtain ⟨hsp, hoff⟩ := Laws.memory_fits hwf
    exact decode_encode_of_row (by simp [opcodeMap_eq_formats])
      (rowM_build (by decide) _ _ _ hsp hoff)
  case bpDiv | bpPack =>
    exact decode_encode_of_row (by simp [opcodeMap_eq_formats]) (rowR1_build (by decide) _ _)
  case hash | spine =>
    exact decode_encode_of_row (by simp [opcodeMap_eq_formats]) (rowR3_build (by decide) _ _ _ _)
  case rseed =>
    exact decode_encode_of_row (by simp [opcodeMap_eq_formats]) (rowRseed_build (by decide) _ _ _ _)
  case rnext =>
    exact decode_encode_of_row (by simp [opcodeMap_eq_formats]) (rowRnext_build (by decide) _ _ _)

/-! ## The zero fields of each format (R86 to R92, R96) -/

/-- The opcodes and masks of the opcode map, grouped by format. -/
def formatMasks : List (Nat × Word) :=
  [0x00, 0x14, 0x38, 0x40, 0x48, 0x49, 0x4A, 0x4B, 0x4C, 0xFF].map (·, 0xFFFFFFFF) ++
    ([0x01, 0x02].map (·, 0xFF0F0000) ++ ([0x08, 0x09].map (·, 0xFF0FF000) ++
    ([0x10, 0x11, 0x12, 0x13].map (·, 0xFF000000) ++ ([0x20, 0x21].map (·, 0xFF0FFFFF) ++
    ([0x28].map (·, 0xFFF00FFE) ++ ([0x29].map (·, 0xFF0FFFFE) ++
    [0x30, 0x31].map (·, 0xFF000FFF)))))))

theorem opcodeMap_perm_formatMasks :
    (opcodeMap.map fun r => (r.opcode, r.mask)).Perm formatMasks := by decide

theorem exists_row_iff {P : Nat → Word → Prop} :
    (∃ r ∈ opcodeMap, P r.opcode r.mask) ↔ ∃ p ∈ formatMasks, P p.1 p.2 := by
  simp only [← opcodeMap_perm_formatMasks.mem_iff, List.mem_map, exists_exists_and_eq_and]

theorem exists_match_append {w : Word} {ps qs : List (Nat × Word)} :
    (∃ p ∈ ps ++ qs, w &&& p.2 = matchValue p.1) ↔
      (∃ p ∈ ps, w &&& p.2 = matchValue p.1) ∨ ∃ p ∈ qs, w &&& p.2 = matchValue p.1 := by
  simp only [List.mem_append, or_and_right, exists_or]

/-- A word matches a row of one format exactly when its opcode is listed and the zero fields Z are zero. -/
theorem exists_match_iff {w m : Word} {ops : List Nat} {Z : Prop} (hops : ∀ op ∈ ops, op < 256)
    (hZ : ∀ {op}, op < 256 → (w &&& m = matchValue op ↔ slice w 31 24 = op ∧ Z)) :
    (∃ p ∈ ops.map (·, m), w &&& p.2 = matchValue p.1) ↔ slice w 31 24 ∈ ops ∧ Z := by
  simp only [List.mem_map, exists_exists_and_eq_and]
  constructor
  · rintro ⟨op, hop, hm⟩
    obtain ⟨rfl, hz⟩ := (hZ (hops op hop)).mp hm
    exact ⟨hop, hz⟩
  · rintro ⟨hop, hz⟩
    exact ⟨_, hop, (hZ (hops _ hop)).mpr ⟨rfl, hz⟩⟩

/-- The zero bits of RNEXT, cmd[19:1] in its mask, are two fields of format G (R92). -/
theorem slice_19_1_eq_zero_iff {w : Word} :
    slice w 19 1 = 0 ↔ slice w 19 12 = 0 ∧ slice w 11 1 = 0 := by
  simp only [slice]
  omega

/-- Settles O4: a word matches a row when, in one of the formats, its opcode is listed and the zero fields
are zero. -/
theorem illegalWordsAreUnlistedOpcodesAndNonzeroFields :
    Obligations.IllegalWordsAreUnlistedOpcodesAndNonzeroFields := by
  intro w
  rw [decode_eq_none_iff, exists_row_iff (P := fun op m => w &&& m = matchValue op), formatMasks]
  simp only [exists_match_append]
  rw [exists_match_iff (by decide) maskMatch_Z, exists_match_iff (by decide) maskMatch_I,
    exists_match_iff (by decide) maskMatch_C,
    exists_match_iff (by decide) fun h => (maskMatch_M h).trans (iff_of_eq (and_true _)).symm,
    exists_match_iff (by decide) maskMatch_R1, exists_match_iff (by decide) maskMatch_RSEED,
    exists_match_iff (by decide) fun h =>
      (maskMatch_RNEXT h).trans (and_congr_right' slice_19_1_eq_zero_iff),
    exists_match_iff (by decide) maskMatch_R3, and_true, List.mem_singleton, List.mem_singleton]

/-! ## The worked encodings (R100) -/

theorem decode_of_encode {w : Word} {i : Instr} (hwf : i.WellFormed = true) (he : encode i = w) :
    decode w = some i := he ▸ decodeReadsBackEveryEncodedCommand i hwf

/-- Settles O5: a legal word is the encoding of the command beside it, an illegal one has an unlisted opcode
or a non-zero zero field. -/
theorem workedEncodingsDecode : Obligations.WorkedEncodingsDecode := by
  unfold Obligations.WorkedEncodingsDecode
  have illegal := fun w => (illegalWordsAreUnlistedOpcodesAndNonzeroFields w).mpr
  refine ⟨?_, ?_, ?_, ?_, ?_, ?_, ?_, ?_, ?_, ?_, ?_, ?_, ?_, ?_, ?_, ?_, ?_,
    illegal _ (by decide), illegal _ (by decide), illegal _ (by decide)⟩
  all_goals exact decode_of_encode rfl rfl

/-! ## Totality (R209) -/

/-- Every command ends through commit. -/
theorem exec_eq_commit (i : Instr) (s : State) : ∃ r, exec i s = commit i s r := by
  cases i
  case nop | li | lui | bmov | hash | srst => exact ⟨.ok _, rfl⟩
  all_goals exact ⟨_, rfl⟩

theorem exec_total (i : Instr) (s : State) : ∃ t, exec i s = .next t := by
  obtain ⟨r, hr⟩ := exec_eq_commit i s
  rw [hr]
  exact commit_total i s r

/-- Settles O12: a command ends through commit, every other event in a state of its own. -/
theorem everyStepAnswersANextState : Obligations.EveryStepAnswersANextState := by
  intro s
  unfold step
  cases takeEvent s with
  | waiting t => exact ⟨_, rfl⟩
  | reset t => exact ⟨_, rfl⟩
  | ignored t => exact ⟨_, rfl⟩
  | illegal w t => exact ⟨_, rfl⟩
  | run i t => exact exec_total i t

end Sys2Proof.Proofs
end

section
/-! Which CSR stands at an address and which access is admitted, each said once (10_state.md R24,
20_memory.md R60, 40_scalar_csr_memory.md R110); what an update of one part of the state leaves alone. -/

namespace Sys2Proof.Machine

open Sys2Proof.Claims

variable {s t : State}

/-! ## Frames -/

theorem memRead_congr (hmem : t.mem = s.mem) (hlaunch : t.launch = s.launch) (sp : Space) (a : Nat) :
    memRead t sp a = memRead s sp a := by
  cases sp <;>
    simp only [memRead, State.ibufByte, State.obufByte, State.chunkWord, State.rxWord, State.arenaWord,
      State.node, State.beamWord, hmem, hlaunch]

/-- Writing X[rd] changes nothing else. -/
theorem writesOnlyX_setX (s : State) (rd : Reg) (v : Word) : WritesOnlyX s rd v (s.setX rd v) :=
  ⟨getX_setX_same s rd v, fun _ hr => getX_setX_ne s v hr, memRead_congr rfl rfl, rfl⟩

theorem sameOutside_putIbuf (s : State) (a : Nat) (bs : List Byte) :
    SameOutside (fun sp c => sp = .ibuf ∧ a ≤ c ∧ c < a + bs.length) s (s.putIbuf a bs) := by
  intro sp c hc
  cases sp with
  | ibuf => simp only [memRead, ibufByte_putIbuf, if_neg fun h => hc ⟨rfl, h⟩]
  | obuf | chunk | rx | arena | beam => rfl

theorem sameOutside_putChunk (s : State) (a : Nat) (ws : List Word) :
    SameOutside (fun sp c => sp = .chunk ∧ a ≤ c ∧ c < a + ws.length) s (s.putChunk a ws) := by
  intro sp c hc
  cases sp with
  | chunk => simp only [memRead, chunkWord_putChunk, if_neg fun h => hc ⟨rfl, h⟩]
  | ibuf | obuf | rx | arena | beam => rfl

theorem SameOutside.mono {p q : Space → Nat → Prop} (h : SameOutside p s t)
    (hpq : ∀ sp a, p sp a → q sp a) : SameOutside q s t :=
  fun sp a hq => h sp a (mt (hpq sp a) hq)

@[simp] theorem ibufByte_putIbuf_same (s : State) (a : Nat) (b : Byte) :
    (s.putIbuf a [b]).ibufByte a = b := by simp [ibufByte_putIbuf]

@[simp] theorem chunkWord_putChunk_same (s : State) (a : Nat) (w : Word) :
    (s.putChunk a [w]).chunkWord a = w := by simp [chunkWord_putChunk]

theorem sameOutside_putIbuf_one (s : State) (a : Nat) (b : Byte) :
    SameOutside (fun sp c => sp = .ibuf ∧ c = a) s (s.putIbuf a [b]) :=
  (sameOutside_putIbuf s a [b]).mono fun _ _ ⟨hsp, hle, hlt⟩ =>
    ⟨hsp, Nat.le_antisymm (Nat.le_of_lt_succ hlt) hle⟩

theorem sameOutside_putChunk_one (s : State) (a : Nat) (w : Word) :
    SameOutside (fun sp c => sp = .chunk ∧ c = a) s (s.putChunk a [w]) :=
  (sameOutside_putChunk s a [w]).mono fun _ _ ⟨hsp, hle, hlt⟩ =>
    ⟨hsp, Nat.le_antisymm (Nat.le_of_lt_succ hlt) hle⟩

/-! ## Raising -/

/-- A command whose checks answer an error raises it (60_exceptions.md R210). -/
theorem raises_of_commit_error {i : Instr} {e : Err} {code info : Nat}
    (he : exec i s = commit i s (.error e)) (hcode : e.code = code) (hinfo : e.info = info) :
    Raises i s code info := by
  subst hcode hinfo
  exact he

theorem statusNat_lt (s : State) : statusNat s < 2 ^ 32 := by
  unfold statusNat
  split_ifs <;> omega

/-- The info of E_SEQ is STATUS (R206). -/
theorem seqErr_info (s : State) : (seqErr s).info = statusNat s := by
  show (statusWord s).toNat = statusNat s
  rw [statusWord_eq, BitVec.toNat_ofNat, Nat.mod_eq_of_lt (statusNat_lt s)]

/-! ## The CSR map by address (R24) -/

theorem csrOfAddr_csrAddr (c : Csr) : csrOfAddr (csrAddr c) = some c := by cases c <;> rfl

theorem mem_allCsrs (c : Csr) : c ∈ allCsrs := by cases c <;> decide

theorem mem_csrTable_iff {a : Nat} {v : Word} :
    (a, v) ∈ csrTable s ↔ ∃ c, csrOfAddr a = some c ∧ readCsr s c = v := by
  rw [← allCsrs_map_readCsr, List.mem_map]
  constructor
  · rintro ⟨c, -, hc⟩
    obtain ⟨rfl, hv⟩ := Prod.mk.inj hc
    exact ⟨c, csrOfAddr_csrAddr c, hv⟩
  · rintro ⟨c, hc, rfl⟩
    exact ⟨c, mem_allCsrs c, by rw [csrAddr_of_csrOfAddr hc]⟩

/-- The writable CSRs by their addresses (R24, column Access). -/
theorem isWritableCsr_iff (c : Csr) :
    isWritableCsr c = true ↔ csrAddr c ∈ [0, 1, 2, 3, 4, 5, 6, 0x20, 0x22] := by
  cases c <;> decide

theorem csrOfAddr_of_writable {a : Nat} (h : a ∈ [0, 1, 2, 3, 4, 5, 6, 0x20, 0x22]) :
    ∃ c, csrOfAddr a = some c ∧ isWritableCsr c = true := by
  have hall : ∀ a ∈ [0, 1, 2, 3, 4, 5, 6, 0x20, 0x22], (csrOfAddr a).any isWritableCsr = true := by decide
  exact (Option.any_eq_true _ _).1 (hall a h)

/-- Writing one configuration CSR keeps the six others (R25). -/
theorem confAt_writeConf {c : Csr} (hc : isConfigCsr c = true) (conf : Conf) (v : Word) {a : Nat}
    (ha : a ≤ 6) : confAt (writeConf conf c v) a = if a = csrAddr c then v else confAt conf a := by
  cases c
  case K | V | C | L | B | D | SEED => interval_cases a <;> rfl
  all_goals cases hc

/-! ## Admission of an access, for each command (R60, R110) -/

/-- The space number of a space (R60). -/
def Space.num : Space → Nat
  | .ibuf => 0
  | .obuf => 1
  | .chunk => 2
  | .rx => 3
  | .arena => 4
  | .beam => 5

theorem spaceOfNum_eq_some_iff {n : Nat} {sp : Space} : spaceOfNum n = some sp ↔ n = sp.num := by
  constructor
  · intro h
    unfold spaceOfNum at h
    split at h <;> cases h <;> rfl
  · rintro rfl
    cases sp <;> rfl

theorem memcheck_loadB_eq_ok {space ea : Nat} {sp : Space} :
    memcheck s .loadB space ea = .ok sp ↔
      (sp = .ibuf ∧ space = 0 ∧ ea < s.params.bufCap) ∨
      (sp = .obuf ∧ space = 1 ∧ ea < s.olen.toNat) := by
  rw [memcheck_eq_ok, spaceOfNum_eq_some_iff]
  cases sp <;> simp [Space.num, AccessKind.isByte, isByteSpace, accessBound, loadBound]

theorem memcheck_loadW_eq_ok {space ea : Nat} {sp : Space} :
    memcheck s .loadW space ea = .ok sp ↔
      (sp = .chunk ∧ space = 2 ∧ ea < s.params.chunkCap) ∨
      (sp = .rx ∧ space = 3 ∧ ea < s.sess.rxlen.toNat) ∨
      (sp = .arena ∧ space = 4 ∧ ea < 8 * s.sess.arenalen.toNat) ∨
      (sp = .beam ∧ space = 5 ∧ ea < s.sess.beamlen.toNat) := by
  rw [memcheck_eq_ok, spaceOfNum_eq_some_iff]
  cases sp <;>
    simp [Space.num, AccessKind.isByte, isByteSpace, accessBound, loadBound, Config.nodeWords]

theorem memcheck_storeB_eq_ok {space ea : Nat} {sp : Space} :
    memcheck s .storeB space ea = .ok sp ↔ sp = .ibuf ∧ space = 0 ∧ ea < s.params.bufCap := by
  rw [memcheck_eq_ok, spaceOfNum_eq_some_iff]
  cases sp <;> simp [Space.num, AccessKind.isByte, isByteSpace, accessBound, storeBound]

theorem memcheck_storeW_eq_ok {space ea : Nat} {sp : Space} :
    memcheck s .storeW space ea = .ok sp ↔ sp = .chunk ∧ space = 2 ∧ ea < s.params.chunkCap := by
  rw [memcheck_eq_ok, spaceOfNum_eq_some_iff]
  cases sp <;> simp [Space.num, AccessKind.isByte, isByteSpace, accessBound, storeBound]

/-- The words of a node record, the reserved word 7 reading 0 (R44, R66). -/
theorem node_word_eq (n : Node) (w : Nat) : n.word w = nodeWordAt n w := by
  match w with
  | 0 | 1 | 4 | 5 | 6 => rfl
  | 2 => exact setWidth_low n.cost
  | 3 => exact setWidth_high n.cost
  | w + 7 => simp [Node.word, nodeWordAt]

theorem arenaWord_eq (s : State) (a : Nat) : s.arenaWord a = nodeWordAt (s.node (a / 8)) (a % 8) :=
  node_word_eq _ _

end Sys2Proof.Machine
end

section
/-! The statements of 40_scalar_csr_memory.md (R105 to R115). -/

namespace Sys2Proof.Machine

open Sys2Proof.Claims

variable {s : State}

/-! ## LUI (R107) -/

/-- The halves LUI joins do not overlap, so joining them is adding them. -/
theorem shiftLeft_or_lowHalf (imm16 : BitVec 16) (x : Word) :
    (imm16.setWidth 32 <<< 16) ||| (x &&& 0x0000FFFF) = word (imm16.toNat * 2 ^ 16 + x.toNat % 2 ^ 16) := by
  have himm : imm16.toNat < 2 ^ 16 := imm16.isLt
  have hup : imm16.toNat <<< 16 < 2 ^ 32 := by rw [Nat.shiftLeft_eq]; omega
  have hlow : x.toNat % 2 ^ 16 < 2 ^ 16 := Nat.mod_lt _ (by decide)
  have hmask : x.toNat &&& 0xFFFF = x.toNat % 2 ^ 16 := Nat.and_two_pow_sub_one_eq_mod x.toNat 16
  apply BitVec.eq_of_toNat_eq
  calc ((imm16.setWidth 32 <<< 16) ||| (x &&& 0x0000FFFF)).toNat
      = imm16.toNat <<< 16 ||| x.toNat % 2 ^ 16 := by
        rw [BitVec.toNat_or, BitVec.toNat_and, BitVec.toNat_shiftLeft, BitVec.toNat_setWidth,
          Nat.mod_eq_of_lt (a := imm16.toNat) (by omega), Nat.mod_eq_of_lt (a := imm16.toNat <<< 16) hup]
        exact congrArg (imm16.toNat <<< 16 ||| ·) hmask
    _ = imm16.toNat * 2 ^ 16 + x.toNat % 2 ^ 16 := by
        rw [← Nat.shiftLeft_add_eq_or_of_lt hlow, Nat.shiftLeft_eq]
    _ = (word (imm16.toNat * 2 ^ 16 + x.toNat % 2 ^ 16)).toNat := by
        rw [BitVec.toNat_ofNat, Nat.mod_eq_of_lt (a := _ + _) (by omega)]

/-! ## CSRR and CSRW (R108, R109) -/

theorem exec_csrr_some {csr : Nat} {c : Csr} (rd : Reg) (hc : csrOfAddr csr = some c) :
    exec (.csrr rd csr) s = .next (s.setX rd (readCsr s c)) := by
  rw [exec, execCsrr, hc, commit_ok]

theorem raises_csrr_none {csr : Nat} (rd : Reg) (hc : csrOfAddr csr = none) :
    Raises (.csrr rd csr) s 0x02 csr :=
  raises_of_commit_error (e := .csr csr) (by rw [exec, execCsrr, hc]) rfl rfl

theorem raises_csrw_none {csr : Nat} (rs : Reg) (hc : csrOfAddr csr = none) :
    Raises (.csrw rs csr) s 0x02 csr :=
  raises_of_commit_error (e := .csr csr) (by rw [exec, execCsrw, hc]) rfl rfl

/-- The checks of CSRW at an implemented address. -/
theorem exec_csrw_some {csr : Nat} {c : Csr} (rs : Reg) (hc : csrOfAddr csr = some c) :
    exec (.csrw rs csr) s = commit (.csrw rs csr) s
      (if isWritableCsr c = false then .error (.csr csr)
      else if isConfigCsr c = true ∧ s.phase = .dec then .error (seqErr s)
      else if c = .ILEN ∧ (s.getX rs).toNat > s.params.bufCap then .error (.csrVal (s.getX rs).toNat)
      else if c = .CLEN ∧ (s.getX rs).toNat > s.params.chunkCap then .error (.csrVal (s.getX rs).toNat)
      else .ok (writeCsr s c (s.getX rs))) := by
  rw [exec, execCsrw, hc]

theorem raises_csrw_notWritable {csr : Nat} (rs : Reg)
    (h : csr ∉ [0, 1, 2, 3, 4, 5, 6, 0x20, 0x22]) : Raises (.csrw rs csr) s 0x02 csr := by
  cases hc : csrOfAddr csr with
  | none => exact raises_csrw_none rs hc
  | some c =>
    have hro : isWritableCsr c = false := by
      rw [← csrAddr_of_csrOfAddr hc, ← isWritableCsr_iff, Bool.not_eq_true] at h
      exact h
    exact raises_of_commit_error (e := .csr csr) (by rw [exec_csrw_some rs hc, if_pos hro]) rfl rfl

theorem exec_csrw_ilen (rs : Reg) : exec (.csrw rs 0x20) s = commit (.csrw rs 0x20) s
    (if (s.getX rs).toNat > s.params.bufCap then .error (.csrVal (s.getX rs).toNat)
      else .ok { s with ilen := s.getX rs }) := by
  rw [exec_csrw_some (c := .ILEN) rs rfl]
  simp [isWritableCsr, isConfigCsr, writeCsr_ILEN]

theorem exec_csrw_clen (rs : Reg) : exec (.csrw rs 0x22) s = commit (.csrw rs 0x22) s
    (if (s.getX rs).toNat > s.params.chunkCap then .error (.csrVal (s.getX rs).toNat)
      else .ok { s with clen := s.getX rs }) := by
  rw [exec_csrw_some (c := .CLEN) rs rfl]
  simp [isWritableCsr, isConfigCsr, writeCsr_CLEN]

theorem exec_csrw_config {c : Csr} (rs : Reg) (hc : isConfigCsr c = true) :
    exec (.csrw rs (csrAddr c)) s = commit (.csrw rs (csrAddr c)) s
      (if s.phase = .dec then .error (seqErr s)
      else .ok { s with conf := writeConf s.conf c (s.getX rs), ready := false }) := by
  have hilen : c ≠ .ILEN := by rintro rfl; cases hc
  have hclen : c ≠ .CLEN := by rintro rfl; cases hc
  rw [exec_csrw_some rs (csrOfAddr_csrAddr c), writeCsr_config hc]
  simp [isWritableCsr, hc, hilen, hclen]

/-! ## Memory commands (R111 to R115) -/

theorem exec_ldb (rd rs1 : Reg) (space off12 : Nat) :
    exec (.ldb rd rs1 space off12) s = commit (.ldb rd rs1 space off12) s
      ((memcheck s .loadB space (effectiveAddress s rs1 off12)).map fun sp =>
        s.setX rd (memRead s sp (effectiveAddress s rs1 off12))) := by
  simp only [exec, execLdb]
  cases memcheck s .loadB space (effectiveAddress s rs1 off12) <;> rfl

theorem exec_ldw (rd rs1 : Reg) (space off12 : Nat) :
    exec (.ldw rd rs1 space off12) s = commit (.ldw rd rs1 space off12) s
      ((memcheck s .loadW space (effectiveAddress s rs1 off12)).map fun sp =>
        s.setX rd (memRead s sp (effectiveAddress s rs1 off12))) := by
  simp only [exec, execLdw]
  cases memcheck s .loadW space (effectiveAddress s rs1 off12) <;> rfl

theorem exec_stb (rs2 rs1 : Reg) (space off12 : Nat) :
    exec (.stb rs2 rs1 space off12) s = commit (.stb rs2 rs1 space off12) s
      ((memcheck s .storeB space (effectiveAddress s rs1 off12)).map fun _ =>
        s.putIbuf (effectiveAddress s rs1 off12) [(s.getX rs2).setWidth 8]) := by
  simp only [exec, execStb]
  cases memcheck s .storeB space (effectiveAddress s rs1 off12) <;> rfl

theorem exec_stw (rs2 rs1 : Reg) (space off12 : Nat) :
    exec (.stw rs2 rs1 space off12) s = commit (.stw rs2 rs1 space off12) s
      ((memcheck s .storeW space (effectiveAddress s rs1 off12)).map fun _ =>
        s.putChunk (effectiveAddress s rs1 off12) [s.getX rs2]) := by
  simp only [exec, execStw]
  cases memcheck s .storeW space (effectiveAddress s rs1 off12) <;> rfl

section

variable {i : Instr} {kind : AccessKind} {space ea : Nat} {f : Space → State}

theorem exec_of_admitted {sp : Space} (he : exec i s = commit i s ((memcheck s kind space ea).map f))
    (hm : memcheck s kind space ea = .ok sp) : exec i s = .next (f sp) := by
  rw [he, hm]
  rfl

/-- An access that is not admitted raises E_ADDR(EA) (R110). -/
theorem raises_of_refused (he : exec i s = commit i s ((memcheck s kind space ea).map f))
    (hm : ∀ sp, memcheck s kind space ea ≠ .ok sp) : Raises i s 0x04 ea := by
  cases h : memcheck s kind space ea with
  | ok sp => exact absurd h (hm sp)
  | error e =>
    obtain rfl := memcheck_eq_error h
    exact raises_of_commit_error (e := .addr ea) (by rw [he, h]; rfl) rfl rfl

/-- An admitted load writes the cell it reads into X[rd] and nothing else. -/
theorem load_of_admitted {sp : Space} {rd : Reg} {v : Word}
    (he : exec i s = commit i s ((memcheck s kind space ea).map fun sp => s.setX rd (memRead s sp ea)))
    (hm : memcheck s kind space ea = .ok sp) (hv : memRead s sp ea = v) :
    ∃ t, exec i s = .next t ∧ WritesOnlyX s rd v t :=
  ⟨_, exec_of_admitted he hm, hv ▸ writesOnlyX_setX s rd _⟩

end

theorem exec_bmov (s : State) :
    exec .bmov s = .next { s.putIbuf 0 (s.obufBytes s.olen.toNat) with ilen := s.olen } := rfl

end Sys2Proof.Machine

namespace Sys2Proof.Proofs

open Sys2Proof Sys2Proof.Machine

/-- Settles O19. -/
theorem nopChangesNothing : Obligations.NopChangesNothing := fun _ => rfl

/-- Settles O20. -/
theorem liWritesTheZeroExtendedImmediate : Obligations.LiWritesTheZeroExtendedImmediate := by
  intro rd imm16 s
  have hv : imm16.setWidth 32 = word imm16.toNat := (BitVec.ofNat_toNat 32 imm16).symm
  exact ⟨_, rfl, hv ▸ writesOnlyX_setX s rd _⟩

/-- Settles O21. -/
theorem luiReplacesTheUpperHalf : Obligations.LuiReplacesTheUpperHalf := fun rd imm16 s =>
  ⟨_, rfl, shiftLeft_or_lowHalf imm16 (s.getX rd) ▸ writesOnlyX_setX s rd _⟩

/-- Settles O22, through the CSR that stands at the address, if any. -/
theorem csrrReadsTheCsrMap : Obligations.CsrrReadsTheCsrMap := by
  refine fun rd csr s => ⟨fun v hv => ?_, fun hnone => ?_⟩
  · obtain ⟨c, hc, rfl⟩ := mem_csrTable_iff.1 hv
    exact ⟨_, exec_csrr_some rd hc, writesOnlyX_setX s rd _⟩
  · cases hc : csrOfAddr csr with
    | none => exact raises_csrr_none rd hc
    | some c => exact absurd (mem_csrTable_iff.2 ⟨c, hc, rfl⟩) (hnone _)

/-- Settles O23: a writable CSR is ILEN, CLEN or one of the configuration, each with its own checks. -/
theorem csrwChecksThenWrites : Obligations.CsrwChecksThenWrites := by
  intro rs csr s
  by_cases hw : csr ∈ [0, 1, 2, 3, 4, 5, 6, 0x20, 0x22]
  · rw [if_neg (not_not_intro hw)]
    obtain ⟨c, hc, hwritable⟩ := csrOfAddr_of_writable hw
    obtain rfl := csrAddr_of_csrOfAddr hc
    rcases isWritableCsr_cases hwritable with rfl | rfl | hconf
    · have he := exec_csrw_ilen (s := s) rs
      by_cases hcap : (s.getX rs).toNat > s.params.bufCap
      · rw [if_pos hcap] at he
        have hraise : Raises (.csrw rs 0x20) s 0x03 (s.getX rs).toNat := raises_of_commit_error he rfl rfl
        simpa [csrAddr, hcap] using hraise
      · rw [if_neg hcap] at he
        simpa [csrAddr, hcap] using he
    · have he := exec_csrw_clen (s := s) rs
      by_cases hcap : (s.getX rs).toNat > s.params.chunkCap
      · rw [if_pos hcap] at he
        have hraise : Raises (.csrw rs 0x22) s 0x03 (s.getX rs).toNat := raises_of_commit_error he rfl rfl
        simpa [csrAddr, hcap] using hraise
      · rw [if_neg hcap] at he
        simpa [csrAddr, hcap] using he
    · have hle := csrAddr_le_of_isConfigCsr hconf
      have he := exec_csrw_config (s := s) rs hconf
      by_cases hdec : s.phase = .dec
      · rw [if_pos hdec] at he
        rw [if_pos ⟨hle, hdec⟩]
        exact raises_of_commit_error he rfl (seqErr_info s)
      · rw [if_neg hdec] at he
        rw [if_neg (by tauto), if_neg (by omega), if_neg (by omega), if_neg (by omega),
          if_neg (by omega)]
        exact ⟨_, he, rfl, memRead_congr rfl rfl, fun a ha => confAt_writeConf hconf s.conf _ ha⟩
  · rw [if_pos hw]
    exact raises_csrw_notWritable rs hw

/-- Settles O24, by the two spaces a byte load is admitted to. -/
theorem ldbLoadsAnAdmittedByte : Obligations.LdbLoadsAnAdmittedByte := by
  intro rd rs1 space off12 s ea
  have he := exec_ldb (s := s) rd rs1 space off12
  split_ifs with hibuf hobuf
  · exact load_of_admitted he (memcheck_loadB_eq_ok.2 (.inl ⟨rfl, hibuf⟩)) (BitVec.ofNat_toNat _ _).symm
  · exact load_of_admitted he (memcheck_loadB_eq_ok.2 (.inr ⟨rfl, hobuf⟩)) (BitVec.ofNat_toNat _ _).symm
  · refine raises_of_refused he fun sp hm => ?_
    rcases memcheck_loadB_eq_ok.1 hm with ⟨-, h⟩ | ⟨-, h⟩
    · exact hibuf h
    · exact hobuf h

/-- Settles O25, by the four spaces a word load is admitted to. -/
theorem ldwLoadsAnAdmittedCell : Obligations.LdwLoadsAnAdmittedCell := by
  intro rd rs1 space off12 s ea
  have he := exec_ldw (s := s) rd rs1 space off12
  split_ifs with hchunk hrx harena hbeam
  · exact load_of_admitted he (memcheck_loadW_eq_ok.2 (.inl ⟨rfl, hchunk⟩)) rfl
  · exact load_of_admitted he (memcheck_loadW_eq_ok.2 (.inr (.inl ⟨rfl, hrx⟩))) rfl
  · exact load_of_admitted he (memcheck_loadW_eq_ok.2 (.inr (.inr (.inl ⟨rfl, harena⟩))))
      (arenaWord_eq s _)
  · exact load_of_admitted he (memcheck_loadW_eq_ok.2 (.inr (.inr (.inr ⟨rfl, hbeam⟩)))) rfl
  · refine raises_of_refused he fun sp hm => ?_
    rcases memcheck_loadW_eq_ok.1 hm with ⟨-, h⟩ | ⟨-, h⟩ | ⟨-, h⟩ | ⟨-, h⟩
    · exact hchunk h
    · exact hrx h
    · exact harena h
    · exact hbeam h

/-- Settles O26: a byte store is admitted to IBUF alone, and reads back where it was written. -/
theorem stbStoresOneByteOfIbuf : Obligations.StbStoresOneByteOfIbuf := by
  intro rs2 rs1 space off12 s ea
  have he := exec_stb (s := s) rs2 rs1 space off12
  split_ifs with hibuf
  · refine ⟨_, exec_of_admitted he (memcheck_storeB_eq_ok.2 ⟨rfl, hibuf⟩), ?_,
      sameOutside_putIbuf_one s ea _, rfl⟩
    exact (congrArg BitVec.toNat (ibufByte_putIbuf_same s ea _)).trans (BitVec.toNat_setWidth 8 _)
  · exact raises_of_refused he fun sp hm => hibuf (memcheck_storeB_eq_ok.1 hm).2

/-- Settles O27: a word store is admitted to CHUNK alone, and reads back where it was written. -/
theorem stwStoresOneCellOfChunk : Obligations.StwStoresOneCellOfChunk := by
  intro rs2 rs1 space off12 s ea
  have he := exec_stw (s := s) rs2 rs1 space off12
  split_ifs with hchunk
  · exact ⟨_, exec_of_admitted he (memcheck_storeW_eq_ok.2 ⟨rfl, hchunk⟩),
      chunkWord_putChunk_same s ea _, sameOutside_putChunk_one s ea _, rfl⟩
  · exact raises_of_refused he fun sp hm => hchunk (memcheck_storeW_eq_ok.1 hm).2

/-- Settles O28: the copied run reads back in IBUF, and every cell outside it is kept. -/
theorem bmovCopiesObufIntoIbuf : Obligations.BmovCopiesObufIntoIbuf := by
  intro s
  refine ⟨_, exec_bmov s, rfl, fun a ha => ?_, fun sp a hout => ?_, rfl⟩
  · show (s.putIbuf 0 (s.obufBytes s.olen.toNat)).ibufByte a = s.obufByte a
    rw [ibufByte_putIbuf, obufBytes_length, if_pos (by omega)]
    simp [State.obufBytes, List.getD_eq_getElem?_getD, ha]
  · refine (memRead_congr (s := s.putIbuf 0 (s.obufBytes s.olen.toNat)) rfl rfl sp a).trans
      (sameOutside_putIbuf s 0 _ sp a ?_)
    rintro ⟨hsp, -, hlt⟩
    rw [obufBytes_length, Nat.zero_add] at hlt
    exact hout ⟨hsp, hlt⟩

end Sys2Proof.Proofs
end

section
/-! The bit streams of the BitPacker, as 41_bitpacker.md R120 and R121 write them out. -/

namespace Sys2Proof.Machine

open Sys2Proof.Claims

/-! ## The formulas of R120 and R121 -/

theorem streamBit_toNat (bytes : List Byte) (t : Nat) :
    (streamBit bytes t).toNat = byteBit (fun a => bytes.getD a 0) t :=
  Nat.toNat_testBit _ _

theorem packedBit_toNat (ints : List Nat) (w t : Nat) :
    (packedBit ints w t).toNat = ints.getD (t / w) 0 / 2 ^ (w - 1 - t % w) % 2 :=
  Nat.toNat_testBit _ _

theorem divide_getD_eq_cutInt {bytes : List Byte} {w j : Nat} (h : j < 8 * bytes.length / w) :
    (divide bytes w).getD j 0 = cutInt (fun a => bytes.getD a 0) w j := by
  rw [divide_getD bytes w j h, bitsToNat_sum]
  simp only [streamBit_toNat]
  rfl

theorem pack_getD_toNat {ints : List Nat} {w i : Nat} (h : i < ints.length * w / 8) :
    ((pack ints w).getD i 0).toNat = gluedByte (fun j => ints.getD j 0) w i := by
  have hlt := bitsToNat_lt ((List.range 8).map fun b => packedBit ints w (8 * i + b))
  rw [List.length_map, List.length_range] at hlt
  rw [pack_getD ints w i h, BitVec.toNat_ofNat, Nat.mod_eq_of_lt hlt, bitsToNat_sum]
  simp only [packedBit_toNat]
  rfl

theorem bitSum_congr {w : Nat} {f g : Nat → Nat} (h : ∀ i, i < w → f i = g i) :
    bitSum w f = bitSum w g :=
  Finset.sum_congr rfl fun i hi => congrArg (· * 2 ^ (w - 1 - i)) (h i (Finset.mem_range.1 hi))

/-- The entries `divide` makes of n bytes read those bytes alone. -/
theorem cutInt_congr {f g : Nat → Byte} {n w j : Nat} (hfg : ∀ a, a < n → f a = g a)
    (hj : j < 8 * n / w) : cutInt f w j = cutInt g w j := by
  refine bitSum_congr fun i hi => ?_
  have hend : (j + 1) * w ≤ 8 * n := Nat.mul_le_of_le_div w (j + 1) (8 * n) hj
  have hbyte : (j * w + i) / 8 < n := by
    rw [Nat.succ_mul] at hend
    omega
  simp only [byteBit, hfg _ hbyte]

/-- The bytes `pack` makes of n entries read those entries alone. -/
theorem gluedByte_congr {f g : Nat → Nat} {n w i : Nat} (hfg : ∀ j, j < n → f j = g j)
    (hi : i < n * w / 8) : gluedByte f w i = gluedByte g w i := by
  refine bitSum_congr fun b hb => ?_
  have hentry : (8 * i + b) / w < n := Nat.div_lt_of_lt_mul (by rw [Nat.mul_comm w]; omega)
  simp only [hfg _ hentry]

/-! ## The round trips (R124) -/

/-- The w bits packed from entry j spell it. -/
theorem bitsToNat_packedBits {xs : List Nat} {w j : Nat} (h : xs.getD j 0 < 2 ^ w) :
    bitsToNat ((List.range w).map fun i => packedBit xs w (j * w + i)) = xs.getD j 0 := by
  refine (congrArg bitsToNat (List.map_congr_left fun i hi => ?_)).trans (bitsToNat_own_bits h)
  have hi : i < w := List.mem_range.1 hi
  rw [packedBit, Nat.mul_comm j w, Nat.mul_add_div (by omega),
    Nat.div_eq_of_lt hi, Nat.add_zero, Nat.mul_add_mod, Nat.mod_eq_of_lt hi]

/-- The eight stream bits of byte i spell it. -/
theorem bitsToNat_streamBits (ys : List Byte) (i : Nat) :
    bitsToNat ((List.range 8).map fun b => streamBit ys (8 * i + b)) = (ys.getD i 0).toNat := by
  refine (congrArg bitsToNat (List.map_congr_left fun b hb => ?_)).trans
    (bitsToNat_own_bits (ys.getD i 0).isLt)
  have hb : b < 8 := List.mem_range.1 hb
  rw [streamBit, show (8 * i + b) / 8 = i by omega,
    show 7 - (8 * i + b) % 8 = 8 - 1 - b by omega]
  rfl

/-- Lists of one length are equal when their entries are. -/
theorem eq_of_getD_eq {α : Type} {xs ys : List α} (d : α) (hlen : xs.length = ys.length)
    (h : ∀ j, j < ys.length → xs.getD j d = ys.getD j d) : xs = ys :=
  List.ext_getElem hlen fun j hx hy => by
    rw [← List.getD_eq_getElem xs d hx, ← List.getD_eq_getElem ys d hy, h j hy]

theorem divide_pack {xs : List Nat} {w : Nat} (hw : 1 ≤ w) (hx : ∀ x ∈ xs, x < 2 ^ w)
    (hwhole : xs.length * w % 8 = 0) : divide (pack xs w) w = xs := by
  have hbits : 8 * (xs.length * w / 8) = xs.length * w :=
    Nat.mul_div_cancel' (Nat.dvd_of_mod_eq_zero hwhole)
  have hcount : 8 * (pack xs w).length / w = xs.length := by
    rw [pack_length, hbits, Nat.mul_div_cancel _ hw]
  refine eq_of_getD_eq 0 (by rw [divide_length, hcount]) fun j hj => ?_
  have hentry : xs.getD j 0 < 2 ^ w := by
    rw [List.getD_eq_getElem xs 0 hj]
    exact hx _ (List.getElem_mem hj)
  rw [divide_getD _ _ _ (by rwa [hcount]), ← bitsToNat_packedBits hentry]
  refine congrArg bitsToNat (List.map_congr_left fun i hi => streamBit_pack xs w _ ?_)
  have hend : (j + 1) * w ≤ xs.length * w := Nat.mul_le_mul_right w hj
  rw [Nat.succ_mul] at hend
  have hi : i < w := List.mem_range.1 hi
  omega

theorem pack_divide {ys : List Byte} {w : Nat} (hwhole : 8 * ys.length % w = 0) :
    pack (divide ys w) w = ys := by
  have hbits : 8 * ys.length / w * w = 8 * ys.length :=
    Nat.div_mul_cancel (Nat.dvd_of_mod_eq_zero hwhole)
  have hcount : (divide ys w).length * w / 8 = ys.length := by
    rw [divide_length, hbits, Nat.mul_div_cancel_left _ (by decide)]
  refine eq_of_getD_eq 0 (by rw [pack_length, hcount]) fun i hi => ?_
  have hcut : bitsToNat ((List.range 8).map fun b => packedBit (divide ys w) w (8 * i + b)) =
      bitsToNat ((List.range 8).map fun b => streamBit ys (8 * i + b)) := by
    refine congrArg bitsToNat (List.map_congr_left fun b hb => packedBit_divide ys w _ ?_)
    have hb : b < 8 := List.mem_range.1 hb
    omega
  rw [pack_getD _ _ _ (by rwa [hcount]), hcut, bitsToNat_streamBits, BitVec.ofNat_toNat,
    BitVec.setWidth_eq]

theorem divide_eight (ys : List Byte) : divide ys 8 = ys.map BitVec.toNat := by
  have hcount : 8 * ys.length / 8 = ys.length := Nat.mul_div_cancel_left _ (by decide)
  refine eq_of_getD_eq 0 (by rw [divide_length, hcount, List.length_map]) fun j hj => ?_
  rw [List.length_map] at hj
  rw [divide_getD _ _ _ (by rwa [hcount]), Nat.mul_comm j 8, bitsToNat_streamBits]
  exact (List.getD_map ys 0 BitVec.toNat).symm

/-! ## What the commands store (R122, R123) -/

theorem SameOutside.congr {p : Space → Nat → Prop} {s t u : State} (h : SameOutside p s t)
    (hmem : u.mem = t.mem) (hlaunch : u.launch = t.launch) : SameOutside p s u :=
  fun sp a ha => (memRead_congr hmem hlaunch sp a).trans (h sp a ha)

theorem sameOutside_putObuf (s : State) (a : Nat) (bs : List Byte) :
    SameOutside (fun sp c => sp = .obuf ∧ a ≤ c ∧ c < a + bs.length) s (s.putObuf a bs) := by
  intro sp c hc
  cases sp with
  | obuf => simp only [memRead, obufByte_putObuf, if_neg fun h => hc ⟨rfl, h⟩]
  | ibuf | chunk | rx | arena | beam => rfl

theorem ibufBytes_getD (s : State) {n a : Nat} (h : a < n) :
    (s.ibufBytes n).getD a 0 = s.ibufByte a := by
  rw [List.getD_eq_getElem _ _ (by simpa using h)]
  simp [State.ibufBytes]

@[simp] theorem chunkInts_length (s : State) (n : Nat) : (chunkInts s n).length = n := by
  simp [chunkInts]

theorem chunkInts_getD (s : State) {n j : Nat} (h : j < n) :
    (chunkInts s n).getD j 0 = (s.chunkWord j).toNat := by
  rw [List.getD_eq_getElem _ _ (by simpa using h)]
  simp [chunkInts]

/-- Entry j of the divided input, as a cell of CHUNK or RX holds it. -/
theorem dividedWord_toNat (s : State) {n w j : Nat} (hw : w ≤ 32) (hj : j < 8 * n / w) :
    (((divide (s.ibufBytes n) w).map word).getD j 0).toNat = cutInt s.ibufByte w j := by
  have hlen : j < 8 * (s.ibufBytes n).length / w := by rwa [ibufBytes_length]
  have hfits : (divide (s.ibufBytes n) w).getD j 0 < 2 ^ 32 := by
    rw [List.getD_eq_getElem _ _ (by rwa [divide_length])]
    exact (divide_lt (List.getElem_mem _)).trans_le (Nat.pow_le_pow_right (by decide) hw)
  calc (((divide (s.ibufBytes n) w).map word).getD j 0).toNat
      = (word ((divide (s.ibufBytes n) w).getD j 0)).toNat :=
        congrArg BitVec.toNat (List.getD_map _ 0 word)
    _ = (divide (s.ibufBytes n) w).getD j 0 := word_toNat hfits
    _ = cutInt (fun a => (s.ibufBytes n).getD a 0) w j := divide_getD_eq_cutInt hlen
    _ = cutInt s.ibufByte w j := cutInt_congr (fun _ ha => ibufBytes_getD s ha) hj

/-- Byte i of the packed CHUNK, by the entries it is glued from. -/
theorem packedByte_toNat (s : State) {n w i : Nat} (hi : i < n * w / 8) :
    ((pack (chunkInts s n) w).getD i 0).toNat = gluedByte (fun j => (s.chunkWord j).toNat) w i :=
  (pack_getD_toNat (by rwa [chunkInts_length])).trans
    (gluedByte_congr (fun _ hj => chunkInts_getD s hj) hi)

/-! ## BP.DIV (R122) -/

section
variable (s : State) {w n : Nat}

/-- The state BP.DIV makes of n input bytes at width w. -/
def divided (s : State) (w n : Nat) : State :=
  { s.putChunk 0 ((divide (s.ibufBytes n) w).map word) with clen := word (8 * n / w) }

theorem divided_chunkWord_toNat (hw : w ≤ 32) {j : Nat} (hj : j < 8 * n / w) :
    ((divided s w n).chunkWord j).toNat = cutInt s.ibufByte w j := by
  show ((s.putChunk 0 _).chunkWord j).toNat = _
  rw [chunkWord_putChunk, if_pos (by simpa using hj)]
  exact dividedWord_toNat s hw hj

theorem sameOutside_divided :
    SameOutside (fun sp a => sp = .chunk ∧ a < 8 * n / w) s (divided s w n) := by
  refine ((sameOutside_putChunk s 0 _).congr rfl rfl).mono fun sp a ⟨hsp, _, ha⟩ => ⟨hsp, ?_⟩
  simpa using ha

end

theorem exec_bpDiv (rs : Reg) (s : State) : exec (.bpDiv rs) s = commit (.bpDiv rs) s
    (if (s.getX rs).toNat < 1 ∨ (s.getX rs).toNat > 32 then .error (.width (s.getX rs).toNat)
    else if 8 * s.ilen.toNat % (s.getX rs).toNat ≠ 0 then .error (.alignIn s.ilen.toNat)
    else if 8 * s.ilen.toNat / (s.getX rs).toNat > s.params.chunkCap then .error (.capacity 2)
    else .ok (divided s (s.getX rs).toNat s.ilen.toNat)) := rfl

/-! ## BP.PACK (R123) -/

section
variable (s : State) {w n : Nat}

/-- The state BP.PACK makes of n entries of CHUNK at width w. -/
def packed (s : State) (w n : Nat) : State :=
  { s.putObuf 0 (pack (chunkInts s n) w) with olen := word (n * w / 8) }

theorem packed_obufByte_toNat {i : Nat} (hi : i < n * w / 8) :
    ((packed s w n).obufByte i).toNat = gluedByte (fun j => (s.chunkWord j).toNat) w i := by
  show ((s.putObuf 0 _).obufByte i).toNat = _
  rw [obufByte_putObuf, if_pos (by simpa using hi)]
  exact packedByte_toNat s hi

theorem sameOutside_packed :
    SameOutside (fun sp a => sp = .obuf ∧ a < n * w / 8) s (packed s w n) := by
  refine ((sameOutside_putObuf s 0 _).congr rfl rfl).mono fun sp a ⟨hsp, _, ha⟩ => ⟨hsp, ?_⟩
  simpa using ha

end

/-- The first of n entries of CHUNK that is not below 2^w, the one E_VALUE names. -/
def badEntry (s : State) (w n : Nat) : Option Nat :=
  (List.range n).find? fun j => decide ((s.chunkWord j).toNat ≥ 2 ^ w)

theorem badEntry_eq_some {s : State} {w n j : Nat} (hj : j < n) (hbad : (s.chunkWord j).toNat ≥ 2 ^ w)
    (hleast : ∀ j', j' < j → (s.chunkWord j').toNat < 2 ^ w) : badEntry s w n = some j :=
  List.find?_range_eq_some.2 ⟨decide_eq_true hbad, List.mem_range.2 hj, fun j' hj' => by
    simpa using hleast j' hj'⟩

theorem badEntry_eq_none {s : State} {w n : Nat} (h : ∀ j, j < n → (s.chunkWord j).toNat < 2 ^ w) :
    badEntry s w n = none :=
  List.find?_eq_none.2 fun j hj => by simpa using h j (List.mem_range.1 hj)

theorem exec_bpPack (rs : Reg) (s : State) : exec (.bpPack rs) s = commit (.bpPack rs) s
    (if (s.getX rs).toNat < 1 ∨ (s.getX rs).toNat > 32 then .error (.width (s.getX rs).toNat)
    else if s.clen.toNat * (s.getX rs).toNat % 8 ≠ 0 then .error (.alignOut s.clen.toNat)
    else if s.clen.toNat * (s.getX rs).toNat / 8 > s.params.bufCap then .error (.capacity 1)
    else (badEntry s (s.getX rs).toNat s.clen.toNat).elim
      (.ok (packed s (s.getX rs).toNat s.clen.toNat)) fun j => .error (.value j)) := by
  simp only [exec, execBpPack, badEntry]
  cases (List.range s.clen.toNat).find? fun j =>
    decide ((s.chunkWord j).toNat ≥ 2 ^ (s.getX rs).toNat) <;> rfl

end Sys2Proof.Machine

namespace Sys2Proof.Proofs

open Sys2Proof Sys2Proof.Machine

/-- Settles O29, by the checks in their order: the first that fails raises. -/
theorem bpDivCutsTheInputStream : Obligations.BpDivCutsTheInputStream := by
  intro rs s hlegal w ilen cnt
  have he := exec_bpDiv rs s
  split_ifs with hw halign hcap
  · rw [if_pos hw] at he
    exact raises_of_commit_error he rfl rfl
  · rw [if_neg hw, if_pos halign] at he
    exact raises_of_commit_error he rfl rfl
  · rw [if_neg hw, if_neg halign, if_pos hcap] at he
    exact raises_of_commit_error he rfl rfl
  · rw [if_neg hw, if_neg halign, if_neg hcap] at he
    have hcnt : cnt < 2 ^ 32 := by
      obtain ⟨-, -, -, hchunk, -⟩ := hlegal
      omega
    exact ⟨_, he, word_toNat hcnt, fun j hj => divided_chunkWord_toNat s (by omega) hj,
      sameOutside_divided s, rfl⟩

/-- Settles O30, by the checks in their order; past them the first bad entry, if any, decides. -/
theorem bpPackGluesTheOutputStream : Obligations.BpPackGluesTheOutputStream := by
  intro rs s hlegal w clen olen
  have he := exec_bpPack rs s
  split_ifs with hw halign hcap
  · rw [if_pos hw] at he
    exact raises_of_commit_error he rfl rfl
  · rw [if_neg hw, if_pos halign] at he
    exact raises_of_commit_error he rfl rfl
  · rw [if_neg hw, if_neg halign, if_pos hcap] at he
    exact raises_of_commit_error he rfl rfl
  · rw [if_neg hw, if_neg halign, if_neg hcap] at he
    refine ⟨fun j hj hbad hleast => ?_, fun hvalues => ?_⟩
    · rw [badEntry_eq_some hj hbad hleast] at he
      exact raises_of_commit_error he rfl rfl
    · rw [badEntry_eq_none hvalues] at he
      have holen : olen < 2 ^ 32 := by
        obtain ⟨-, hbuf, -⟩ := hlegal
        omega
      exact ⟨_, he, word_toNat holen, fun i hi => packed_obufByte_toNat s hi,
        sameOutside_packed s, rfl⟩

/-- Settles O31. -/
theorem divideAndPackAreInverse : Obligations.DivideAndPackAreInverse :=
  ⟨fun _ _ hw _ hx hwhole => divide_pack hw hx hwhole, fun _ _ _ _ hwhole => pack_divide hwhole,
    divide_eight⟩

end Sys2Proof.Proofs
end

section
/-! The statements of 42_rng.md (R130 to R139). -/

namespace Sys2Proof.Machine

/-! ## The generator (R132 to R135) -/

theorem rngInit_toNat (seed : Word) : (rngInit seed).toNat = seed.toNat ^^^ 0x5DEECE66D := by
  have hseed : seed.toNat < 2 ^ 48 := seed.isLt.trans (by decide)
  rw [rngInit, BitVec.toNat_xor, BitVec.toNat_setWidth, Nat.mod_eq_of_lt hseed]
  rfl

theorem rngInit_injective : Function.Injective rngInit := by
  intro a b h
  have hxor := congrArg BitVec.toNat h
  rw [rngInit_toNat, rngInit_toNat] at hxor
  exact BitVec.eq_of_toNat_eq (Nat.xor_left_injective hxor)

theorem rngStep_toNat (s : RngWord) :
    (rngStep s).toNat = (s.toNat * 0x5DEECE66D + 0xB) % 2 ^ 48 := by
  rw [rngStep, BitVec.toNat_ofNat, rngMult, rngAdd]

/-- The step as arithmetic mod 2^48, the product and the sum reduced each on its own. -/
theorem rngStep_eq (s : RngWord) : rngStep s = s * 0x5DEECE66D#48 + 0xB#48 := by
  rw [rngStep, rngMult, rngAdd, BitVec.ofNat_add, BitVec.ofNat_mul, BitVec.ofNat_toNat,
    BitVec.setWidth_eq]

/-- The step taken back: RNG_MULT is odd, so it has an inverse mod 2^48 (R133). -/
def rngUnstep (s : RngWord) : RngWord := (s - 0xB#48) * 0xDFE05BCB1365#48

theorem rngUnstep_rngStep (s : RngWord) : rngUnstep (rngStep s) = s := by
  have hinv : 0x5DEECE66D#48 * 0xDFE05BCB1365#48 = 1#48 := by decide
  rw [rngUnstep, rngStep_eq, BitVec.add_sub_cancel, BitVec.mul_assoc, hinv, BitVec.mul_one]

theorem rngStep_rngUnstep (s : RngWord) : rngStep (rngUnstep s) = s := by
  have hinv : 0xDFE05BCB1365#48 * 0x5DEECE66D#48 = 1#48 := by decide
  rw [rngStep_eq, rngUnstep, BitVec.mul_assoc, hinv, BitVec.mul_one, BitVec.sub_add_cancel]

theorem rngStep_bijective : Function.Bijective rngStep :=
  Function.bijective_iff_has_inverse.2 ⟨rngUnstep, rngUnstep_rngStep, rngStep_rngUnstep⟩

/-- The top c bits are the top c of the top 31 (R135). -/
theorem rngOut_eq_rngOut_div (s : RngWord) {c : Nat} (hc : c ≤ 31) :
    rngOut s c = rngOut s 31 / 2 ^ (31 - c) := by
  rw [rngOut_eq_div s hc, rngOut_eq_div s le_rfl, Nat.div_div_eq_div_mul, ← pow_add,
    show 48 - 31 + (31 - c) = 48 - c by omega]

/-- An output fits a register. -/
theorem rngOut_lt_two_pow_32 (s : RngWord) {c : Nat} (hc : c ≤ 31) : rngOut s c < 2 ^ 32 := by
  rw [rngOut_eq_div s hc, Nat.div_lt_iff_lt_mul (by positivity), ← pow_add]
  exact s.isLt.trans_le (Nat.pow_le_pow_right (by decide) (by omega))

/-! ## The contexts -/

/-- The context of a generator built from (seed, c) that has given p outputs (R135, R137). -/
def generatorAt (seed : Word) (c p : Nat) : RngContext :=
  { valid := true, c := BitVec.ofNat 5 c, state := rngState seed p }

/-- A context after one `next()` (R138). -/
def RngContext.stepped (ctx : RngContext) : RngContext := { ctx with state := rngStep ctx.state }

/-! By `rw`, not `rfl`: comparing a stepped context with the context unfolds the product of the step. -/

@[simp] theorem RngContext.stepped_valid (ctx : RngContext) : ctx.stepped.valid = ctx.valid := by
  rw [RngContext.stepped]

@[simp] theorem RngContext.stepped_c (ctx : RngContext) : ctx.stepped.c = ctx.c := by
  rw [RngContext.stepped]

theorem RngContext.stepped_state_toNat (ctx : RngContext) :
    ctx.stepped.state.toNat = (ctx.state.toNat * 0x5DEECE66D + 0xB) % 2 ^ 48 := by
  rw [RngContext.stepped, rngStep_toNat]

/-- What that `next()` returns. -/
def RngContext.output (ctx : RngContext) : Nat := rngOut ctx.stepped.state ctx.c.toNat

theorem generatorAt_c_toNat (seed : Word) {c : Nat} (hc : c < 32) (p : Nat) :
    (generatorAt seed c p).c.toNat = c := Nat.mod_eq_of_lt hc

theorem generatorAt_stepped (seed : Word) (c p : Nat) :
    (generatorAt seed c p).stepped = generatorAt seed c (p + 1) := rfl

theorem generatorAt_output (seed : Word) {c : Nat} (hc : c < 32) (p : Nat) :
    (generatorAt seed c p).output = draw seed c p := by
  rw [RngContext.output, generatorAt_c_toNat seed hc]
  rfl

theorem RngContext.output_eq_div (ctx : RngContext) :
    ctx.output = ctx.stepped.state.toNat / 2 ^ (48 - ctx.c.toNat) :=
  rngOut_eq_div _ (Nat.le_of_lt_succ ctx.c.isLt)

theorem RngContext.word_output_toNat (ctx : RngContext) : (word ctx.output).toNat = ctx.output :=
  word_toNat (rngOut_lt_two_pow_32 _ (Nat.le_of_lt_succ ctx.c.isLt))

theorem getG_setG_ne (s : State) {g g' : CtxNum} (ctx : RngContext) (h : g' ≠ g) :
    (s.setG g ctx).getG g' = s.getG g' := by rw [getG_setG, if_neg h]

/-! ## RSEED and RNEXT (R137, R138) -/

variable {g : CtxNum} {s : State}

theorem exec_rseed (g : CtxNum) (rs1 rs2 : Reg) (s : State) :
    exec (.rseed g rs1 rs2) s = commit (.rseed g rs1 rs2) s
      (if (s.getX rs2).toNat ≥ 32 then .error (.width (s.getX rs2).toNat)
      else .ok (s.setG g (generatorAt (s.getX rs1) (s.getX rs2).toNat 0))) := rfl

/-- The state RNEXT makes of s. -/
def drawn (s : State) (rd : Reg) (g : CtxNum) : State :=
  (s.setG g (s.getG g).stepped).setX rd (word (s.getG g).output)

theorem exec_rnext (rd : Reg) (g : CtxNum) (s : State) :
    exec (.rnext rd g) s = commit (.rnext rd g) s
      (if (s.getG g).valid = false then .error (seqErr s) else .ok (drawn s rd g)) := rfl

theorem drawn_getX_same (s : State) (rd : Reg) (g : CtxNum) :
    (drawn s rd g).getX rd = word (s.getG g).output := getX_setX_same _ _ _

theorem drawn_getX_ne (s : State) {rd r : Reg} (g : CtxNum) (h : r ≠ rd) :
    (drawn s rd g).getX r = s.getX r := getX_setX_ne _ _ h

theorem drawn_getG_same (s : State) (rd : Reg) (g : CtxNum) :
    (drawn s rd g).getG g = (s.getG g).stepped := getG_setG_same _ _ _

theorem drawn_getG_ne (s : State) (rd : Reg) {g g' : CtxNum} (h : g' ≠ g) :
    (drawn s rd g).getG g' = s.getG g' := getG_setG_ne _ _ h

theorem exec_rseed_of_lt {rs1 rs2 : Reg} (hc : (s.getX rs2).toNat < 32) :
    exec (.rseed g rs1 rs2) s =
      .next (s.setG g (generatorAt (s.getX rs1) (s.getX rs2).toNat 0)) := by
  rw [exec_rseed, if_neg (Nat.not_le.2 hc), commit_ok]

theorem exec_rnext_of_valid {rd : Reg} (hvalid : (s.getG g).valid = true) :
    exec (.rnext rd g) s = .next (drawn s rd g) := by
  rw [exec_rnext, if_neg (by simp [hvalid]), commit_ok]

/-! ## A run of draws (R138) -/

section

variable {seed : Word} {c p : Nat} {t u : State}

/-- RNEXT on a generator that has given p outputs leaves one that has given p + 1. -/
theorem exec_rnext_generatorAt (rd : Reg) (h : s.getG g = generatorAt seed c p) :
    exec (.rnext rd g) s = .next (drawn s rd g) ∧
      (drawn s rd g).getG g = generatorAt seed c (p + 1) :=
  ⟨exec_rnext_of_valid (by rw [h]; rfl), by rw [drawn_getG_same, h, generatorAt_stepped]⟩

/-- RNEXTs on one context, each to a register of its own, count its outputs. -/
theorem generatorAt_of_rnexts {f : State → Reg → Option State} {rds : List Reg}
    (hf : ∀ st r st', exec (.rnext r g) st = .next st' → f st r = some st')
    (ht : t.getG g = generatorAt seed c p) (hrun : rds.foldlM f t = some u) :
    u.getG g = generatorAt seed c (p + rds.length) := by
  induction rds generalizing t p with
  | nil => cases hrun; exact ht
  | cons r rds ih =>
    obtain ⟨hexec, hgen⟩ := exec_rnext_generatorAt r ht
    rw [List.foldlM_cons, hf _ _ _ hexec] at hrun
    rw [List.length_cons, Nat.add_comm rds.length, ← Nat.add_assoc]
    exact ih hgen hrun

end

end Sys2Proof.Machine

namespace Sys2Proof.Proofs

open Sys2Proof Sys2Proof.Machine

/-- Settles O32: the generator RSEED builds has given no output yet, so its state is rng_init(seed). -/
theorem rseedConstructsItsContext : Obligations.RseedConstructsItsContext := by
  intro g rs1 rs2 s
  have he := exec_rseed g rs1 rs2 s
  split_ifs with hc
  · rw [if_pos hc] at he
    exact raises_of_commit_error he rfl rfl
  · have hlt := Nat.not_le.1 hc
    refine ⟨_, exec_rseed_of_lt hlt, ?_, ?_, ?_, fun g' hg' => getG_setG_ne s _ hg',
      memRead_congr rfl rfl, rfl⟩ <;> rw [getG_setG_same]
    · rfl
    · exact generatorAt_c_toNat _ hlt 0
    · exact rngInit_toNat _

/-- Settles O33. -/
theorem rnextStepsItsContext : Obligations.RnextStepsItsContext := by
  intro rd g s
  have he := exec_rnext rd g s
  split_ifs with hvalid
  · rw [if_pos hvalid] at he
    exact raises_of_commit_error he rfl (seqErr_info s)
  · have hvalid := Bool.of_not_eq_false hvalid
    refine ⟨_, exec_rnext_of_valid hvalid, ?_, ?_, ?_, ?_, fun r hr => drawn_getX_ne s g hr,
      fun g' hg' => drawn_getG_ne s rd hg', memRead_congr rfl rfl, rfl⟩ <;> rw [drawn_getG_same]
    · exact (s.getG g).stepped_state_toNat
    · rw [RngContext.stepped_valid, hvalid]
    · exact (s.getG g).stepped_c
    · rw [drawn_getX_same, RngContext.word_output_toNat, RngContext.output_eq_div]

/-- Settles O34, by induction on the draws before the last: after p of them the context is the generator
that has given p outputs. -/
theorem rnextAfterRseedReturnsTheDraws : Obligations.RnextAfterRseedReturnsTheDraws := by
  intro g rs1 rs2 rd s t u rds hseed hc hrun
  rw [exec_rseed_of_lt hc] at hseed
  obtain rfl := Host.Outcome.next.inj hseed
  have hgen : u.getG g = generatorAt (s.getX rs1) (s.getX rs2).toNat (0 + rds.length) :=
    generatorAt_of_rnexts (fun st r st' he => by simp only [he]) (getG_setG_same s g _) hrun
  rw [Nat.zero_add] at hgen
  obtain ⟨hexec, -⟩ := exec_rnext_generatorAt rd hgen
  refine ⟨_, hexec, ?_⟩
  rw [drawn_getX_same, RngContext.word_output_toNat, hgen, generatorAt_output _ hc]

/-- Settles O35. -/
theorem drawsAreBoundedPrefixes : Obligations.DrawsAreBoundedPrefixes :=
  fun seed _ p hc => ⟨draw_lt seed p hc, rngOut_eq_rngOut_div (rngState seed (p + 1)) hc⟩

/-- Settles O36: rng_init is an xor with a constant, and `rngUnstep` inverts rng_step. -/
theorem rngInitInjectiveAndStepBijective : Obligations.RngInitInjectiveAndStepBijective :=
  ⟨rngInit_injective, rngStep_bijective⟩

end Sys2Proof.Proofs
end

section
/-! The statements of 43_spinechain.md (R145 to R152). -/

namespace Sys2Proof.Machine

/-! ## The bytes of the pair (R145, R147) -/

/-- Byte i of a word, by shifting and by division. -/
theorem shiftedByte_eq (x : Word) (i : Nat) :
    (x >>> (8 * i)).setWidth 8 = BitVec.ofNat 8 (x.toNat / 256 ^ i) := by
  have hpow : 2 ^ (8 * i) = 256 ^ i := Nat.pow_mul 2 8 i
  apply BitVec.eq_of_toNat_eq
  rw [BitVec.toNat_setWidth, BitVec.toNat_ushiftRight, Nat.shiftRight_eq_div_pow, hpow,
    BitVec.toNat_ofNat]

theorem le32_eq_map_range (x : Word) :
    le32 x = (List.range 4).map fun i => BitVec.ofNat 8 (x.toNat / 256 ^ i) := by
  have hshift : le32 x = (List.range 4).map fun i => (x >>> (8 * i)).setWidth 8 := by
    simp [le32, List.range_succ]
  rw [hshift]
  exact List.map_congr_left fun i _ => shiftedByte_eq x i

/-! ## The mask (R148) -/

theorem maskWord_toNat {v : Nat} (hv : v ≤ 32) : (maskWord v).toNat = 2 ^ v - 1 := by
  have hle : 2 ^ v ≤ 2 ^ 32 := Nat.pow_le_pow_right (by decide) hv
  exact word_toNat (by omega)

/-- Masking to v bits is reduction mod 2^v. -/
theorem spineNext_eq_word_mod (hp : Config.HashPrimitive) (prev m : Word) {v : Nat} (hv : v ≤ 32) :
    spineNext hp prev m v = word ((hashPair hp prev m).toNat % 2 ^ v) := by
  have hlt : (hashPair hp prev m).toNat % 2 ^ v < 2 ^ 32 :=
    (Nat.mod_le _ _).trans_lt (hashPair hp prev m).isLt
  apply BitVec.eq_of_toNat_eq
  rw [spineNext, BitVec.toNat_and, maskWord_toNat hv, Nat.and_two_pow_sub_one_eq_mod,
    word_toNat hlt]

/-! ## The fixed point of the one-at-a-time hash (R152) -/

theorem oneAtATimeMix_zero : oneAtATimeMix 0 0 = 0 := by decide

theorem oneAtATimeFinish_zero : oneAtATimeFinish 0 = 0 := by decide

theorem foldl_oneAtATimeMix_zeros (n : Nat) : (List.replicate n 0).foldl oneAtATimeMix 0 = 0 := by
  induction n with
  | zero => rfl
  | succ n ih => rw [List.replicate_succ, List.foldl_cons, oneAtATimeMix_zero, ih]

/-- A run of zero bytes, of any length, hashes to 0: neither the mixing nor the end moves 0. -/
theorem oneAtATime_zeros (n : Nat) : oneAtATime (List.replicate n 0) = 0 := by
  rw [oneAtATime, foldl_oneAtATimeMix_zeros, oneAtATimeFinish_zero]

theorem le32_zero : le32 0 = List.replicate 4 0 := by decide

theorem hashPair_oneAtATime_zero : hashPair .oneAtATime 0 0 = 0 := by
  rw [hashPair, le32_zero, List.replicate_append_replicate]
  exact oneAtATime_zeros 8

/-! ## HASH and SPINE (R149, R150) -/

theorem exec_hash (rd rs1 rs2 : Reg) (s : State) : exec (.hash rd rs1 rs2) s =
    .next (s.setX rd (hashPair s.params.hash (s.getX rs1) (s.getX rs2))) := rfl

theorem exec_spine (rd rs1 rs2 : Reg) (s : State) :
    exec (.spine rd rs1 rs2) s = commit (.spine rd rs1 rs2) s
      (if s.conf.v.toNat < 1 ∨ s.conf.v.toNat > 32 then .error (.cfgV s.conf.v.toNat)
      else .ok (s.setX rd
        (spineNext s.params.hash (s.getX rs1) (s.getX rs2) s.conf.v.toNat))) := rfl

end Sys2Proof.Machine

namespace Sys2Proof.Proofs

open Sys2Proof Sys2Proof.Machine

/-- Settles O37: `le32` lists the four bytes that division by the powers of 256 gives. -/
theorem hashHashesTheLittleEndianPair : Obligations.HashHashesTheLittleEndianPair := by
  intro rd rs1 rs2 s
  refine ⟨_, exec_hash rd rs1 rs2 s, ?_⟩
  rw [hashPair, le32_eq_map_range, le32_eq_map_range]
  exact writesOnlyX_setX s rd _

/-- Settles O38, by the check on V: past it the mask of V bits is reduction mod 2^V. -/
theorem spineMasksTheHashToVBits : Obligations.SpineMasksTheHashToVBits := by
  intro rd rs1 rs2 s
  have he := exec_spine rd rs1 rs2 s
  split_ifs with hv
  · rw [if_pos hv] at he
    exact raises_of_commit_error he rfl rfl
  · rw [if_neg hv, spineNext_eq_word_mod _ _ _ (by omega)] at he
    exact ⟨_, he, writesOnlyX_setX s rd _⟩

/-- Settles O39: the pair (0, 0) is eight zero bytes, and masking keeps 0. -/
theorem defaultHashFixesZero : Obligations.DefaultHashFixesZero := by
  refine ⟨oneAtATime_zeros 8, hashPair_oneAtATime_zero, fun v => ?_⟩
  rw [spineNext, hashPair_oneAtATime_zero]
  exact BitVec.zero_and

end Sys2Proof.Proofs
end

section
/-! The statements of 44_encoder.md (R156 to R161). -/

namespace Sys2Proof.Machine

open Sys2Proof.Claims

/-! ## Checks in their order (R210) -/

/-- One check of a command: failed, it raises its error; passed, the rest of the command decides. -/
theorem raises_or_rest {i : Instr} {s : State} {c P : Prop} [Decidable c] {e : Err}
    {r : Except Err State} {code info : Nat}
    (he : exec i s = commit i s (if c then .error e else r)) (hcode : e.code = code)
    (hinfo : e.info = info) (hrest : ¬ c → exec i s = commit i s r → P) :
    if c then Raises i s code info else P := by
  split_ifs with hc
  · rw [if_pos hc] at he
    exact raises_of_commit_error he hcode hinfo
  · rw [if_neg hc] at he
    exact hrest hc he

/-! ## padcount (R158) -/

/-- 8 m is a multiple of k exactly when m is one of `k' = k / gcd(8, k)`. -/
theorem dvd_eight_mul_iff {k : Nat} (hk : 1 ≤ k) (m : Nat) : k ∣ 8 * m ↔ k / Nat.gcd 8 k ∣ m := by
  rw [Nat.div_dvd_iff_dvd_mul (Nat.gcd_dvd_right 8 k) (Nat.gcd_pos_of_pos_right 8 hk), Nat.gcd_comm,
    Nat.dvd_gcd_mul_iff_dvd_mul]

/-- Adding the complement of the remainder completes a multiple. -/
theorem dvd_add_complement {q : Nat} (hq : 0 < q) (m : Nat) : q ∣ m + (q - m % q) % q := by
  have hrem : m % q < q := Nat.mod_lt m hq
  have hsum : m + (q - m % q) = q * (m / q) + q := by
    have := Nat.div_add_mod m q
    omega
  apply Nat.dvd_of_mod_eq_zero
  rw [Nat.add_mod_mod, hsum, Nat.add_mod_right, Nat.mul_mod_right]

/-- Whatever completes a multiple is the complement mod q, so it is no less. -/
theorem complement_le {q m p : Nat} (hq : 0 < q) (hp : q ∣ m + p) : (q - m % q) % q ≤ p := by
  have hmod : m + (q - m % q) % q ≡ m + p [MOD q] :=
    ((dvd_add_complement hq m).modEq_zero_nat).trans hp.modEq_zero_nat.symm
  calc (q - m % q) % q = (q - m % q) % q % q := (Nat.mod_mod _ _).symm
    _ = p % q := Nat.ModEq.add_left_cancel' m hmod
    _ ≤ p := Nat.mod_le p q

/-! ## CONSTRUCT (R156) -/

theorem exec_construct (s : State) : exec .construct s = commit .construct s
    (if s.phase ≠ .idle then .error (seqErr s)
    else if s.conf.k.toNat < 1 ∨ s.conf.k.toNat > 31 then .error (.cfgK s.conf.k.toNat)
    else if s.conf.v.toNat < 1 ∨ s.conf.v.toNat > 32 then .error (.cfgV s.conf.v.toNat)
    else if s.conf.c.toNat < 1 ∨ s.conf.c.toNat > 31 then .error (.cfgC s.conf.c.toNat)
    else if s.conf.l.toNat < 1 then .error (.cfgL s.conf.l.toNat)
    else if s.conf.b.toNat < 1 then .error (.cfgB s.conf.b.toNat)
    else if s.conf.d.toNat < 1 then .error (.cfgD s.conf.d.toNat)
    else .ok { s with ready := true }) := rfl

/-! ## The stages of the Encoder by their entries (R159) -/

section
variable (s : State)

/-- The padded message of ENCODE. -/
def paddedMessage : List Byte := padded (s.ibufBytes s.ilen.toNat) s.conf.k.toNat

/-- Its chunks. -/
def messageChunks : List Nat := divide (paddedMessage s) s.conf.k.toNat

/-- Their spine values. -/
def messageSpines : List Word :=
  spineChain s.params.hash s.conf.v.toNat s.conf.seed (messageChunks s)

/-- The bytes ENCODE stores. -/
def encodedBytes : List Byte :=
  encodeFn s.params.hash (s.ibufBytes s.ilen.toNat) s.conf.k.toNat s.conf.v.toNat s.conf.c.toNat
    s.conf.l.toNat s.conf.seed

theorem encodedBytes_eq_pack : encodedBytes s =
    pack (symbols (messageSpines s) s.conf.c.toNat s.conf.l.toNat) s.conf.c.toNat := rfl

@[simp] theorem paddedMessage_length :
    (paddedMessage s).length = s.ilen.toNat + padcount s.ilen.toNat s.conf.k.toNat := by
  simp [paddedMessage, padded]

@[simp] theorem messageChunks_length : (messageChunks s).length = chunkCount s := by
  simp [messageChunks, chunkCount]

@[simp] theorem messageSpines_length : (messageSpines s).length = chunkCount s := by
  simp [messageSpines]

@[simp] theorem encodedBytes_length :
    (encodedBytes s).length = symbolCount s * s.conf.c.toNat / 8 := by
  simp [encodedBytes_eq_pack, symbolCount]

/-- At and beyond ILEN the padding and the end of the list both read 0. -/
theorem paddedMessage_getD (a : Nat) : (paddedMessage s).getD a 0 = paddedByte s a := by
  rw [paddedMessage, padded, paddedByte]
  split_ifs with ha
  · rw [List.getD_append _ _ _ _ (by simpa using ha), ibufBytes_getD s ha]
  · rw [List.getD_append_right _ _ _ _ (by simpa using ha),
      List.getD_eq_getElem?_getD]
    exact List.getElem?_getD_replicate_default_eq _ _ _

theorem messageChunks_getD {j : Nat} (hj : j < chunkCount s) :
    (messageChunks s).getD j 0 = chunkOf s j := by
  have hlen : j < 8 * (paddedMessage s).length / s.conf.k.toNat := by rwa [paddedMessage_length]
  rw [messageChunks, divide_getD_eq_cutInt hlen, chunkOf]
  simp only [paddedMessage_getD]

theorem messageSpines_getD {j : Nat} (hj : j < chunkCount s) :
    (messageSpines s).getD j 0 = spineOf s j := by
  induction j with
  | zero =>
    rw [messageSpines, spineChain_getD_zero _ _ _ _ (by simpa using hj), messageChunks_getD s hj,
      spineOf]
  | succ j ih =>
    have hprev : (messageSpines s).getD j 0 = spineOf s j := ih (by omega)
    rw [messageSpines] at hprev ⊢
    rw [spineChain_getD_succ _ _ _ _ _ (by simpa using hj), hprev, messageChunks_getD s hj, spineOf]

theorem messageSymbols_getD {t : Nat} (ht : t < symbolCount s) :
    (symbols (messageSpines s) s.conf.c.toNat s.conf.l.toNat).getD t 0 = symbolOf s t := by
  have hpos : 0 < chunkCount s := Nat.pos_of_mul_pos_left (Nat.zero_lt_of_lt ht)
  rw [symbols_getD _ _ _ _ (by rwa [messageSpines_length]), messageSpines_length,
    messageSpines_getD s (Nat.mod_lt t hpos), symbolOf]

theorem encodedBytes_getD_toNat {i : Nat} (hi : i < symbolCount s * s.conf.c.toNat / 8) :
    ((encodedBytes s).getD i 0).toNat = gluedByte (symbolOf s) s.conf.c.toNat i := by
  have hlen : (symbols (messageSpines s) s.conf.c.toNat s.conf.l.toNat).length = symbolCount s := by
    rw [symbols_length, messageSpines_length, symbolCount]
  rw [encodedBytes_eq_pack, pack_getD_toNat (by rwa [hlen])]
  exact gluedByte_congr (fun _ ht => messageSymbols_getD s ht) hi

/-! ## ENCODE (R160) -/

/-- The state ENCODE makes. -/
def encoded : State :=
  { s.putObuf 0 (encodedBytes s) with
    olen := word (symbolCount s * s.conf.c.toNat / 8)
    padcnt := word (padcount s.ilen.toNat s.conf.k.toNat) }

theorem exec_encode : exec .encode s = commit .encode s
    (if s.phase ≠ .idle ∨ s.ready = false then .error (seqErr s)
    else if symbolCount s * s.conf.c.toNat % 8 ≠ 0 then .error (.alignOut (chunkCount s))
    else if symbolCount s > s.params.chunkCap then .error (.capacity 2)
    else if symbolCount s * s.conf.c.toNat / 8 > s.params.bufCap then .error (.capacity 1)
    else .ok (encoded s)) := rfl

/-- The checks of ENCODE in their order, and what it does past them. -/
theorem encode_checks :
    if s.phase ≠ .idle ∨ s.ready = false then Raises .encode s 0x05 (statusNat s)
    else if symbolCount s * s.conf.c.toNat % 8 ≠ 0 then Raises .encode s 0x21 (chunkCount s)
    else if symbolCount s > s.params.chunkCap then Raises .encode s 0x30 2
    else if symbolCount s * s.conf.c.toNat / 8 > s.params.bufCap then Raises .encode s 0x30 1
    else exec .encode s = .next (encoded s) := by
  refine raises_or_rest (exec_encode s) rfl (seqErr_info s) fun _ he => ?_
  refine raises_or_rest he rfl rfl fun _ he => ?_
  refine raises_or_rest he rfl rfl fun _ he => ?_
  exact raises_or_rest he rfl rfl fun _ he => he

theorem encoded_obufByte {i : Nat} (hi : i < symbolCount s * s.conf.c.toNat / 8) :
    (encoded s).obufByte i = (encodedBytes s).getD i 0 := by
  show (s.putObuf 0 _).obufByte i = _
  rw [obufByte_putObuf, if_pos (by simpa using hi), Nat.sub_zero]

theorem sameOutside_encoded :
    SameOutside (fun sp a => sp = .obuf ∧ a < symbolCount s * s.conf.c.toNat / 8) s (encoded s) := by
  refine ((sameOutside_putObuf s 0 _).congr rfl rfl).mono fun sp a ⟨hsp, _, ha⟩ => ⟨hsp, ?_⟩
  simpa using ha

end

section
variable {s : State} (h : EncodeAdmits s)
include h

theorem exec_encode_of_admits : exec .encode s = .next (encoded s) := by
  have hchecks := encode_checks s
  rwa [if_neg (by simp [h.idle, h.ready]), if_neg (not_not.2 h.aligned),
    if_neg h.symbols_fit.not_gt, if_neg h.bytes_fit.not_gt] at hchecks

theorem encoded_olen_toNat :
    (encoded s).olen.toNat = symbolCount s * s.conf.c.toNat / 8 := by
  obtain ⟨-, hbuf, -⟩ := h.legal
  have hfit := h.bytes_fit
  exact word_toNat (by omega)

theorem encoded_padcnt_toNat :
    (encoded s).padcnt.toNat = padcount s.ilen.toNat s.conf.k.toNat := by
  obtain ⟨hk, hk', -⟩ := h.conf
  have hpad : padcount s.ilen.toNat s.conf.k.toNat ≤ 30 := padcount_le hk hk'
  exact word_toNat (by omega)

end

theorem ibufBytes_congr {s s' : State} {n : Nat} (h : ∀ a, a < n → s.ibufByte a = s'.ibufByte a) :
    s.ibufBytes n = s'.ibufBytes n :=
  List.map_congr_left fun a ha => h a (List.mem_range.1 ha)

end Sys2Proof.Machine

namespace Sys2Proof.Proofs

open Sys2Proof Sys2Proof.Machine Sys2Proof.Claims

/-- Settles O41: aligning the bit length is completing a multiple of k' = k / gcd(8, k), and the closed
form of padcount is the complement mod k'. -/
theorem padcountIsTheLeastThatAligns : Obligations.PadcountIsTheLeastThatAligns := by
  intro mlen k hk hk'
  have hq : 0 < k / Nat.gcd 8 k :=
    Nat.div_pos (Nat.gcd_le_right 8 hk) (Nat.gcd_pos_of_pos_right 8 hk)
  have haligns (p : Nat) : 8 * (mlen + p) % k = 0 ↔ k / Nat.gcd 8 k ∣ mlen + p :=
    (Nat.dvd_iff_mod_eq_zero ..).symm.trans (dvd_eight_mul_iff hk _)
  exact ⟨(haligns _).2 (dvd_add_complement hq mlen),
    fun p hp => complement_le hq ((haligns p).1 hp), padcount_le hk hk'⟩

/-- Settles O42: past its checks ENCODE makes `encoded s`, whose bytes are followed stage by stage. -/
theorem encodeWritesThePackedSymbolStream : Obligations.EncodeWritesThePackedSymbolStream := by
  intro s h
  refine ⟨encoded s, exec_encode_of_admits h, encoded_olen_toNat h, encoded_padcnt_toNat h,
    fun i hi => ?_, sameOutside_encoded s, rfl⟩
  rw [encoded_obufByte s hi, encodedBytes_getD_toNat s hi]

/-- Settles O44: both runs apply one `encodeFn` to one message and one configuration. -/
theorem encodeDependsOnlyOnMessageAndConfiguration :
    Obligations.EncodeDependsOnlyOnMessageAndConfiguration := by
  intro s s' t t' h h' hk hv hc hl hseed hhash hilen hmsg ht ht'
  obtain rfl := Host.Outcome.next.inj ((exec_encode_of_admits h).symm.trans ht)
  obtain rfl := Host.Outcome.next.inj ((exec_encode_of_admits h').symm.trans ht')
  have hbytes : encodedBytes s = encodedBytes s' := by
    rw [encodedBytes, encodedBytes, ibufBytes_congr hmsg, hk, hv, hc, hl, hseed, hhash, hilen]
  have hlen : symbolCount s * s.conf.c.toNat / 8 = symbolCount s' * s'.conf.c.toNat / 8 := by
    rw [← encodedBytes_length s, hbytes, encodedBytes_length s']
  refine ⟨congrArg word hlen, congrArg word (by rw [hilen, hk]), fun a ha => ?_⟩
  rw [encoded_olen_toNat h] at ha
  rw [encoded_obufByte s ha, encoded_obufByte s' (hlen ▸ ha), hbytes]

/-- Settles O40, by the checks in their order: the first that fails raises. -/
theorem constructChecksTheConfiguration : Obligations.ConstructChecksTheConfiguration := by
  intro s
  refine raises_or_rest (exec_construct s) rfl (seqErr_info s) fun _ he => ?_
  refine raises_or_rest he rfl rfl fun _ he => ?_
  refine raises_or_rest he rfl rfl fun _ he => ?_
  refine raises_or_rest he rfl rfl fun _ he => ?_
  refine raises_or_rest he rfl rfl fun _ he => ?_
  refine raises_or_rest he rfl rfl fun _ he => ?_
  refine raises_or_rest he rfl rfl fun _ he => ?_
  exact ⟨he, memRead_congr rfl rfl⟩

/-- Settles O43: each clause selects one branch of the checks in their order. -/
theorem encodeRaisesInOrder : Obligations.EncodeRaisesInOrder := by
  intro s
  have hchecks := encode_checks s
  have hseq' (hidle : s.phase = .idle) (hready : s.ready = true) :
      ¬ (s.phase ≠ .idle ∨ s.ready = false) := by simp [hidle, hready]
  refine ⟨fun hseq => ?_, fun hidle hready halign => ?_, fun hidle hready halign hcap => ?_,
    fun hidle hready halign hcap hbuf => ?_⟩
  · rwa [if_pos hseq] at hchecks
  · rwa [if_neg (hseq' hidle hready), if_pos halign] at hchecks
  · rwa [if_neg (hseq' hidle hready), if_neg (not_not.2 halign), if_pos hcap] at hchecks
  · rwa [if_neg (hseq' hidle hready), if_neg (not_not.2 halign), if_neg hcap.not_gt,
      if_pos hbuf] at hchecks

end Sys2Proof.Proofs
end

section
/-! The checks of the session commands in their order, and what expand makes (45_decoder.md R173, R180,
R181, R185, R186). -/

namespace Sys2Proof.Machine

open Sys2Proof.Claims

variable {s t : State}

/-! ## The checks in their order (R180, R181, R185, R186) -/

theorem exec_decInit (s : State) : exec .decInit s = commit .decInit s
    (if s.phase ≠ .idle ∨ s.ready = false then .error (seqErr s)
    else if 8 * s.ilen.toNat % s.conf.c.toNat ≠ 0 then .error (.alignIn s.ilen.toNat)
    else if received s % s.conf.l.toNat ≠ 0 then .error (.alignIn s.ilen.toNat)
    else if received s > s.params.chunkCap then .error (.capacity 2)
    else if 2 * s.conf.d.toNat > streamChunks s + 1 then .error (.cfgDRange (streamChunks s))
    else if streamChunks s * s.conf.k.toNat % 8 ≠ 0 then .error (.alignOut (streamChunks s))
    else if streamChunks s * s.conf.k.toNat / 8 > s.params.bufCap then .error (.capacity 1)
    else if received s * (2 ^ s.conf.c.toNat - 1) ^ 2 ≥ 2 ^ 64 then .error (.capacity 5)
    else if 1 + subtreeSize s.conf.k.toNat s.conf.d.toNat > s.params.arenaCap then .error (.capacity 3)
    else .ok (openSession s (received s) (streamChunks s) (streamSteps s))) := rfl

theorem exec_decStep (s : State) : exec .decStep s = commit .decStep s
    (if s.phase ≠ .dec then .error (seqErr s)
    else if s.sess.nsteps.toNat ≤ s.sess.step.toNat + 1 then .error (seqErr s)
    else if s.sess.arenalen.toNat +
        s.sess.beamlen.toNat * 2 ^ (s.conf.k.toNat * (s.conf.d.toNat + 1)) > s.params.arenaCap then
      .error (.capacity 3)
    else if s.sess.beamlen.toNat * 2 ^ s.conf.k.toNat > s.params.candCap then .error (.capacity 4)
    else if min s.conf.b.toNat (s.sess.beamlen.toNat * 2 ^ s.conf.k.toNat) > s.params.beamCap then
      .error (.capacity 4)
    else .ok (prune (scoreBeam s (beamHandles s)).1 (scoreBeam s (beamHandles s)).2)) := rfl

theorem exec_decTerm (s : State) : exec .decTerm s = commit .decTerm s
    (if s.phase ≠ .dec then .error (seqErr s)
    else if s.sess.step.toNat + 1 ≠ s.sess.nsteps.toNat then .error (seqErr s)
    else .ok (terminated s)) := rfl

theorem exec_decAbort (s : State) : exec .decAbort s = commit .decAbort s
    (if s.phase ≠ .dec then .error (seqErr s) else .ok (closeSession s)) := rfl

theorem openSession_phase (s : State) (ntot nch n : Nat) : (openSession s ntot nch n).phase = .dec :=
  rfl

theorem prune_phase (s : State) (cands : List (Nat × Nat)) : (prune s cands).phase = s.phase := rfl

end Sys2Proof.Machine

namespace Sys2Proof.Proofs

open Sys2Proof Sys2Proof.Machine Sys2Proof.Claims

/-- Settles O48, by the checks in their order: the first that fails raises. -/
theorem decInitRaisesInOrder : Obligations.DecInitRaisesInOrder := by
  intro s
  refine raises_or_rest (exec_decInit s) rfl (seqErr_info s) fun _ he => ?_
  refine raises_or_rest he rfl rfl fun _ he => ?_
  refine raises_or_rest he rfl rfl fun _ he => ?_
  refine raises_or_rest he rfl rfl fun _ he => ?_
  refine raises_or_rest he rfl rfl fun _ he => ?_
  refine raises_or_rest he rfl rfl fun _ he => ?_
  refine raises_or_rest he rfl rfl fun _ he => ?_
  refine raises_or_rest he rfl rfl fun _ he => ?_
  refine raises_or_rest he rfl rfl fun _ he => ?_
  exact ⟨_, he, openSession_phase _ _ _ _⟩

/-- Settles O50, by the checks in their order; EXPAND, SCORE and PRUNE leave PHASE alone. -/
theorem decStepRaisesInOrder : Obligations.DecStepRaisesInOrder := by
  intro s b
  refine raises_or_rest (exec_decStep s) rfl (seqErr_info s) fun hdec he => ?_
  refine raises_or_rest he rfl (seqErr_info s) fun _ he => ?_
  refine raises_or_rest he rfl rfl fun _ he => ?_
  refine raises_or_rest he rfl rfl fun _ he => ?_
  refine raises_or_rest he rfl rfl fun _ he => ?_
  refine ⟨_, he, ?_⟩
  rw [prune_phase, (scoreBeam_onlyTree s _).phase]
  exact not_not.1 hdec

/-- Settles O55. -/
theorem decAbortClosesTheSession : Obligations.DecAbortClosesTheSession := fun s =>
  raises_or_rest (exec_decAbort s) rfl (seqErr_info s) fun _ he =>
    ⟨_, he, rfl, rfl, memRead_congr rfl rfl, rfl⟩

/-- Settles O46: what `expand_node` says of each handle, the numbers small enough for their cells. -/
theorem expandMakesEveryChild : Obligations.ExpandMakesEveryChild := by
  intro s f hlegal hf hfit hdepth t base
  obtain ⟨-, -, -, -, -, hcap, -⟩ := hlegal
  have hnode : ∀ h, t.node h = _ := expand_node s hf
  have hchild : ∀ m, m < fanout s → t.node (base + m) = childNode s f m := fun m hm => by
    rw [hnode, if_neg (by omega), if_pos (by omega), Nat.add_sub_cancel_left]
  refine ⟨?_, ?_, fun h hh hne => ?_, fun h hh => ?_, fun m hm => ?_⟩
  · exact word_toNat (show base + fanout s < 2 ^ 32 by omega)
  · rw [hnode, if_pos rfl]
  · rw [hnode, if_neg hne, if_neg (by omega)]
  · rw [hnode, if_neg (by omega), if_neg (by omega)]
  · rw [hchild m hm]
    refine ⟨word_toNat (by omega), rfl, ?_, word_toNat (by omega), rfl, word_toNat hdepth⟩
    simp only [childNode, BitVec.toNat_add, BitVec.toNat_ofNat, Nat.add_mod_mod]

end Sys2Proof.Proofs
end

section
/-! DEC.INIT: the session it opens and the tree it grows (45_decoder.md R174, R180). -/

namespace Sys2Proof.Machine

open Sys2Proof.Claims

variable {s t : State}

/-! ## The session CSRs and RX (R180) -/

/-- Past its checks DEC.INIT opens the session. -/
theorem exec_decInit_of_admits (h : InitAdmits s) :
    ∃ t, exec .decInit s = .next t ∧ DidInit s t := by
  have he := exec_decInit s
  rw [if_neg (by simp [h.idle, h.ready]), if_neg (not_not.2 h.symbols_whole),
    if_neg (not_not.2 h.passes_whole), if_neg h.symbols_fit.not_gt, if_neg h.depth_reached.not_gt,
    if_neg (not_not.2 h.aligned), if_neg h.bytes_fit.not_gt, if_neg h.cost_fits.not_ge,
    if_neg h.nodes_fit.not_gt] at he
  exact ⟨_, he, h.idle, h.ready, h.symbols_whole, h.passes_whole, h.symbols_fit, h.depth_reached,
    h.aligned, h.bytes_fit, h.cost_fits, h.nodes_fit, rfl⟩

section
variable (h : InitAdmits s) (hi : DidInit s t)
include h hi

/-- The counts of the session that DEC.INIT opens from any state that admits it. -/
theorem DidInit.counts_of_admits :
    t.sess.rxlen.toNat = received s ∧ t.sess.nchunk.toNat = streamChunks s ∧
    t.sess.nsteps.toNat = streamSteps s ∧ t.sess.step = 0 ∧ t.sess.beamlen = 1 ∧
    t.sess.arenalen.toNat = 1 + subtreeSize s.conf.k.toNat s.conf.d.toNat := by
  obtain ⟨-, -, -, hchunk, -, harena, -⟩ := h.legal
  obtain ⟨-, -, -, -, -, -, -, -, hd⟩ := h.conf
  have hsym := h.symbols_fit
  have hnodes := h.nodes_fit
  have hle : streamChunks s ≤ received s := Nat.div_le_self _ _
  have hsteps : streamSteps s ≤ streamChunks s ∨ streamChunks s = 0 ∧ streamSteps s = 1 := by
    unfold streamSteps; omega
  rw [hi.sess]
  exact ⟨word_toNat (by omega), word_toNat (by omega), word_toNat (by omega), rfl, rfl,
    word_toNat (by omega)⟩

theorem DidInit.rxWord_toNat {j : Nat} (hj : j < received s) :
    (t.rxWord j).toNat = cutInt s.ibufByte s.conf.c.toNat j := by
  obtain ⟨-, -, -, -, -, hc, -⟩ := h.conf
  have hrx : t.rxWord = (s.putRx 0 ((divide (s.ibufBytes s.ilen.toNat) s.conf.c.toNat).map word)).rxWord := by
    funext a
    unfold State.rxWord
    rw [hi.mem, hi.sessionOnly]
    rfl
  rw [hrx, rxWord_putRx, if_pos (by simpa [received] using hj)]
  exact dividedWord_toNat s (by omega) hj

end

/-! ## The tree (R174) -/

theorem OnlyBeam.node (e : OnlyBeam s t) : t.node = s.node := node_congr (by rw [e]) (by rw [e])

theorem OnlyBeam.frontier (e : OnlyBeam s t) : frontier t = Machine.frontier s := by
  funext f j
  exact frontier_congr (by unfold fanout; rw [e]) fun _ _ _ _ => by rw [e.node]

theorem DidInit.onlyBeam (hi : DidInit s t) : OnlyBeam (grown s) t := by
  rw [hi.eq_grown]
  generalize grown s = u
  rfl

theorem planted_fanout (s : State) : fanout (planted s) = fanout s := rfl

theorem planted_node_of_pos (s : State) {f : Nat} (hf : 0 < f) : (planted s).node f = s.node f :=
  congrArg (Option.getD · _) (cellAt?_putCells_out s.mem.arena 0 [rootNode s.conf.seed] (.inr hf))

/-- The nodes growing starts from are expanded with the first level and stay as that leaves them. -/
theorem growLevels_top_node {d f : Nat} {fs : List Nat} (h : Complete s fs 0)
    (hfit : s.sess.arenalen.toNat + fs.length * subtreeSize s.conf.k.toNat (d + 1) < 2 ^ 32)
    (hf : f ∈ fs) : (growLevels (d + 1) s fs).1.node f = (expandAll s fs).1.node f := by
  have hlen : fs.length * subtreeSize s.conf.k.toNat (d + 1) =
      fs.length * fanout s + fs.length * fanout s * subtreeSize s.conf.k.toNat d := by
    rw [subtreeSize_succ, fanout]; ring
  have hfit1 : s.sess.arenalen.toNat + fs.length * fanout s < 2 ^ 32 := by omega
  have hlt : f < s.sess.arenalen.toNat := h.lt f hf 0 le_rfl f (List.mem_singleton_self f)
  obtain ⟨hleaves, hnew⟩ := expandAll_leaves h hfit1
  have hlen1 : (expandAll s fs).1.sess.arenalen.toNat = s.sess.arenalen.toNat + fs.length * fanout s := by
    rw [expandAll_arenalen, word_toNat hfit1]
  refine (growLevels_complete hleaves ?_).2 f (fun hm => ?_) (.inl ?_)
  · rw [hlen1, expandAll_length, (expandAll_onlyTree s fs).conf]
    omega
  · have := hnew f hm
    omega
  · omega

section
variable (h : InitAdmits s)
include h

/-- The tree DEC.INIT grows has room for its nodes. -/
theorem planted_fits : (planted s).sess.arenalen.toNat +
    [0].length * subtreeSize (planted s).conf.k.toNat s.conf.d.toNat < 2 ^ 32 := by
  obtain ⟨-, -, -, -, -, hcap, -⟩ := h.legal
  have hnodes := h.nodes_fit
  show 1 + 1 * subtreeSize s.conf.k.toNat s.conf.d.toNat < 2 ^ 32
  omega

/-- The root of the grown tree: its children stand at 1 (R174). -/
theorem grown_root : (grown s).node 0 =
    { msg := 0, spine := s.conf.seed, cost := 0, parent := 0xFFFFFFFF, cbase := 1, depth := 0 } := by
  obtain ⟨-, -, -, -, -, -, -, -, hd⟩ := h.conf
  have hfit := planted_fits h
  have hsucc : s.conf.d.toNat = s.conf.d.toNat - 1 + 1 := (Nat.sub_add_cancel hd).symm
  unfold grown
  rw [hsucc] at hfit ⊢
  rw [growLevels_top_node (complete_planted s) hfit (List.mem_singleton_self 0)]
  show (expand (planted s) 0).node 0 = _
  rw [expand_node _ Nat.zero_lt_one, if_pos rfl, planted_node_zero]
  rfl

/-- The depth-(j+1) nodes of the grown tree are one run of handles (R174). -/
theorem grown_frontier {j : Nat} (hj : j < s.conf.d.toNat) :
    frontier (grown s) 0 (j + 1) = (List.range (2 ^ (s.conf.k.toNat * (j + 1)))).map
      fun i => 1 + subtreeSize s.conf.k.toNat j + i := by
  have hrun := growLevels_handles (complete_planted s) hj (planted_fits h)
  rw [planted_fanout, fanout_pow] at hrun
  simpa [frontiers, planted, grown] using hrun

/-- Growing leaves every node beyond the grown tree. -/
theorem grown_node_beyond {f : Nat}
    (hf : 1 + subtreeSize s.conf.k.toNat s.conf.d.toNat ≤ f) : (grown s).node f = s.node f := by
  have hstay := (growLevels_complete (complete_planted s) (planted_fits h)).2 f
    (by simp; omega) (.inr (by simpa [planted] using hf))
  exact hstay.trans (planted_node_of_pos s (by omega))

theorem DidInit.sameOutside (hi : DidInit s t) :
    SameOutside (fun sp a => (sp = .rx ∧ a < received s) ∨ (sp = .beam ∧ a = 0) ∨
      (sp = .arena ∧ a < 8 * (1 + subtreeSize s.conf.k.toNat s.conf.d.toNat))) s t := by
  have hlaunch : t.launch = s.launch := by rw [hi.sessionOnly]
  intro sp a hout
  cases sp with
  | ibuf => simp only [memRead, State.ibufByte, hi.mem, hlaunch]
  | obuf => simp only [memRead, State.obufByte, hi.mem, hlaunch]
  | chunk => simp only [memRead, State.chunkWord, hi.mem, hlaunch]
  | rx =>
    have ha : received s ≤ a := by simpa using hout
    simp only [memRead, State.rxWord, hi.mem, hlaunch]
    rw [cellAt?_putCells_out _ _ _ (.inr (by simpa [received] using ha))]
  | arena =>
    have ha : 8 * (1 + subtreeSize s.conf.k.toNat s.conf.d.toNat) ≤ a := by simpa using hout
    simp only [memRead, State.arenaWord, hi.onlyBeam.node, Config.nodeWords]
    rw [grown_node_beyond h (by omega)]
  | beam =>
    have ha : a ≠ 0 := by simpa using hout
    simp only [memRead, State.beamWord, hi.mem, hlaunch]
    rw [cellAt?_putCells_out _ _ _ (.inr (Nat.pos_of_ne_zero ha))]

end

theorem DidInit.beamWord_zero (hi : DidInit s t) : t.beamWord 0 = 0 := by
  have hcell := cellAt?_putCells_in s.mem.beam 0 [(0 : Word)] Nat.zero_lt_one
  unfold State.beamWord
  rw [hi.mem]
  exact congrArg (Option.getD · _) hcell

end Sys2Proof.Machine

namespace Sys2Proof.Proofs

open Sys2Proof Sys2Proof.Machine Sys2Proof.Claims

/-- Settles O47: DEC.INIT makes the root the beam of the tree `grown s`. -/
theorem decInitOpensTheSession : Obligations.DecInitOpensTheSession := by
  intro s h
  obtain ⟨t, he, hi⟩ := exec_decInit_of_admits h
  obtain ⟨hrx, hchunks, hsteps, hstep, hbeam, harena⟩ := hi.counts_of_admits h
  refine ⟨t, he, hi.phase, hrx, hchunks, hsteps, hstep, hbeam, harena,
    fun j hj => hi.rxWord_toNat h hj, fun j hj => ?_, hi.beamWord_zero, ?_, hi.sameOutside h,
    hi.sessionOnly⟩
  · rw [hi.onlyBeam.frontier, grown_frontier h hj]
  · rw [hi.onlyBeam.node, grown_root h]

end Sys2Proof.Proofs
end

section
/-! DEC.STEP and DEC.TERM, one command of a session at a time (45_decoder.md R181 to R185). -/

namespace Sys2Proof.Machine

open Sys2Proof.Claims Sys2Proof.Proofs

variable {s t : State}

/-! ## DEC.STEP (R181) -/

/-- Past its checks DEC.STEP takes its effect. -/
theorem exec_decStep_of_admits (h : StepAdmits s) :
    ∃ t, exec .decStep s = .next t ∧ DidStep s t := by
  have he := exec_decStep s
  rw [if_neg (not_not.2 h.dec), if_neg h.steps_left.not_ge, if_neg h.nodes_fit.not_gt,
    if_neg h.cands_fit.not_gt, if_neg h.beam_fits.not_gt] at he
  exact ⟨_, he, h.dec, h.steps_left, h.nodes_fit, h.cands_fit, h.beam_fits, rfl⟩

theorem DidStep.sameOutside (hlegal : s.params.Legal) (hd : DidStep s t) :
    SameOutside (fun sp a => sp = .arena ∨ (sp = .beam ∧ a < t.sess.beamlen.toNat)) s t := by
  intro sp a hout
  cases sp with
  | ibuf | obuf | chunk | rx => rw [hd.eq_update]; rfl
  | arena => exact absurd (.inl rfl) hout
  | beam =>
    have ha : t.sess.beamlen.toNat ≤ a := by simpa using hout
    rw [hd.beamlen hlegal] at ha
    have hlaunch : t.launch = s.launch := by rw [hd.eq_update]
    simp only [memRead, State.beamWord, hd.beam_eq, hlaunch]
    rw [cellAt?_putCells_out _ _ _ (.inr (by simpa using ha))]

/-! ## Scores (R183) -/

/-- The least of a list of costs is its minimum, 0 for no cost. -/
theorem minCost_eq_min? (s : State) (xs : List Nat) :
    minCost s xs = ((xs.map fun x => (s.node x).cost.toNat).min?).getD 0 := by
  cases xs with
  | nil => rfl
  | cons x xs => rw [List.map_cons, List.min?_cons', Option.getD_some, List.foldl_map, minCost]

/-- The score of a candidate is the least cost of its leaves in the grown tree. -/
theorem scoreOf_eq_minCost (s : State) (c : Nat) :
    scoreOf s c = minCost s (frontier s c s.conf.d.toNat) := (minCost_eq_min? s _).symm

theorem scoreOf_congr (hconf : t.conf = s.conf) (hnode : t.node = s.node)
    (hfrontier : frontier t = frontier s) (c : Nat) : scoreOf t c = scoreOf s c := by
  unfold scoreOf
  rw [hconf, hnode, hfrontier]

section
variable (h : WholeInvariant s) (hd : DidStep s t)
include h hd

theorem DidStep.onlyBeam : OnlyBeam (expanded s) t := by
  rw [← (hd.scoreBeam_eq h).1, hd.eq]
  exact prune_onlyBeam _ _

/-- The candidates in the order of their discovery, each with its score. -/
theorem DidStep.candidates_scored :
    (scoreBeam s (beamHandles s)).2 = (candidates s).map fun c => (c, scoreOf t c) := by
  have honly := hd.onlyBeam h
  have hconf : (expanded s).conf = s.conf := (expandAll_onlyTree s _).conf
  have hscore := scoreChildren_eq rfl (hd.grown_candidates h)
  rw [Machine.scoreBeam_eq rfl (hd.grown_beam h)]
  change (scoreChildren s (candidates s)).2 = _
  rw [hscore]
  refine List.map_congr_left fun c _ => ?_
  rw [scoreOf_congr (by rw [honly]) honly.node honly.frontier, scoreOf_eq_minCost, hconf,
    ← hd.depth_pos h]
  rfl

/-- The kept handles are the first of the candidates in the stable order of their scores (R184). -/
theorem DidStep.kept_eq :
    kept s = ((stableSortByScore ((candidates s).map fun c => (c, scoreOf t c))).take
      (min s.conf.b.toNat (s.sess.beamlen.toNat * fanout s))).map Prod.fst := by
  rw [kept, scoreBeam_length, beamHandles_length, hd.candidates_scored h]

/-- The expanded nodes get their children at consecutive handles, in the order of the expansion. -/
theorem DidStep.cbases :
    ((frontiers s (candidates s) (s.conf.d.toNat - 1)).map fun f => (t.node f).cbase.toNat) =
      (List.range (s.sess.beamlen.toNat * 2 ^ (s.conf.k.toNat * s.conf.d.toNat))).map
        fun i => s.sess.arenalen.toNat + i * fanout s := by
  have hgrown := hd.grown_candidates h
  have hlen : (frontiers s (candidates s) (s.conf.d.toNat - 1)).length =
      s.sess.beamlen.toNat * 2 ^ (s.conf.k.toNat * s.conf.d.toNat) := by
    rw [candidates, frontiers_children, hd.depth_pos h, frontiers_length, beamHandles_length, fanout_pow]
  rw [(hd.onlyBeam h).node, ← hlen]
  exact expandAll_cbases s _ hgrown.frontiers_lt hgrown.nodup hgrown.fits

/-- A node that was there changes at most in CBASE, and only if it was a leaf (R45 item 4). -/
theorem DidStep.node_old {f : Nat} (hf : f < s.sess.arenalen.toNat) :
    t.node f = { s.node f with cbase := (t.node f).cbase } ∧
      ((s.node f).cbase ≠ Config.noneHandle → t.node f = s.node f) := by
  have hgrown := hd.grown_candidates h
  rw [(hd.onlyBeam h).node]
  refine ⟨?_, hgrown.inner_node hf⟩
  obtain ⟨-, hstays, hmade⟩ := hgrown.spec
  by_cases hm : f ∈ frontiers s (candidates s) (s.conf.d.toNat - 1)
  · obtain ⟨base, -, -, hnode, -⟩ := hmade f hm
    rw [expanded, hnode]
  · rw [expanded, hstays f hm (.inl hf)]

end

/-! ## DEC.TERM (R185) -/

theorem terminated_bcost (s : State) :
    (terminated s).bcost = (s.node (bestLeaf s (beamLeaves s))).cost := rfl

theorem terminated_olen_toNat (hlegal : s.params.Legal)
    (hfit : s.sess.nchunk.toNat * s.conf.k.toNat / 8 ≤ s.params.bufCap) :
    (terminated s).olen.toNat = s.sess.nchunk.toNat * s.conf.k.toNat / 8 := by
  obtain ⟨-, hbuf, -⟩ := hlegal
  exact word_toNat (by omega)

/-- The bytes DEC.TERM stores are the packed path of the best leaf. -/
theorem terminated_obufByte (s : State) {a : Nat}
    (ha : a < (pathChunks s (bestLeaf s (beamLeaves s))).length * s.conf.k.toNat / 8) :
    (terminated s).obufByte a =
      (pack (pathChunks s (bestLeaf s (beamLeaves s))) s.conf.k.toNat).getD a 0 := by
  show (s.putObuf 0 _).obufByte a = _
  rw [obufByte_putObuf, if_pos (by simpa using ha), Nat.sub_zero]

/-- The path has at most N chunks, so its bytes lie below the new OLEN. -/
theorem sameOutside_terminated (hlegal : s.params.Legal)
    (hfit : s.sess.nchunk.toNat * s.conf.k.toNat / 8 ≤ s.params.bufCap) :
    SameOutside (fun sp a => sp = .obuf ∧ a < (terminated s).olen.toNat) s (terminated s) := by
  refine ((sameOutside_putObuf s 0 _).congr (u := terminated s) rfl rfl).mono
    fun sp a ⟨hsp, _, ha⟩ => ⟨hsp, ?_⟩
  rw [Nat.zero_add, pack_length] at ha
  rw [terminated_olen_toNat hlegal hfit]
  exact ha.trans_le (Nat.div_le_div_right (Nat.mul_le_mul_right _ (pathChunks_length s _)))

end Sys2Proof.Machine

namespace Sys2Proof.Proofs

open Sys2Proof Sys2Proof.Machine Sys2Proof.Claims

/-- Settles O49, in every state that DEC.STEP executes in, with or without the invariants. -/
theorem decStepAdvancesTheSession : Obligations.DecStepAdvancesTheSession := by
  intro s h hdepth
  obtain ⟨t, he, hd⟩ := exec_decStep_of_admits h
  refine ⟨t, he, hd.step_toNat, (hd.beamlen h.legal).trans (kept_length s),
    hd.arenalen h.legal hdepth, hd.sameOutside h.legal, hd.sessionOnly, hd.phase, ?_⟩
  rw [hd.eq_update]

/-- Settles O51: the tree grown by the step is `expanded s`, and its beam is `kept s`. -/
theorem decStepKeepsTheBestCandidates : Obligations.DecStepKeepsTheBestCandidates := by
  intro s hadmits h
  obtain ⟨t, he, hd⟩ := exec_decStep_of_admits hadmits
  exact ⟨t, he, (hd.beamHandles_eq h).trans (hd.kept_eq h), hd.cbases h, fun f hf => hd.node_old h hf⟩

/-- Settles O52, by the checks in their order; past them the best leaf stands first among the leaves of
least cost. -/
theorem decTermWritesTheBestPath : Obligations.DecTermWritesTheBestPath := by
  intro s
  refine raises_or_rest (exec_decTerm s) rfl (seqErr_info s) fun _ he => ?_
  refine raises_or_rest he rfl (seqErr_info s) fun _ he hlegal hbeam hfit => ?_
  obtain ⟨before, after, hsplit, hbefore, hafter⟩ := bestLeaf_spec s (beamLeaves_ne_nil hbeam)
  refine ⟨terminated s, before, after, _, he, hsplit, hbefore, hafter, terminated_bcost s,
    fun a ha => ?_, terminated_olen_toNat hlegal hfit, rfl, rfl, sameOutside_terminated hlegal hfit, rfl⟩
  rw [terminated_obufByte s ha, pack_getD_toNat ha]

end Sys2Proof.Proofs
end

section
/-! The path of a leaf and its cost: what DEC.TERM decodes, and what encoding it again gives
(45_decoder.md R170, R173, R185 (b), R189 (b)). -/

namespace Sys2Proof.Machine

open Sys2Proof.Claims

variable {s : State}

/-! ## Paths -/

/-- The n chunks that lead from the root to a node of depth n, in chronological order. -/
def pathTo (s : State) (n f : Nat) : List Nat := (backtrack s n f).reverse

/-- The spine values the Encoder derives from them. -/
def spinesTo (s : State) (n f : Nat) : List Word :=
  spineChain s.params.hash s.conf.v.toNat s.conf.seed (pathTo s n f)

theorem pathChunks_eq_pathTo (s : State) (f : Nat) :
    pathChunks s f = pathTo s s.sess.nchunk.toNat f := rfl

/-- Induction along the path from the root, for a property of a depth and a node of that depth. -/
theorem TreeCore.depth_induction (h : TreeCore s) {P : Nat → Nat → Prop} (root : P 0 0)
    (child : ∀ n f, 0 < f → f < s.sess.arenalen.toNat → ChildOfParent s f →
      (s.node (s.node f).parent.toNat).depth.toNat = n → P n (s.node f).parent.toNat → P (n + 1) f)
    (n f : Nat) (hf : f < s.sess.arenalen.toNat) (hd : (s.node f).depth.toNat = n) : P n f := by
  induction n generalizing f with
  | zero =>
    rcases Nat.eq_zero_or_pos f with rfl | h0
    · exact root
    · obtain ⟨-, -, -, -, hdepth, -⟩ := h.child f h0 hf
      omega
  | succ n ih =>
    rcases Nat.eq_zero_or_pos f with rfl | h0
    · simp [h.root_depth] at hd
    · have hchild := h.child f h0 hf
      obtain ⟨hlt, -, -, -, hdepth, -⟩ := h.child f h0 hf
      have hparent : (s.node (s.node f).parent.toNat).depth.toNat = n := by omega
      exact child n f h0 hf hchild hparent (ih _ (hlt.trans hf) hparent)

/-- The path of a node is its parent's with the node's own chunk at the end. -/
theorem pathTo_succ {n f : Nat} (hp : (s.node f).parent ≠ Config.noneHandle) :
    pathTo s (n + 1) f = pathTo s n (s.node f).parent.toNat ++ [(s.node f).msg.toNat] := by
  rw [pathTo, backtrack, if_neg hp, List.reverse_cons]
  rfl

section
variable (h : TreeCore s)
include h

theorem TreeCore.parent_ne_none {f : Nat} (hf : f < s.sess.arenalen.toNat) (hc : ChildOfParent s f) :
    (s.node f).parent ≠ Config.noneHandle := by
  obtain ⟨hlt, -⟩ := hc
  have hcap := h.cap
  have hcap' := h.arenaCap_lt
  intro hnone
  rw [hnone, noneHandle_toNat] at hlt
  omega

variable {n f : Nat} (hf : f < s.sess.arenalen.toNat) (hd : (s.node f).depth.toNat = n)
include hf hd

theorem TreeCore.pathTo_length : (pathTo s n f).length = n := by
  refine h.depth_induction (P := fun n f => (pathTo s n f).length = n) rfl ?_ n f hf hd
  intro n f _ hf hc _ ih
  rw [pathTo_succ (h.parent_ne_none hf hc), List.length_append, ih, List.length_singleton]

theorem TreeCore.pathTo_lt : ∀ m ∈ pathTo s n f, m < fanout s := by
  refine h.depth_induction (P := fun n f => ∀ m ∈ pathTo s n f, m < fanout s) ?_ ?_ n f hf hd
  · intro m hm
    cases hm
  · intro n f _ hf hc _ ih m hm
    rw [pathTo_succ (h.parent_ne_none hf hc), List.mem_append, List.mem_singleton] at hm
    rcases hm with hm | rfl
    · exact ih m hm
    · obtain ⟨-, hbase, htop, hmsg, -⟩ := hc
      omega

/-- The last spine value of the path is the node's own (R173). -/
theorem TreeCore.spinesTo_last : (spinesTo s n f).getLastD s.conf.seed = (s.node f).spine := by
  refine h.depth_induction
    (P := fun n f => (spinesTo s n f).getLastD s.conf.seed = (s.node f).spine) ?_ ?_ n f hf hd
  · exact h.root_spine.symm
  · intro n f _ hf hc _ ih
    have hparent := h.parent_ne_none hf hc
    obtain ⟨-, -, -, -, -, hspine, -⟩ := hc
    rw [spinesTo] at ih
    rw [spinesTo, pathTo_succ hparent, spineChain_append, ih]
    simp [spineChain, word, hspine]

end

section
variable (h : TreeCore s) {n f : Nat} (hf : f < s.sess.arenalen.toNat)
include h hf

/-- The spine values of a node are its parent's with the node's own at the end. -/
theorem TreeCore.spinesTo_succ (hc : ChildOfParent s f)
    (hp : (s.node (s.node f).parent.toNat).depth.toNat = n) :
    spinesTo s (n + 1) f = spinesTo s n (s.node f).parent.toNat ++ [(s.node f).spine] := by
  have hparent := h.parent_ne_none hf hc
  obtain ⟨hlt, -, -, -, -, hspine, -⟩ := hc
  have hlast := h.spinesTo_last (hlt.trans hf) hp
  rw [spinesTo] at hlast
  rw [spinesTo, pathTo_succ hparent, spineChain_append, hlast]
  simp [spineChain, spinesTo, word, ← hspine]

variable (hd : (s.node f).depth.toNat = n)
include hd

theorem TreeCore.spinesTo_length : (spinesTo s n f).length = n := by
  rw [spinesTo, spineChain_length, h.pathTo_length hf hd]

/-- A node's cost is the sum of the squared errors along its path (R170, R173). -/
theorem TreeCore.cost_eq_sum :
    (s.node f).cost.toNat = ∑ j ∈ Finset.range n, sse s ((spinesTo s n f).getD j 0) j := by
  refine h.depth_induction (P := fun n f => (s.node f).cost.toNat =
    ∑ j ∈ Finset.range n, sse s ((spinesTo s n f).getD j 0) j) ?_ ?_ n f hf hd
  · simp [h.root_cost]
  · intro n f _ hf hc hp ih
    have hlen := h.spinesTo_length (hc.1.trans hf) hp
    rw [h.spinesTo_succ hf hc hp, Finset.sum_range_succ]
    obtain ⟨-, -, -, -, -, -, hcost⟩ := hc
    refine hcost.trans (congrArg₂ (· + ·) (ih.trans (Finset.sum_congr rfl fun j hj => ?_)) ?_)
    · rw [List.getD_append _ _ _ _ (by rw [hlen]; exact Finset.mem_range.1 hj)]
    · rw [hp, List.getD_append_right _ _ _ _ hlen.le, hlen, Nat.sub_self, List.getD_cons_zero]

end

/-! ## The leaves of the last step (R185) -/

/-- In a session at its last step the leaves of the beam have depth N (R185 (b)). -/
theorem WholeInvariant.leaf_facts (h : WholeInvariant s) (hdec : s.phase = .dec)
    (hlast : s.sess.step.toNat + 1 = s.sess.nsteps.toNat) :
    ∀ x ∈ beamLeaves s, x < s.sess.arenalen.toNat ∧
      (s.node x).depth.toNat = s.sess.nchunk.toNat := by
  intro x hx
  have htree := h.tree hdec
  have hsteps := (h.registers.dec_open hdec).nsteps
  obtain ⟨b, hb, hx⟩ := List.mem_flatMap.1 hx
  obtain ⟨hlt, hdepth⟩ := (h.core hdec).frontier_facts (htree.beam_lt b hb) _ (htree.inner b hb) x hx
  refine ⟨hlt, ?_⟩
  rw [hdepth, htree.beam_depth b hb]
  omega

/-! ## Encoding the result again (R189 (b)) -/

/-- A sum over l blocks of n entries, block by block. -/
theorem sum_range_blocks (n l : Nat) (f : Nat → Nat) : ∑ t ∈ Finset.range (n * l), f t =
    ∑ p ∈ Finset.range l, ∑ j ∈ Finset.range n, f (p * n + j) := by
  induction l with
  | zero => rfl
  | succ l ih => rw [Nat.mul_succ, Finset.sum_range_add, ih, Finset.sum_range_succ, Nat.mul_comm n l]

theorem sse_eq_sum (s : State) (sp : Word) (pos : Nat) :
    sse s sp pos = ∑ p ∈ Finset.range s.conf.l.toNat,
      sqdiff (s.rxWord (p * s.sess.nchunk.toNat + pos)).toNat (draw sp s.conf.c.toNat p) := rfl

/-- Chunk by chunk or symbol by symbol: the squared errors of N spine values sum to the distance of the
received symbols from those that the spine values give, pass-major (R170). -/
theorem sum_sse_eq_distance {spines : List Word} (hlen : spines.length = s.sess.nchunk.toNat)
    (hrx : s.sess.rxlen.toNat = s.sess.nchunk.toNat * s.conf.l.toNat) :
    ∑ j ∈ Finset.range s.sess.nchunk.toNat, sse s (spines.getD j 0) j =
      distance s.sess.rxlen.toNat (fun t => (s.rxWord t).toNat)
        fun t => (symbols spines s.conf.c.toNat s.conf.l.toNat).getD t 0 := by
  simp only [sse_eq_sum]
  rw [distance, hrx, sum_range_blocks, Finset.sum_comm]
  refine Finset.sum_congr rfl fun p hp => Finset.sum_congr rfl fun j hj => ?_
  rw [Finset.mem_range] at hp hj
  have hlt : p * s.sess.nchunk.toNat + j < s.conf.l.toNat * spines.length := by
    rw [hlen]
    calc p * s.sess.nchunk.toNat + j < (p + 1) * s.sess.nchunk.toNat := by rw [Nat.succ_mul]; omega
      _ ≤ s.conf.l.toNat * s.sess.nchunk.toNat := Nat.mul_le_mul_right _ hp
  rw [symbols_getD _ _ _ _ hlt, hlen, Nat.mul_comm p, Nat.mul_add_mod, Nat.mod_eq_of_lt hj,
    Nat.mul_add_div (by omega), Nat.div_eq_of_lt hj, Nat.add_zero]

/-- A whole number of chunks is packed without padding, so the Encoder cuts the same chunks again. -/
theorem divide_padded_pack {xs : List Nat} {k : Nat} (hk : 1 ≤ k) (hk' : k ≤ 31)
    (hx : ∀ x ∈ xs, x < 2 ^ k) (hwhole : xs.length * k % 8 = 0) :
    divide (padded (pack xs k) k) k = xs := by
  have hbits : 8 * ((pack xs k).length + 0) % k = 0 := by
    rw [Nat.add_zero, pack_length, Nat.mul_div_cancel' (Nat.dvd_of_mod_eq_zero hwhole),
      Nat.mul_mod_left]
  have hpad : padcount (pack xs k).length k = 0 :=
    Nat.le_zero.1 ((Proofs.padcountIsTheLeastThatAligns _ k hk hk').2.1 0 hbits)
  rw [padded, hpad, List.replicate_zero, List.append_nil, divide_pack hk hx hwhole]

/-- The bytes DEC.TERM leaves are the packed path, where the path has all its chunks. -/
theorem terminated_obufBytes (hlegal : s.params.Legal)
    (hfit : s.sess.nchunk.toNat * s.conf.k.toNat / 8 ≤ s.params.bufCap)
    (hlen : (pathChunks s (bestLeaf s (beamLeaves s))).length = s.sess.nchunk.toNat) :
    (terminated s).obufBytes (terminated s).olen.toNat =
      pack (pathChunks s (bestLeaf s (beamLeaves s))) s.conf.k.toNat := by
  have hcount : (pack (pathChunks s (bestLeaf s (beamLeaves s))) s.conf.k.toNat).length =
      (terminated s).olen.toNat := by
    rw [terminated_olen_toNat hlegal hfit, pack_length, hlen]
  refine eq_of_getD_eq 0 (by rw [obufBytes_length, hcount]) fun a ha => ?_
  rw [← terminated_obufByte s (by rwa [pack_length] at ha),
    List.getD_eq_getElem _ _ (by rw [obufBytes_length, ← hcount]; exact ha)]
  simp [State.obufBytes]

end Sys2Proof.Machine

namespace Sys2Proof.Proofs

open Sys2Proof Sys2Proof.Machine Sys2Proof.Claims

/-- Settles O53: a leaf of the last step has depth N, and a node of depth n has a path of n chunks. -/
theorem decodedPathHasAllItsChunks : Obligations.DecodedPathHasAllItsChunks := by
  intro s h hdec hlast x hx
  obtain ⟨hlt, hdepth⟩ := h.leaf_facts hdec hlast x hx
  have hcore := h.core hdec
  rw [pathChunks_eq_pathTo]
  exact ⟨BitVec.eq_of_toNat_eq hdepth, hcore.pathTo_length hlt hdepth, hcore.pathTo_lt hlt hdepth⟩

/-- Settles O54: the Encoder's chunks of the result are the path of the best leaf, whose cost is the sum of
the squared errors along it. -/
theorem bcostIsTheReencodingDistance : Obligations.BcostIsTheReencodingDistance := by
  intro s h hdec hlast
  have hcore := h.core hdec
  have hopen := h.registers.dec_open hdec
  obtain ⟨before, after, hsplit, -⟩ := bestLeaf_spec s (beamLeaves_ne_nil hopen.beam_pos)
  have hbest : bestLeaf s (beamLeaves s) ∈ beamLeaves s := by
    have hmem : bestLeaf s (beamLeaves s) ∈ before ++ bestLeaf s (beamLeaves s) :: after := by simp
    rwa [← hsplit] at hmem
  obtain ⟨hlt, hdepth⟩ := h.leaf_facts hdec hlast _ hbest
  obtain ⟨hk, hk', -⟩ := hcore.conf
  have hlen := hcore.pathTo_length hlt hdepth
  have he := exec_decTerm s
  rw [if_neg (not_not.2 hdec), if_neg (not_not.2 hlast), commit_ok] at he
  refine ⟨terminated s, he, ?_⟩
  rw [terminated_obufBytes hcore.params hopen.out_fits hlen, messageSymbols, pathChunks_eq_pathTo,
    divide_padded_pack hk hk' (hcore.pathTo_lt hlt hdepth)
      (by rw [hlen]; exact hopen.out_aligned),
    terminated_bcost, hcore.cost_eq_sum hlt hdepth]
  exact sum_sse_eq_distance (hcore.spinesTo_length hlt hdepth) hcore.rxlen

end Sys2Proof.Proofs
end

section
/-! DECODE as the session it runs, and as its command sequence (45_decoder.md R187). -/

namespace Sys2Proof.Machine

open Sys2Proof.Claims Sys2Proof.Proofs

variable {s t u v : State}

/-! ## A command that has passed its checks takes its effect -/

theorem DidInit.decInitState_eq (h : DidInit s t) : decInitState s = .ok t := by
  simp only [decInitState, check_eq_ok, not_or, ne_eq, not_not, Bool.not_eq_false]
  exact ⟨⟨h.idle, h.ready⟩, h.whole, h.passes, h.symbols.not_gt, h.depth.not_gt, h.aligned,
    h.bytes.not_gt, h.cost.not_ge, h.nodes.not_gt, congrArg Except.ok h.eq.symm⟩

theorem DidStep.decStepState_eq (h : DidStep s t) : decStepState s = .ok t := by
  simp only [decStepState, check_eq_ok, ne_eq, not_not]
  exact ⟨h.dec, h.left.not_ge, h.nodes.not_gt, h.cands.not_gt, h.beam.not_gt,
    congrArg Except.ok h.eq.symm⟩

theorem DidTerm.decTermState_eq (h : DidTerm s t) : decTermState s = .ok t := by
  simp only [decTermState, check_eq_ok, ne_eq, not_not]
  exact ⟨h.dec, h.last, congrArg Except.ok h.eq.symm⟩

theorem DidSteps.decSteps_eq {n : Nat} (h : DidSteps n s t) : decSteps n s = .ok t := by
  induction h with
  | zero s => rfl
  | succ hstep _ ih => rw [decSteps, hstep.decStepState_eq]; exact ih

theorem decodeState_eq (hi : DidInit s u) (hs : DidSteps (u.sess.nsteps.toNat - 1) u v)
    (ht : DidTerm v t) : decodeState s = .ok t := by
  rw [decodeState, hi.decInitState_eq]
  simp only []
  rw [hs.decSteps_eq]
  exact ht.decTermState_eq

/-! ## A session whose steps all fit (R174, R188 item 2) -/

theorem arenaSizeAfter_mono (b k d : Nat) : Monotone (arenaSizeAfter b k d) :=
  monotone_nat_of_le_succ fun _ => Nat.le_add_right _ _

/-- u is the session opened from s, i steps on. -/
structure AtStep (s : State) (i : Nat) (u : State) : Prop where
  frame : SessionOnly s u
  dec : u.phase = .dec
  nchunk : u.sess.nchunk.toNat = streamChunks s
  nsteps : u.sess.nsteps.toNat = streamSteps s
  step : u.sess.step.toNat = i
  beamlen : u.sess.beamlen.toNat = beamSizeAfter s.conf.b.toNat s.conf.k.toNat i
  arenalen : u.sess.arenalen.toNat =
    arenaSizeAfter s.conf.b.toNat s.conf.k.toNat s.conf.d.toNat i

theorem AtStep.conf {i : Nat} (hu : AtStep s i u) : u.conf = s.conf := by rw [hu.frame]

theorem AtStep.params {i : Nat} (hu : AtStep s i u) : u.params = s.params := by rw [hu.frame]

theorem DidInit.atStep (h : InitAdmits s) (hi : DidInit s u) : AtStep s 0 u := by
  obtain ⟨-, hchunks, hsteps, hstep, hbeam, harena⟩ := hi.counts_of_admits h
  exact ⟨hi.sessionOnly, hi.phase, hchunks, hsteps, by rw [hstep]; rfl, by rw [hbeam]; rfl, harena⟩

section
variable (h : InitAdmits s) (hfits : SessionFits s)
include h hfits

theorem AtStep.admits {i : Nat} (hu : AtStep s i u) (hi : i < streamSteps s - 1) : StepAdmits u where
  legal := by rw [hu.params]; exact h.legal
  dec := hu.dec
  steps_left := by rw [hu.step, hu.nsteps]; omega
  nodes_fit := by
    rw [hu.arenalen, hu.beamlen, hu.conf, hu.params]
    exact (arenaSizeAfter_mono _ _ _ (show i + 1 ≤ streamSteps s - 1 from hi)).trans hfits.nodes
  cands_fit := by rw [hu.beamlen, hu.conf, hu.params]; exact hfits.cands i hi
  beam_fits := by rw [hu.beamlen, hu.conf, hu.params]; exact hfits.beam i hi

theorem AtStep.next {i : Nat} (hu : AtStep s i u) (hi : i < streamSteps s - 1) :
    ∃ v, DidStep u v ∧ AtStep s (i + 1) v := by
  have hadmits := hu.admits h hfits hi
  obtain ⟨-, -, -, -, -, -, -, -, hd⟩ := h.conf
  obtain ⟨v, -, hv⟩ := exec_decStep_of_admits hadmits
  refine ⟨v, hv, hu.frame.trans hv.sessionOnly, hv.phase, ?_, ?_, ?_, ?_, ?_⟩
  · rw [hv.eq_update]; exact hu.nchunk
  · rw [hv.eq_update]; exact hu.nsteps
  · rw [hv.step_toNat, hu.step]
  · rw [hv.beamlen hadmits.legal, kept_length, hu.beamlen, hu.conf]; rfl
  · rw [hv.arenalen hadmits.legal (by rwa [hu.conf]), hu.arenalen, hu.beamlen, hu.conf]; rfl

theorem AtStep.run {n i : Nat} (hu : AtStep s i u) (hn : i + n = streamSteps s - 1) :
    ∃ v, DidSteps n u v ∧ AtStep s (i + n) v := by
  induction n generalizing i u with
  | zero => exact ⟨u, .zero u, hu⟩
  | succ n ih =>
    obtain ⟨w, hw, hw'⟩ := hu.next h hfits (by omega)
    obtain ⟨v, hv, hv'⟩ := ih hw' (by omega)
    exact ⟨v, .succ hw hv, by rwa [show i + (n + 1) = i + 1 + n by omega]⟩

/-- Every part of DECODE executes, and DEC.TERM finds the session at its last step. -/
theorem decode_parts : ∃ u v, DidInit s u ∧ DidSteps (u.sess.nsteps.toNat - 1) u v ∧
    DidTerm v (terminated v) ∧ AtStep s (streamSteps s - 1) v := by
  obtain ⟨u, -, hu⟩ := exec_decInit_of_admits h
  have hstart := hu.atStep h
  obtain ⟨v, hv, hlast⟩ := hstart.run h hfits (Nat.zero_add _)
  rw [Nat.zero_add] at hlast
  have hpos : 1 ≤ streamSteps s := Nat.le_add_left _ _
  refine ⟨u, v, hu, by rwa [hstart.nsteps], ⟨hlast.dec, ?_, rfl⟩, hlast⟩
  rw [hlast.step, hlast.nsteps, Nat.sub_add_cancel hpos]

end

/-- A session writes RX, ARENA and BEAM alone. -/
theorem SessionOnly.sameOutside (h : SessionOnly s t) :
    SameOutside (fun sp _ => sp = .rx ∨ sp = .arena ∨ sp = .beam) s t := by
  intro sp a hout
  cases sp with
  | ibuf | obuf | chunk => rw [h]; rfl
  | rx | arena | beam => simp at hout

/-- DECODE closes the session it opens in IDLE: what is left is OBUF, OLEN, BCOST and stale cells. -/
theorem terminated_of_sessionOnly (h : SessionOnly s v) (hidle : s.phase = .idle) :
    terminated v =
      { s with
        sess := Session.closed, olen := (terminated v).olen, bcost := (terminated v).bcost
        mem := { s.mem with obuf := (terminated v).mem.obuf, rx := v.mem.rx, arena := v.mem.arena
                            beam := v.mem.beam } } := by
  obtain ⟨sess, phase, rx, arena, beam, rfl⟩ := h.exists_eq
  exact (terminated_eq _).trans (by rw [← hidle])

end Sys2Proof.Machine

namespace Sys2Proof.Proofs

open Sys2Proof Sys2Proof.Machine Sys2Proof.Claims

/-- Settles O57: the counts of the session are those of R174 and R188 at every step. -/
theorem decodeCompletesWhenTheSessionFits : Obligations.DecodeCompletesWhenTheSessionFits := by
  intro s h hfits
  obtain ⟨u, v, hu, hv, ht, hlast⟩ := decode_parts h hfits
  have he : exec .decode s = .next (terminated v) := by
    rw [exec, execDecode, decodeState_eq hu hv ht, commit_ok]
  have hbytes : v.sess.nchunk.toNat * v.conf.k.toNat / 8 ≤ v.params.bufCap := by
    rw [hlast.nchunk, hlast.conf, hlast.params]
    exact h.bytes_fit
  have hlegal : v.params.Legal := by rw [hlast.params]; exact h.legal
  refine ⟨terminated v, he, rfl, ?_, rfl, fun sp a hout => ?_,
    terminated_of_sessionOnly hlast.frame h.idle⟩
  · rw [terminated_olen_toNat hlegal hbytes, hlast.nchunk, hlast.conf]
  · simp only [not_or] at hout
    obtain ⟨hrx, harena, hbeam, hobuf⟩ := hout
    exact (sameOutside_terminated hlegal hbytes sp a hobuf).trans
      (hlast.frame.sameOutside sp a (by simp [hrx, harena, hbeam]))

end Sys2Proof.Proofs
end

section
/-! The words of DECODE's command sequence, run one after another (45_decoder.md R187). -/

namespace Sys2Proof.Machine

open Sys2Proof.Claims Sys2Proof.Proofs

variable {s t u : State}

/-! ## One word of a run -/

/-- w is the word of a command that makes of a state what f says, whatever the host's later events. -/
structure SessionWord (w : Word) (i : Instr) (f : State → Except Err State) : Prop where
  decodes : decode w = some i
  runs : ∀ s, exec i s = commit i s (f s)
  blind : ∀ es s, f (withPending es s) = (f s).map (withPending es)

theorem sessionWord_decInit : SessionWord 0x48000000 .decInit decInitState :=
  ⟨decode_of_encode rfl rfl, fun _ => rfl, decInitState_withPending⟩

theorem sessionWord_decStep : SessionWord 0x49000000 .decStep decStepState :=
  ⟨decode_of_encode rfl rfl, fun _ => rfl, decStepState_withPending⟩

theorem sessionWord_decTerm : SessionWord 0x4A000000 .decTerm decTermState :=
  ⟨decode_of_encode rfl rfl, fun _ => rfl, decTermState_withPending⟩

/-- The host's events of a list of words, and what comes after them. -/
def issued (ws : List Word) (es : List HostEvent) : List HostEvent := ws.map HostEvent.command ++ es

section
variable {w : Word} {i : Instr} {f : State → Except Err State} (hw : SessionWord w i f)
  (hp : s.phase ≠ .halt) (ws : List Word) (es : List HostEvent)
include hw hp

theorem SessionWord.step_issued :
    step (withPending (issued (w :: ws) es) s) =
      commit i (withPending (issued ws es) s) ((f s).map (withPending (issued ws es))) := by
  rw [← hw.blind, ← hw.runs]
  exact step_command hw.decodes s _ hp

theorem SessionWord.run_ok (hf : f s = .ok t) :
    runSteps (w :: ws).length (withPending (issued (w :: ws) es) s) =
      runSteps ws.length (withPending (issued ws es) t) := by
  refine runSteps_succ _ ?_
  rw [hw.step_issued hp, hf]
  rfl

/-- After a word that raises, the engine is in HALT and ignores the rest. -/
theorem SessionWord.run_error {e : Err} (hws : ∀ w ∈ ws, w ≠ srstWord) (hf : f s = .error e) :
    runSteps (w :: ws).length (withPending (issued (w :: ws) es) s) =
      .next (errorEntry e (encode i) (withPending es s)) := by
  have hstep : step (withPending (issued (w :: ws) es) s) =
      .next (errorEntry e (encode i) (withPending (issued ws es) s)) := by
    rw [hw.step_issued hp, hf]
    rfl
  refine (runSteps_succ _ hstep).trans ?_
  exact runSteps_halt ws hws _ es rfl rfl

end

/-! ## The run -/

/-- u is how a run of words that makes r ends before the events es: in the state made, or in HALT with the
code and info of the error. -/
def EndsAs (r : Except Err State) (es : List HostEvent) (u : State) : Prop :=
  (∃ t, r = .ok t ∧ u = withPending es t) ∨
  ∃ e cmd, r = .error e ∧ u.phase = .halt ∧ u.error = ⟨word e.code, word e.info, cmd⟩

/-- n times DEC.STEP, then DEC.TERM. -/
def finishState (n : Nat) (s : State) : Except Err State :=
  match decSteps n s with
  | .error e => .error e
  | .ok t => decTermState t

theorem finishState_zero (s : State) : finishState 0 s = decTermState s := rfl

theorem finishState_succ_ok (n : Nat) (h : decStepState s = .ok t) :
    finishState (n + 1) s = finishState n t := by
  simp only [finishState, decSteps, h]

theorem finishState_succ_error (n : Nat) {e : Err} (h : decStepState s = .error e) :
    finishState (n + 1) s = .error e := by
  simp only [finishState, decSteps, h]

theorem decodeState_of_init_ok (h : decInitState s = .ok t) :
    decodeState s = finishState (t.sess.nsteps.toNat - 1) t := by
  cases hs : decSteps (t.sess.nsteps.toNat - 1) t <;> simp only [decodeState, h, finishState, hs]

theorem decodeState_of_init_error {e : Err} (h : decInitState s = .error e) :
    decodeState s = .error e := by
  simp only [decodeState, h]

/-- The words of n DEC.STEPs and DEC.TERM. -/
def finishWords (n : Nat) : List Word := List.replicate n 0x49000000 ++ [0x4A000000]

theorem finishWords_succ (n : Nat) : finishWords (n + 1) = 0x49000000 :: finishWords n := rfl

theorem finishWords_ne_srst (n : Nat) : ∀ w ∈ finishWords n, w ≠ srstWord := by
  intro w hw
  rcases List.mem_append.1 hw with hw | hw
  · rw [List.eq_of_mem_replicate hw]
    decide
  · rw [List.mem_singleton.1 hw]
    decide

/-- A word whose command raises ends the run. -/
theorem SessionWord.endsAs_error {w : Word} {i : Instr} {f : State → Except Err State}
    (hw : SessionWord w i f) (hp : s.phase ≠ .halt) {ws : List Word} (hws : ∀ w ∈ ws, w ≠ srstWord)
    (es : List HostEvent) {e : Err} (hf : f s = .error e) :
    ∃ u, runSteps (w :: ws).length (withPending (issued (w :: ws) es) s) = .next u ∧
      EndsAs (.error e) es u :=
  ⟨_, hw.run_error hp ws es hws hf, .inr ⟨e, _, rfl, rfl, rfl⟩⟩

theorem runSteps_finishWords (n : Nat) (hp : s.phase ≠ .halt) (es : List HostEvent) :
    ∃ u, runSteps (finishWords n).length (withPending (issued (finishWords n) es) s) = .next u ∧
      EndsAs (finishState n s) es u := by
  induction n generalizing s with
  | zero =>
    rw [finishState_zero]
    cases hf : decTermState s with
    | ok t => exact ⟨_, sessionWord_decTerm.run_ok hp [] es hf, .inl ⟨t, rfl, rfl⟩⟩
    | error e => exact sessionWord_decTerm.endsAs_error hp (List.forall_mem_nil _) es hf
  | succ n ih =>
    rw [finishWords_succ]
    cases hf : decStepState s with
    | ok t =>
      rw [finishState_succ_ok n hf, sessionWord_decStep.run_ok hp _ es hf]
      exact ih (by rw [(decStepState_eq_ok hf).phase]; simp)
    | error e =>
      rw [finishState_succ_error n hf]
      exact sessionWord_decStep.endsAs_error hp (finishWords_ne_srst n) es hf

/-- The words of DEC.INIT, NSTEPS - 1 times DEC.STEP and DEC.TERM. -/
def decodeWords (s : State) : List Word := 0x48000000 :: finishWords (streamSteps s - 1)

theorem runSteps_decodeWords (h : Invariant s) (hp : s.phase ≠ .halt) (es : List HostEvent) :
    ∃ u, runSteps (decodeWords s).length (withPending (issued (decodeWords s) es) s) = .next u ∧
      EndsAs (decodeState s) es u := by
  unfold decodeWords
  cases hf : decInitState s with
  | ok t =>
    have hi := decInitState_eq_ok hf
    obtain ⟨-, -, hsteps, -⟩ := hi.counts h
    rw [decodeState_of_init_ok hf, sessionWord_decInit.run_ok hp _ es hf, hsteps]
    exact runSteps_finishWords _ (by rw [hi.phase]; simp) es
  | error e =>
    rw [decodeState_of_init_error hf]
    exact sessionWord_decInit.endsAs_error hp (finishWords_ne_srst _) es hf

/-- DECODE ends in IDLE and takes none of the host's events. -/
theorem decodeState_ok_frame (h : decodeState s = .ok t) : t.phase = .idle ∧ t.pending = s.pending := by
  obtain ⟨u, v, hi, hs, -, -, rfl⟩ := decodeState_eq_ok h
  obtain ⟨sess, phase, rx, arena, beam, rfl⟩ := (hi.sessionOnly.trans hs.sessionOnly).exists_eq
  exact ⟨rfl, rfl⟩

end Sys2Proof.Machine

namespace Sys2Proof.Proofs

open Sys2Proof Sys2Proof.Machine Sys2Proof.Claims

/-- Settles O56: the run of the words ends as `decodeState` does, and so does DECODE. -/
theorem decodeIsItsCommandSequence : Obligations.DecodeIsItsCommandSequence := by
  intro s t es h hhalt hpending hstep
  subst hpending
  rw [step_command (w := 0x4C000000) (i := .decode) (decode_of_encode rfl rfl) s _ hhalt] at hstep
  change commit .decode s (decodeState s) = .next t at hstep
  obtain ⟨u, hrun, hends⟩ := runSteps_decodeWords h hhalt s.pending
  refine ⟨u, hrun, ?_⟩
  rcases hends with ⟨t', hok, rfl⟩ | ⟨e, cmd, herror, huhalt, huerror⟩
  · rw [hok, commit_ok] at hstep
    obtain rfl := Host.Outcome.next.inj hstep
    obtain ⟨hidle, hpend⟩ := decodeState_ok_frame hok
    rw [if_neg (by rw [hidle]; simp)]
    exact ⟨by rw [← hpend], hidle⟩
  · rw [herror, commit_error] at hstep
    obtain rfl := Host.Outcome.next.inj hstep
    rw [if_pos (errorEntry_phase e _ s), huerror]
    exact ⟨huhalt, rfl, rfl, rfl⟩

end Sys2Proof.Proofs
end

section
/-! SRST (46_system.md R200): in every register, CSR and context the state it makes is the state after
hardware reset (R200 (c)), whose values O13 settles; the memories are those it found. -/

namespace Sys2Proof.Machine

theorem exec_srst (s : State) : exec .srst s = .next (softwareReset s) := rfl

@[simp] theorem softwareReset_getX (s : State) (r : Reg) :
    (softwareReset s).getX r = State.reset.getX r := rfl

@[simp] theorem softwareReset_getG (s : State) (g : CtxNum) :
    (softwareReset s).getG g = State.reset.getG g := rfl

@[simp] theorem softwareReset_csrTable (s : State) :
    Claims.csrTable (softwareReset s) = Claims.csrTable State.reset := rfl

@[simp] theorem softwareReset_ibufByte (s : State) (a : Nat) :
    (softwareReset s).ibufByte a = s.ibufByte a := rfl

@[simp] theorem softwareReset_chunkWord (s : State) (a : Nat) :
    (softwareReset s).chunkWord a = s.chunkWord a := rfl

/-- OBUF, RX, ARENA and BEAM have length 0, so no load reaches their cells (20_memory.md R60). -/
theorem loadBound_softwareReset (s : State) {sp : Space} (hi : sp ≠ .ibuf) (hc : sp ≠ .chunk) :
    loadBound (softwareReset s) sp = 0 := by
  cases sp with
  | ibuf => exact absurd rfl hi
  | chunk => exact absurd rfl hc
  | obuf | rx | arena | beam => rfl

end Sys2Proof.Machine

namespace Sys2Proof.Proofs

open Sys2Proof Sys2Proof.Machine

/-- Settles O14: SRST makes `softwareReset s`, which reads as the reset state outside the memories. -/
theorem srstSetsResetValuesAndKeepsIbufAndChunk :
    Obligations.SrstSetsResetValuesAndKeepsIbufAndChunk := by
  intro s
  obtain ⟨hx, hcsr, -, -, hg⟩ := resetStateHoldsTheResetValues
  refine ⟨softwareReset s, exec_srst s, ?_, ?_, rfl, rfl, ?_, softwareReset_ibufByte s,
    softwareReset_chunkWord s, fun _ hi hc => loadBound_softwareReset s hi hc, rfl, rfl, rfl⟩
  · exact fun r => (softwareReset_getX s r).trans (hx r)
  · rw [softwareReset_csrTable]
    exact hcsr
  · exact fun g => (softwareReset_getG s g).trans (hg g)

end Sys2Proof.Proofs
end

section
/-! Precise errors (60_exceptions.md R206, R210), and what becomes of an event that runs no command: no
event at all (R225), a word taken in HALT (R211) and an illegal word (R212). -/

namespace Sys2Proof.Machine

variable {s t : State}

/-! ## Which commands end in HALT -/

/-- No command's own effect is to stop the engine: only error entry moves PHASE to HALT. -/
theorem Does.phase_ne_halt {i : Instr} (hd : Does s t i) (hs : s.phase ≠ .halt) : t.phase ≠ .halt := by
  rcases hd.phase with hsame | ⟨-, hdec, -⟩ | ⟨-, hidle, -⟩ | ⟨hidle, -⟩
  · rwa [hsame]
  · simp [hdec]
  · simp [hidle]
  · simp [hidle]

/-- A command that leaves the engine in HALT has raised an error of its own. -/
theorem exec_halts {i : Instr} (hs : s.phase ≠ .halt) (he : exec i s = .next t)
    (ht : t.phase = .halt) : ∃ e, e ≠ .illCmd ∧ t = errorEntry e (encode i) s :=
  (exec_cases he).resolve_left fun hd => hd.phase_ne_halt hs ht

/-- The codes of R206 that a command's own checks raise: all but E_ILLCMD, which a word raises. -/
theorem Err.code_mem_of_ne_illCmd {e : Err} (he : e ≠ .illCmd) :
    e.code ∈ [0x02, 0x03, 0x04, 0x05, 0x06, 0x07, 0x10, 0x11, 0x12, 0x13, 0x14, 0x15, 0x16, 0x20,
      0x21, 0x30] := by
  cases e
  case illCmd => exact absurd rfl he
  all_goals simp [Err.code]

/-! ## The step where no command runs -/

theorem takeEvent_nil (hp : s.pending = []) : takeEvent s = .waiting s := by
  unfold takeEvent
  rw [hp]

theorem step_of_takeEvent_waiting (h : takeEvent s = .waiting t) : step s = .next t := by
  unfold step
  rw [h]

theorem step_of_takeEvent_ignored (h : takeEvent s = .ignored t) : step s = .next t := by
  unfold step
  rw [h]

theorem step_of_takeEvent_illegal {w : Word} (h : takeEvent s = .illegal w t) :
    step s = .next (errorEntry .illCmd w t) := by
  unfold step
  rw [h]
  rfl

theorem decode_srstWord : decode srstWord = some .srst := by decide

end Sys2Proof.Machine

namespace Sys2Proof.Proofs

open Sys2Proof Sys2Proof.Machine

/-- Settles O15: the command has raised, and error entry starts from the state in which it began. -/
theorem errorsArePrecise : Obligations.ErrorsArePrecise := by
  intro i s t hs he ht
  obtain ⟨e, hne, rfl⟩ := exec_halts hs he ht
  refine ⟨rfl, rfl, ?_⟩
  rw [errorEntry_error, e.word_code_toNat]
  exact Err.code_mem_of_ne_illCmd hne

/-- Settles O7: HALT is looked at before the word is decoded; SRST's word is decoded in every phase (O6). -/
theorem haltIgnoresEveryWordButSrst : Obligations.HaltIgnoresEveryWordButSrst := by
  intro s w es hp hhalt
  constructor
  · intro hw
    exact step_of_takeEvent_ignored ((takeEvent_command hp).trans (takeCommand_ignored hhalt hw))
  · rintro rfl
    exact stepRunsTheDecodedCommand s srstWord .srst es hp decode_srstWord (.inr rfl)

/-- Settles O8: outside HALT a word that decodes to no command ends in error entry. -/
theorem illegalWordRaisesIllcmd : Obligations.IllegalWordRaisesIllcmd := by
  intro s w es hp hs hd
  exact step_of_takeEvent_illegal ((takeEvent_command hp).trans (takeCommand_illegal hs hd))

/-- Settles O11. -/
theorem waitingEngineHoldsItsState : Obligations.WaitingEngineHoldsItsState :=
  fun _ hp => step_of_takeEvent_waiting (takeEvent_nil hp)

end Sys2Proof.Proofs
end

section
/-! Hardware reset (70_reset_and_hazards.md R230): the step that takes it answers the state SRST makes of
memories unwritten, so its registers are O13's reset values and its cells the next launch's (R50, log 4). -/

namespace Sys2Proof.Machine

variable {s t : State}

theorem takeEvent_hardwareReset {es : List HostEvent} (hp : s.pending = .hardwareReset :: es) :
    takeEvent s = .reset { s with pending := es } := by
  unfold takeEvent
  rw [hp]

theorem step_of_takeEvent_reset (h : takeEvent s = .reset t) : step s = .next (hardwareReset t) := by
  unfold step
  rw [h]

@[simp] theorem hardwareReset_getX (s : State) (r : Reg) :
    (hardwareReset s).getX r = State.reset.getX r := by
  rw [hardwareReset_eq, softwareReset_getX]

@[simp] theorem hardwareReset_getG (s : State) (g : CtxNum) :
    (hardwareReset s).getG g = State.reset.getG g := by
  rw [hardwareReset_eq, softwareReset_getG]

@[simp] theorem hardwareReset_csrTable (s : State) :
    Claims.csrTable (hardwareReset s) = Claims.csrTable State.reset := by
  rw [hardwareReset_eq, softwareReset_csrTable]

/-- No cell of IBUF is listed, so each reads as the content the new launch gives it (log 4). -/
theorem hardwareReset_ibufByte (s : State) (a : Nat) :
    (hardwareReset s).ibufByte a = Config.launchByte (s.launch + 1) 0 a := rfl

theorem hardwareReset_chunkWord (s : State) (a : Nat) :
    (hardwareReset s).chunkWord a = Config.launchWord (s.launch + 1) 2 a := rfl

end Sys2Proof.Machine

namespace Sys2Proof.Proofs

open Sys2Proof Sys2Proof.Machine

/-- Settles O9: the event is taken in every phase, and `hardwareReset` reads as the reset state outside
the memories. -/
theorem hardwareResetSetsEveryResetValue : Obligations.HardwareResetSetsEveryResetValue := by
  intro s es hp
  obtain ⟨hx, hcsr, hready, hphase, hg⟩ := resetStateHoldsTheResetValues
  refine ⟨hardwareReset { s with pending := es },
    step_of_takeEvent_reset (takeEvent_hardwareReset hp), ?_, ?_, hready, hphase, ?_,
    hardwareReset_ibufByte _, hardwareReset_chunkWord _, rfl, rfl, rfl⟩
  · exact fun r => (hardwareReset_getX _ r).trans (hx r)
  · rw [hardwareReset_csrTable]
    exact hcsr
  · exact fun g => (hardwareReset_getG _ g).trans (hg g)

end Sys2Proof.Proofs
end
